-- ==== Sys2Proof/Word.lean ====
section
/-! DEFINITION. The word types of the GoVM core: the 32-bit word of memory, instructions, program
counter and immediate latch, the container of a register value, and the 5-bit register index. -/

namespace Sys2Proof

/-- A 32-bit word: an instruction (R55), a memory word (R24), a program-counter value (R18), an
address or data latch (R25), an immediate latch (R29). -/
abbrev Word := BitVec 32

/-- A value of `XLEN` bits (R13), held in 64 bits: at `XLEN = 32` the upper half is 0 (log 2). -/
abbrev XVal := BitVec 64

/-- A register index, 0 to 31 (R13), as the five bits an instruction carries. -/
abbrev RegIx := BitVec 5

/-- Register 31, the constant-zero register XZR (R14). -/
def xzr : RegIx := 31

end Sys2Proof
end

