-- ==== Sys2Proof/Config.lean ====
section
/-! DEFINITION. The parameters of the core (00_scope.md R7) and the free values: constants without a
body, applied to a counter of the state, for what the spec leaves open. -/

namespace Sys2Proof

/-- The two widths for which the rules are defined (R7, U10). -/
inductive XLen where
  /-- `XLEN = 32` -/
  | x32
  /-- `XLEN = 64`, the default -/
  | x64
deriving DecidableEq, Repr

/-- The number of bits of a register. -/
def XLen.bits : XLen → Nat
  | .x32 => 32
  | .x64 => 64

/-- The parameters of R7 that an instruction's effect depends on. `REG_RESET` is an argument of
`State.resetWith`; the other rows of R7 are constants. -/
structure Params where
  /-- `XLEN` -/
  xlen : XLen
  /-- `MEM_WORDS`, the number of words of memory -/
  memWords : Nat
deriving DecidableEq, Repr

/-- The defaults of R7: `XLEN = 64`, `MEM_WORDS = 65536`. -/
def Params.default : Params := { xlen := .x64, memWords := 65536 }

/-- R7: `MEM_WORDS` is at least 1 and at most 2^32. -/
abbrev Params.Valid (p : Params) : Prop := 1 ≤ p.memWords ∧ p.memWords ≤ 4294967296

/-- FREE VALUE (log 7, R52, U4). For a fetch from a word that one of the two preceding instructions
stored to: how many of those two the fetch has overtaken, read modulo 3. Nothing constrains it. -/
opaque Config.fetchLag : Nat → Nat

/-- FREE VALUE (log 8, U5). What the program counter holds once the core has stopped. -/
opaque Config.stoppedPc : Nat → Word

end Sys2Proof
end

