-- ==== Sys2Proof/Syntax.lean ====
section
/-! DEFINITION. The instruction set: the 21 mnemonics and six formats of 30_encoding.md (R57 to R63),
and the instructions with their operands. Operands are the fields of the encoding; the bits that
Decode ignores (R69) are no operand. -/

namespace Sys2Proof

/-- The 21 mnemonics of R63, in the table's order. -/
inductive Mnemonic where
  | b | sturb | ldurb | sturh | ldurh | add | addi | adds | addis | cbz | cbnz
  | sturw | ldursw | sub | subi | movz | subs | subis | movk | stur | ldur
deriving DecidableEq, Repr

/-- The six instruction formats (R57 to R62). -/
inductive Format where
  /-- move wide immediate (R57) -/
  | im
  /-- register-register (R58) -/
  | r
  /-- register-immediate (R59) -/
  | i
  /-- load and store (R60) -/
  | d
  /-- unconditional branch (R61) -/
  | b
  /-- compare and branch (R62) -/
  | cb
deriving DecidableEq, Repr

/-- One row of the opcode map R63: the mnemonic owns the `opcode11` values from `lo` to `hi`. -/
structure OpcodeRow where
  mnemonic : Mnemonic
  lo : Nat
  hi : Nat
deriving DecidableEq, Repr

/-- The instructions, one constructor for each row of spec/opcode_table.json, in its order. -/
inductive Instr where
  /-- `B #off26` (R100) -/
  | b (off26 : BitVec 26)
  /-- `STURB Xt, [Xn, #off9]` (R95) -/
  | sturb (rt rn : RegIx) (off9 : BitVec 9)
  /-- `LDURB Xt, [Xn, #off9]` (R91) -/
  | ldurb (rt rn : RegIx) (off9 : BitVec 9)
  /-- `STURH Xt, [Xn, #off9]` (R96) -/
  | sturh (rt rn : RegIx) (off9 : BitVec 9)
  /-- `LDURH Xt, [Xn, #off9]` (R92) -/
  | ldurh (rt rn : RegIx) (off9 : BitVec 9)
  /-- `ADD Xd, Xn, Xm` (R81) -/
  | add (rd rn rm : RegIx)
  /-- `ADDI Xd, Xn, #imm12` (R85) -/
  | addi (rd rn : RegIx) (imm12 : BitVec 12)
  /-- `ADDS Xd, Xn, Xm` (R82) -/
  | adds (rd rn rm : RegIx)
  /-- `ADDIS Xd, Xn, #imm12` (R86) -/
  | addis (rd rn : RegIx) (imm12 : BitVec 12)
  /-- `CBZ Xt, #off19` (R101) -/
  | cbz (rt : RegIx) (off19 : BitVec 19)
  /-- `CBNZ Xt, #off19` (R102) -/
  | cbnz (rt : RegIx) (off19 : BitVec 19)
  /-- `STURW Xt, [Xn, #off9]` (R97) -/
  | sturw (rt rn : RegIx) (off9 : BitVec 9)
  /-- `LDURSW Xt, [Xn, #off9]` (R93) -/
  | ldursw (rt rn : RegIx) (off9 : BitVec 9)
  /-- `SUB Xd, Xn, Xm` (R83) -/
  | sub (rd rn rm : RegIx)
  /-- `SUBI Xd, Xn, #imm12` (R87) -/
  | subi (rd rn : RegIx) (imm12 : BitVec 12)
  /-- `MOVZ Xd, #imm16, LSL #(16 * hw)` (R78) -/
  | movz (rd : RegIx) (imm16 : BitVec 16) (hw : BitVec 2)
  /-- `SUBS Xd, Xn, Xm` (R84) -/
  | subs (rd rn rm : RegIx)
  /-- `SUBIS Xd, Xn, #imm12` (R88) -/
  | subis (rd rn : RegIx) (imm12 : BitVec 12)
  /-- `MOVK Xd, #imm16, LSL #(16 * hw)` (R79) -/
  | movk (rd : RegIx) (imm16 : BitVec 16) (hw : BitVec 2)
  /-- `STUR Xt, [Xn, #off9]` (R94) -/
  | stur (rt rn : RegIx) (off9 : BitVec 9)
  /-- `LDUR Xt, [Xn, #off9]` (R90) -/
  | ldur (rt rn : RegIx) (off9 : BitVec 9)
deriving DecidableEq, Repr

/-- The row an instruction belongs to. -/
def Instr.mnemonic : Instr → Mnemonic
  | .b .. => .b
  | .sturb .. => .sturb
  | .ldurb .. => .ldurb
  | .sturh .. => .sturh
  | .ldurh .. => .ldurh
  | .add .. => .add
  | .addi .. => .addi
  | .adds .. => .adds
  | .addis .. => .addis
  | .cbz .. => .cbz
  | .cbnz .. => .cbnz
  | .sturw .. => .sturw
  | .ldursw .. => .ldursw
  | .sub .. => .sub
  | .subi .. => .subi
  | .movz .. => .movz
  | .subs .. => .subs
  | .subis .. => .subis
  | .movk .. => .movk
  | .stur .. => .stur
  | .ldur .. => .ldur

/-- The destination register, for the families that have one (R66). -/
def Instr.dest : Instr → Option RegIx
  | .b .. => none
  | .sturb .. => none
  | .ldurb rt _ _ => some rt
  | .sturh .. => none
  | .ldurh rt _ _ => some rt
  | .add rd _ _ => some rd
  | .addi rd _ _ => some rd
  | .adds rd _ _ => some rd
  | .addis rd _ _ => some rd
  | .cbz .. => none
  | .cbnz .. => none
  | .sturw .. => none
  | .ldursw rt _ _ => some rt
  | .sub rd _ _ => some rd
  | .subi rd _ _ => some rd
  | .movz rd _ _ => some rd
  | .subs rd _ _ => some rd
  | .subis rd _ _ => some rd
  | .movk rd _ _ => some rd
  | .stur .. => none
  | .ldur rt _ _ => some rt

end Sys2Proof
end

