-- ==== Sys2Proof/WellFormed.lean ====
section
/-! DEFINITION. When an instruction is legal. Field widths are in the types of `Instr`, so the one
check left is R68: a destination field of 31 is illegal. Stores and compare-and-branch have no
destination; there 31 is a source. -/

namespace Sys2Proof

/-- R68: no destination is register 31. -/
def Instr.wellFormed (i : Instr) : Bool :=
  match i.dest with
  | some d => decide (d ≠ xzr)
  | none => true

/-- `Instr.wellFormed` as a decidable proposition. -/
abbrev Instr.WellFormed (i : Instr) : Prop := i.wellFormed = true

end Sys2Proof
end

