-- ==== Sys2Proof/Decode.lean ====
section
/-! DEFINITION. Decoding (30_encoding.md): the fields of the six formats (R57 to R62), the opcode map
and `classify` (R63, R64), what each mnemonic reads and writes (R66), the decoder, total on every
32-bit word, and after it the encoder. The opcode numbers are LEGv8's, adopted by the spec (log 13). -/

namespace Sys2Proof

/-! ### Fields of an instruction word -/

/-- `iw[31:21]`, the 11-bit value Decode dispatches on (R56). -/
def opcode11 (iw : Word) : BitVec 11 := iw.extractLsb' 21 11

/-- `iw[4:0]`: `Rd`, or `Rt` of a load, store or compare-and-branch. -/
def fieldRd (iw : Word) : RegIx := iw.extractLsb' 0 5

/-- `iw[9:5]`: `Rn`. -/
def fieldRn (iw : Word) : RegIx := iw.extractLsb' 5 5

/-- `iw[20:16]`: `Rm` (R58). -/
def fieldRm (iw : Word) : RegIx := iw.extractLsb' 16 5

/-- `iw[22:21]`: `hw` (R57). -/
def fieldHw (iw : Word) : BitVec 2 := iw.extractLsb' 21 2

/-- `iw[20:5]`: `imm16` (R57). -/
def fieldImm16 (iw : Word) : BitVec 16 := iw.extractLsb' 5 16

/-- `iw[21:10]`: `imm12` (R59). -/
def fieldImm12 (iw : Word) : BitVec 12 := iw.extractLsb' 10 12

/-- `iw[20:12]`: `off9` (R60). -/
def fieldOff9 (iw : Word) : BitVec 9 := iw.extractLsb' 12 9

/-- `iw[25:0]`: `off26` (R61). -/
def fieldOff26 (iw : Word) : BitVec 26 := iw.extractLsb' 0 26

/-- `iw[23:5]`: `off19` (R62). -/
def fieldOff19 (iw : Word) : BitVec 19 := iw.extractLsb' 5 19

/-! ### The opcode map -/

/-- R63, in ascending order of `opcode11`. -/
def opcodeMap : List OpcodeRow :=
  [⟨.b, 0x0A0, 0x0BF⟩, ⟨.sturb, 0x1C0, 0x1C0⟩, ⟨.ldurb, 0x1C2, 0x1C2⟩, ⟨.sturh, 0x3C0, 0x3C0⟩,
   ⟨.ldurh, 0x3C2, 0x3C2⟩, ⟨.add, 0x458, 0x458⟩, ⟨.addi, 0x488, 0x489⟩, ⟨.adds, 0x558, 0x558⟩,
   ⟨.addis, 0x588, 0x589⟩, ⟨.cbz, 0x5A0, 0x5A7⟩, ⟨.cbnz, 0x5A8, 0x5AF⟩, ⟨.sturw, 0x5C0, 0x5C0⟩,
   ⟨.ldursw, 0x5C4, 0x5C4⟩, ⟨.sub, 0x658, 0x658⟩, ⟨.subi, 0x688, 0x689⟩, ⟨.movz, 0x694, 0x697⟩,
   ⟨.subs, 0x758, 0x758⟩, ⟨.subis, 0x788, 0x789⟩, ⟨.movk, 0x794, 0x797⟩, ⟨.stur, 0x7C0, 0x7C0⟩,
   ⟨.ldur, 0x7C2, 0x7C2⟩]

/-- The row of a list of rows that owns an `opcode11` value. -/
def findRow (rows : List OpcodeRow) (op : Nat) : Option Mnemonic :=
  match rows with
  | [] => none
  | r :: rs => if r.lo ≤ op ∧ op ≤ r.hi then some r.mnemonic else findRow rs op

/-- R64: the mnemonic whose range holds `iw[31:21]`, or none for an unknown opcode (R67). -/
def classify (iw : Word) : Option Mnemonic := findRow opcodeMap (opcode11 iw).toNat

/-- The format of each mnemonic (R63). -/
def Mnemonic.format : Mnemonic → Format
  | .movz | .movk => .im
  | .add | .adds | .sub | .subs => .r
  | .addi | .addis | .subi | .subis => .i
  | .ldur | .ldurb | .ldurh | .ldursw | .stur | .sturb | .sturh | .sturw => .d
  | .b => .b
  | .cbz | .cbnz => .cb

/-- The four loads. -/
def Mnemonic.isLoad : Mnemonic → Bool
  | .ldur | .ldurb | .ldurh | .ldursw => true
  | _ => false

/-- The four stores. -/
def Mnemonic.isStore : Mnemonic → Bool
  | .stur | .sturb | .sturh | .sturw => true
  | _ => false

/-- B, CBZ and CBNZ. -/
def Mnemonic.isBranch : Mnemonic → Bool
  | .b | .cbz | .cbnz => true
  | _ => false

/-- `hasDest` of R113: MOVZ, MOVK, an R or I instruction, or a load. -/
def Mnemonic.hasDest (k : Mnemonic) : Bool := !(k.isStore || k.isBranch)

/-! ### The decoder -/

/-- Why a word is no instruction. -/
inductive DecodeError where
  /-- R67: `iw[31:21]`, recorded here, is in no range of the opcode map. -/
  | unknownOpcode (opcode : BitVec 11)
deriving DecidableEq, Repr

/-- The instruction of mnemonic `k` whose operands stand in the fields of `iw`. -/
def instrOf (k : Mnemonic) (iw : Word) : Instr :=
  match k with
  | .b => .b (fieldOff26 iw)
  | .sturb => .sturb (fieldRd iw) (fieldRn iw) (fieldOff9 iw)
  | .ldurb => .ldurb (fieldRd iw) (fieldRn iw) (fieldOff9 iw)
  | .sturh => .sturh (fieldRd iw) (fieldRn iw) (fieldOff9 iw)
  | .ldurh => .ldurh (fieldRd iw) (fieldRn iw) (fieldOff9 iw)
  | .add => .add (fieldRd iw) (fieldRn iw) (fieldRm iw)
  | .addi => .addi (fieldRd iw) (fieldRn iw) (fieldImm12 iw)
  | .adds => .adds (fieldRd iw) (fieldRn iw) (fieldRm iw)
  | .addis => .addis (fieldRd iw) (fieldRn iw) (fieldImm12 iw)
  | .cbz => .cbz (fieldRd iw) (fieldOff19 iw)
  | .cbnz => .cbnz (fieldRd iw) (fieldOff19 iw)
  | .sturw => .sturw (fieldRd iw) (fieldRn iw) (fieldOff9 iw)
  | .ldursw => .ldursw (fieldRd iw) (fieldRn iw) (fieldOff9 iw)
  | .sub => .sub (fieldRd iw) (fieldRn iw) (fieldRm iw)
  | .subi => .subi (fieldRd iw) (fieldRn iw) (fieldImm12 iw)
  | .movz => .movz (fieldRd iw) (fieldImm16 iw) (fieldHw iw)
  | .subs => .subs (fieldRd iw) (fieldRn iw) (fieldRm iw)
  | .subis => .subis (fieldRd iw) (fieldRn iw) (fieldImm12 iw)
  | .movk => .movk (fieldRd iw) (fieldImm16 iw) (fieldHw iw)
  | .stur => .stur (fieldRd iw) (fieldRn iw) (fieldOff9 iw)
  | .ldur => .ldur (fieldRd iw) (fieldRn iw) (fieldOff9 iw)

/-- Decoding, total on every word. A destination field of 31 decodes: it is the instruction that is
illegal (R68), and its meaning raises the error. -/
def decode (iw : Word) : Except DecodeError Instr :=
  match classify iw with
  | some k => .ok (instrOf k iw)
  | none => .error (.unknownOpcode (opcode11 iw))

/-- The host's reading of a table row: the instruction whose bits are `w`, bits from `nbits` on
being 0. One instruction is one memory word (R55), and a word has no byte order (R43). -/
def decodeTableWord (nbits w : Nat) : Option Instr :=
  match decode (BitVec.ofNat 32 (w % 2 ^ nbits)) with
  | .ok i => some i
  | .error _ => none

/-! ### The encoder -/

/-- Format IM (R57): `[9-bit family][2-bit shift][16-bit immediate][5-bit destination]`. -/
def encodeIM (op : BitVec 9) (hw : BitVec 2) (imm16 : BitVec 16) (rd : RegIx) : Word :=
  op ++ hw ++ imm16 ++ rd

/-- Format R (R58), the ignored bits 15:10 written 0 (R69). -/
def encodeR (op : BitVec 11) (rm rn rd : RegIx) : Word := op ++ rm ++ (0 : BitVec 6) ++ rn ++ rd

/-- Format I (R59). -/
def encodeI (op : BitVec 10) (imm12 : BitVec 12) (rn rd : RegIx) : Word := op ++ imm12 ++ rn ++ rd

/-- Format D (R60), the ignored bits 11:10 written 0 (R69). -/
def encodeD (op : BitVec 11) (off9 : BitVec 9) (rn rt : RegIx) : Word :=
  op ++ off9 ++ (0 : BitVec 2) ++ rn ++ rt

/-- Format B (R61). -/
def encodeB (op : BitVec 6) (off26 : BitVec 26) : Word := op ++ off26

/-- Format CB (R62). -/
def encodeCB (op : BitVec 8) (off19 : BitVec 19) (rt : RegIx) : Word := op ++ off19 ++ rt

/-- The word of an instruction, its fixed bits from the third column of R63. -/
def encode : Instr → Word
  | .b off => encodeB 0b000101 off
  | .sturb rt rn off => encodeD 0b00111000000 off rn rt
  | .ldurb rt rn off => encodeD 0b00111000010 off rn rt
  | .sturh rt rn off => encodeD 0b01111000000 off rn rt
  | .ldurh rt rn off => encodeD 0b01111000010 off rn rt
  | .add rd rn rm => encodeR 0b10001011000 rm rn rd
  | .addi rd rn imm => encodeI 0b1001000100 imm rn rd
  | .adds rd rn rm => encodeR 0b10101011000 rm rn rd
  | .addis rd rn imm => encodeI 0b1011000100 imm rn rd
  | .cbz rt off => encodeCB 0b10110100 off rt
  | .cbnz rt off => encodeCB 0b10110101 off rt
  | .sturw rt rn off => encodeD 0b10111000000 off rn rt
  | .ldursw rt rn off => encodeD 0b10111000100 off rn rt
  | .sub rd rn rm => encodeR 0b11001011000 rm rn rd
  | .subi rd rn imm => encodeI 0b1101000100 imm rn rd
  | .movz rd imm hw => encodeIM 0b110100101 hw imm rd
  | .subs rd rn rm => encodeR 0b11101011000 rm rn rd
  | .subis rd rn imm => encodeI 0b1111000100 imm rn rd
  | .movk rd imm hw => encodeIM 0b111100101 hw imm rd
  | .stur rt rn off => encodeD 0b11111000000 off rn rt
  | .ldur rt rn off => encodeD 0b11111000010 off rn rt

/-- A word with the bits that the decoder ignores in the format of `k` set to 0 (R69). -/
def clearIgnored (k : Mnemonic) (iw : Word) : Word :=
  match k.format with
  | .r => iw &&& 0xFFFF03FF
  | .d => iw &&& 0xFFFFF3FF
  | _ => iw

end Sys2Proof
end

