-- ==== Sys2Proof/Machine/State.lean ====
section
/-! DEFINITION. The state of the core as plain data (10_state.md): architectural state, hidden state,
stop state, and three fields of the model's own. The reasons a step can stop, and the reset state. -/

namespace Sys2Proof.Machine

open Sys2Proof

/-! ### Memory -/

/-- One listed word of memory: its word address and its content. Addresses name 32-bit words, the
smallest unit the hardware has (R24, R43; log 4). -/
abbrev WordCell := Nat × Word

/-- Memory as the list of the words that differ from `Memory.unlisted`, addresses strictly rising. -/
abbrev Memory := List WordCell

/-- What an unlisted word reads as: R35 gives every word beyond the program the content 0. -/
def Memory.unlisted : Word := 0

/-! ### Pipeline registers -/

/-- The Fetch-to-Decode register (R28). -/
structure FetchDecode where
  /-- the word read from memory; 0 without meaning when `fetchFault` -/
  instructionWord : Word
  /-- the instruction address plus 1 -/
  nextPC : Word
  /-- the instruction address was outside memory -/
  fetchFault : Bool
deriving DecidableEq, Repr

/-- The Decode-to-Execute register, the micro-op (R29). -/
structure DecodeExecute where
  instructionWord : Word
  nextPC : Word
  /-- the value of the first source register, or 0 -/
  operand1Value : XVal
  /-- the value of the second source register, or 0 -/
  operand2Value : XVal
  /-- the immediate or offset, widened to 32 bits (R65), or 0 -/
  signExtendedImmediate : Word
  /-- Decode enqueued the destination; the write enable of Writeback -/
  destinationLockAdded : Bool
deriving DecidableEq, Repr

/-- The Execute-to-Memory register (R30). -/
structure ExecuteMemory where
  /-- `instructionWord[4:0]`, meaningful when `destinationLockAdded` -/
  destinationRegister : RegIx
  /-- the result, or the effective address of a load or store, or 0 for a branch -/
  aluOrAddressResult : XVal
  /-- the value to store, meaningful for a store -/
  storeData : XVal
  isMemoryOp : Bool
  /-- the target of a branch that was taken -/
  branchTargetIfTaken : Option Word
  destinationLockAdded : Bool
  /-- the instruction address, for a fault raised by Memory-Access -/
  instrAddr : Word
deriving DecidableEq, Repr

/-- The Memory-to-Writeback register has the fields of the Execute-to-Memory register (R31). -/
abbrev MemoryWriteback := ExecuteMemory

/-! ### The fault record -/

/-- The fatal errors the core can raise at run time (R140). -/
inductive FaultKind where
  /-- code 1: the word is no instruction -/
  | unknownOpcode
  /-- code 2: destination field 31 in an instruction that has a destination -/
  | illegalDestination
  /-- code 3: a word address of `MEM_WORDS` or more, of a data access or of a fetch -/
  | memoryRange
deriving DecidableEq, Repr

/-- The fault record (R33): the kind and the address of the offending instruction. -/
structure FaultRecord where
  kind : FaultKind
  addr : Word
deriving DecidableEq, Repr

/-- What a store of the sequential level wrote over (log 7): the word's address and its content
before the store. -/
structure StoreUndo where
  addr : Word
  old : Word
deriving DecidableEq, Repr

/-! ### The state -/

/-- The state of the core. -/
structure State where
  /-- MODEL's own (log 2): the parameters of R7, fixed for a run -/
  params : Params
  /-- the registers `x[0]` to `x[30]` (R13); register 31 has no storage (R14) -/
  x : Vector XVal 31
  /-- the program counter, a word address (R18) -/
  pc : Word
  /-- the memory (R24) -/
  mem : Memory
  /-- the address latch of the Memory Access Unit (R25) -/
  mauAddr : Word
  /-- the data latch of the Memory Access Unit (R25) -/
  mauData : Word
  /-- the Hazard Tracker, oldest entry first (R26) -/
  ht : List RegIx
  /-- slot FD, held by Fetch (R27) -/
  fd : Option FetchDecode
  /-- slot DIN, the input of Decode (R27) -/
  din : Option FetchDecode
  /-- slot DE, the output of Decode (R27) -/
  de : Option DecodeExecute
  /-- slot EM, held by Execute (R27) -/
  em : Option ExecuteMemory
  /-- slot MW, held by Memory-Access (R27) -/
  mw : Option MemoryWriteback
  /-- a branch micro-op has been issued and not yet resolved (R32) -/
  branchPending : Bool
  /-- the fault record (R33) -/
  fault : Option FaultRecord
  /-- MODEL's own (log 7): for each of the two last instructions of the sequential level, the newest
  first, what it stored over -/
  recentStores : List (Option StoreUndo)
  /-- MODEL's own (log 7, log 8): how many free values have been drawn -/
  draws : Nat
deriving DecidableEq, Repr

/-! ### Why a step stops -/

/-- Raised by `step` alone; no meaning of an instruction raises one. -/
inductive Fault where
  /-- SAFE. The core is halted (R144): a fatal error is recorded and nothing is in flight, so no step
  is enabled until reset. The reason repeats the fault record. -/
  | halted (kind : FaultKind) (addr : Word)
  /-- SAFE. Something is in flight and no step is enabled. No run reaches such a state (R160); a
  release without an entry (U7) would be one. -/
  | stuck
deriving DecidableEq, Repr

/-- Why an instruction has no meaning. Every instruction of this model has one. -/
inductive Refusal where
  /-- SAFE. Raised by an arm of `exec` whose instruction is not modelled yet. No arm is. -/
  | notModelled (mnemonic : String)
deriving DecidableEq, Repr

/-- The answer of an instruction and of a step. -/
abbrev Result := Host.Outcome State Fault Refusal

/-! ### Reset -/

/-- The state after reset (R35, R154) with the default parameters and the empty image. The registers
(log 3) and the two latches (log 6), for which the spec gives no value, hold 0. -/
def State.reset : State where
  params := Params.default
  x := Vector.replicate 31 0
  pc := 0
  mem := []
  mauAddr := 0
  mauData := 0
  ht := []
  fd := none
  din := none
  de := none
  em := none
  mw := none
  branchPending := false
  fault := none
  recentStores := []
  draws := 0

end Sys2Proof.Machine
end

