-- ==== Sys2Proof/Machine/Operands.lean ====
section
/-! DEFINITION. Operand values: widening and cutting to `XLEN` bits (00_scope.md R9), the immediates
(30_encoding.md R65), the arithmetic (41 R80), the shifted immediates of MOVZ and MOVK (40), the
effective address (43 R89) and the branch target (44 R98).

There is no flag computation: the core has no flags (10_state.md R21). -/

namespace Sys2Proof.Machine

open Sys2Proof

/-- `trunc_XLEN`: the low `XLEN` bits of a value, held in 64. -/
def truncX (p : Params) (v : XVal) : XVal :=
  match p.xlen with
  | .x64 => v
  | .x32 => (v.setWidth 32).setWidth 64

/-- `sext_XLEN` of a field or latch of at most `XLEN` bits (R9, R65). -/
def sextX (p : Params) {w : Nat} (v : BitVec w) : XVal := truncX p (v.signExtend 64)

/-- `zext_XLEN` of a memory word (R129). -/
def zextWord (w : Word) : XVal := w.setWidth 64

/-- `trunc_32` of a register value (R130). -/
def truncWord (v : XVal) : Word := v.setWidth 32

/-- Addition modulo `2^XLEN` (R80). -/
def addX (p : Params) (a b : XVal) : XVal := truncX p (a + b)

/-- Subtraction modulo `2^XLEN` (R80). -/
def subX (p : Params) (a b : XVal) : XVal := truncX p (a - b)

/-- The shift of MOVZ and MOVK in bits: `16 * hw` (R57). -/
def shiftAmount (hw : BitVec 2) : Nat := 16 * hw.toNat

/-- `trunc_XLEN( zext(v) << s )` with `s = 16 * hw`, the zero extension wide enough that nothing is
lost before the cut (R78, R124). -/
def shifted16 (p : Params) (v : BitVec 16) (hw : BitVec 2) : XVal :=
  truncX p ((v.setWidth 112 <<< shiftAmount hw).setWidth 64)

/-- The result of MOVZ (R78). -/
def movzValue (p : Params) (imm16 : BitVec 16) (hw : BitVec 2) : XVal := shifted16 p imm16 hw

/-- The result of MOVK over the old value of its destination (R79). -/
def movkValue (p : Params) (old : XVal) (imm16 : BitVec 16) (hw : BitVec 2) : XVal :=
  (old &&& ~~~(shifted16 p 0xFFFF hw)) ||| shifted16 p imm16 hw

/-- `EA = base + sext_XLEN(offset)` modulo `2^XLEN`, a word address (R89). -/
def effectiveAddress (p : Params) (base : XVal) (off9 : BitVec 9) : XVal :=
  addX p base (sextX p off9)

/-- The target of a branch at address `a`, modulo `2^32` (R98). -/
def branchTarget (a : Word) {w : Nat} (off : BitVec w) : Word := a + off.signExtend 32

/-- How Decode builds `signExtendedImmediate`, per format (R65). -/
def immediateLatch (k : Mnemonic) (iw : Word) : Word :=
  match k.format with
  | .im => (fieldImm16 iw).setWidth 32
  | .r => 0
  | .i => (fieldImm12 iw).signExtend 32
  | .d => (fieldOff9 iw).signExtend 32
  | .b => (fieldOff26 iw).signExtend 32
  | .cb => (fieldOff19 iw).signExtend 32

/-- The instruction address of a register carrying `nextPC` (R20). -/
def instrAddrOf (nextPC : Word) : Word := nextPC - 1

end Sys2Proof.Machine
end

