-- ==== Sys2Proof/Machine/Ops.lean ====
section
/-! DEFINITION. The named operations over memory, the Memory Access Unit and the registers; taking a
fatal error at the sequential level; and the shared shapes of the instructions' meanings: write a
destination and go on, load, store, branch. There is no return from a fatal error (60 R146). -/

namespace Sys2Proof.Machine

open Sys2Proof

/-! ### The memory array (20_memory.md) -/

/-- `Mem[a]`. -/
def Memory.read : Memory → Nat → Word
  | [], _ => Memory.unlisted
  | (b, w) :: m, a => if a = b then w else Memory.read m a

/-- `Mem[a] <- w`, keeping the canonical form: a word that gets the content of an unlisted word
leaves the list. -/
def Memory.write : Memory → Nat → Word → Memory
  | [], a, w => if w = Memory.unlisted then [] else [(a, w)]
  | (b, v) :: m, a, w =>
    if a < b then (if w = Memory.unlisted then (b, v) :: m else (a, w) :: (b, v) :: m)
    else if a = b then (if w = Memory.unlisted then m else (a, w) :: m)
    else (b, v) :: Memory.write m a w

/-- Every address of the list is above `lo` or equal to it, strictly rising, with no content that an
unlisted word has. -/
def Memory.wfFrom : Nat → Memory → Bool
  | _, [] => true
  | lo, (a, w) :: m => decide (lo ≤ a) && decide (w ≠ Memory.unlisted) && Memory.wfFrom (a + 1) m

/-- The canonical form of memory. -/
def Memory.wf (m : Memory) : Bool := Memory.wfFrom 0 m

/-- Every listed word exists: its address is below `n` (R24). -/
def Memory.within (n : Nat) (m : Memory) : Bool := m.all fun c => decide (c.1 < n)

/-- The address names a word of memory (R40). -/
def inRange (p : Params) (a : Nat) : Bool := decide (a < p.memWords)

/-! ### The Memory Access Unit (R37) and its two transactions (R38) -/

/-- `MAU.setAddress(a)` -/
def State.setAddress (a : Word) (s : State) : State := { s with mauAddr := a }

/-- `MAU.setData(d)` -/
def State.setData (d : Word) (s : State) : State := { s with mauData := d }

/-- `MAU.read()`: `MAU.data <- Mem[MAU.addr]`; none when the address does not exist (R40). -/
def State.mauRead (s : State) : Option State :=
  if inRange s.params s.mauAddr.toNat then
    some { s with mauData := Memory.read s.mem s.mauAddr.toNat }
  else none

/-- `MAU.write()`: `Mem[MAU.addr] <- MAU.data`; none when the address does not exist (R40). -/
def State.mauWrite (s : State) : Option State :=
  if inRange s.params s.mauAddr.toNat then
    some { s with mem := Memory.write s.mem s.mauAddr.toNat s.mauData }
  else none

/-- `MAU.getData()` -/
def State.getData (s : State) : Word := s.mauData

/-- The read transaction at `a`: `setAddress`, `read`; `getData` is the word read. -/
def State.readTransaction (a : Word) (s : State) : Option State := (s.setAddress a).mauRead

/-- The write transaction of `d` at `a`: `setAddress`, `setData`, `write`. -/
def State.writeTransaction (a d : Word) (s : State) : Option State :=
  ((s.setAddress a).setData d).mauWrite

/-- `MemRead(ea, 1)` of a data access (R41): the address is checked at all `XLEN` bits before it is
staged (R40); none is `MemoryRange`. -/
def State.memRead (ea : XVal) (s : State) : Option State :=
  if inRange s.params ea.toNat then s.readTransaction (truncWord ea) else none

/-- `MemWrite(ea, 1, d)` (R42); none is `MemoryRange`. -/
def State.memWrite (ea : XVal) (d : Word) (s : State) : Option State :=
  if inRange s.params ea.toNat then s.writeTransaction (truncWord ea) d else none

/-! ### The registers (10_state.md R13, R14) -/

/-- `x[i]`; register 31 reads 0. -/
def State.readReg (i : RegIx) (s : State) : XVal :=
  if h : i.toNat < 31 then s.x[i.toNat] else 0

/-- `x[i] <- v`; a write to register 31 changes nothing. -/
def State.writeReg (i : RegIx) (v : XVal) (s : State) : State :=
  if h : i.toNat < 31 then { s with x := s.x.set i.toNat v } else s

/-! ### The sequential level (70_reset_and_hazards.md R156) -/

/-- An instruction retires: the next instruction is at `next`, and what the instruction stored over,
if it was a store, joins the record of the two last instructions (log 7). -/
def State.retire (next : Word) (u : Option StoreUndo) (s : State) : State :=
  { s with pc := next, recentStores := (u :: s.recentStores).take 2 }

/-- An instruction that does not write `pc` and stores nothing retires (R11). -/
def State.advance (s : State) : State := s.retire (s.pc + 1) none

/-- `raise kind(pc)` (R11, R156): TAKING A FATAL ERROR. The record names the instruction's own address;
registers and memory keep their content (R145); the program counter has no meaning any more, so it
holds a free value (U5, log 8). -/
def State.raise (kind : FaultKind) (s : State) : State :=
  { s with
    fault := some { kind := kind, addr := s.pc }
    pc := Config.stoppedPc s.draws
    draws := s.draws + 1 }

/-- An instruction with destination `rd` and result `v`: `IllegalDestination` when `rd` is 31 (R68),
else the write and the next instruction. -/
def State.writeDest (rd : RegIx) (v : XVal) (s : State) : State :=
  if rd = xzr then s.raise .illegalDestination else (s.writeReg rd v).advance

/-- A load (43, loads template): the destination is checked first (R142), then the address; the word
is zero-extended to `XLEN` (R90). -/
def State.load (rt rn : RegIx) (off9 : BitVec 9) (s : State) : State :=
  if rt = xzr then s.raise .illegalDestination
  else
    match s.memRead (effectiveAddress s.params (s.readReg rn) off9) with
    | none => s.raise .memoryRange
    | some t => (t.writeReg rt (zextWord t.getData)).advance

/-- A store (43, stores template): the low 32 bits of `x[rt]` are written (R94). -/
def State.store (rt rn : RegIx) (off9 : BitVec 9) (s : State) : State :=
  let ea := effectiveAddress s.params (s.readReg rn) off9
  match s.memWrite ea (truncWord (s.readReg rt)) with
  | none => s.raise .memoryRange
  | some t =>
    t.retire (t.pc + 1)
      (some { addr := truncWord ea, old := Memory.read s.mem (truncWord ea).toNat })

/-- A branch: to its own address plus the offset when `taken`, else to the next instruction (R98). -/
def State.branch (taken : Bool) {w : Nat} (off : BitVec w) (s : State) : State :=
  s.retire (if taken then branchTarget s.pc off else s.pc + 1) none

/-! ### Pipeline shape -/

/-- All five slots are empty (R27). -/
def State.slotsEmpty (s : State) : Bool :=
  s.fd.isNone && s.din.isNone && s.de.isNone && s.em.isNone && s.mw.isNone

/-- Halted (R144): a fault is recorded and all five slots are empty. -/
def State.halted (s : State) : Bool := s.fault.isSome && s.slotsEmpty

end Sys2Proof.Machine
end

