-- ==== Sys2Proof/Machine/ArithImmediate.lean ====
section
/-! DEFINITION. ADDI, ADDIS, SUBI, SUBIS (42_arith_immediate.md). The 12-bit immediate is signed
(R65); there are no flags (R86, R88). -/

namespace Sys2Proof.Machine

open Sys2Proof

/-- ADDI (R85). -/
def execAddi (rd rn : RegIx) (imm12 : BitVec 12) (s : State) : Result :=
  .next (s.writeDest rd (addX s.params (s.readReg rn) (sextX s.params imm12)))

/-- ADDIS (R86). -/
def execAddis (rd rn : RegIx) (imm12 : BitVec 12) (s : State) : Result :=
  .next (s.writeDest rd (addX s.params (s.readReg rn) (sextX s.params imm12)))

/-- SUBI (R87). -/
def execSubi (rd rn : RegIx) (imm12 : BitVec 12) (s : State) : Result :=
  .next (s.writeDest rd (subX s.params (s.readReg rn) (sextX s.params imm12)))

/-- SUBIS (R88). -/
def execSubis (rd rn : RegIx) (imm12 : BitVec 12) (s : State) : Result :=
  .next (s.writeDest rd (subX s.params (s.readReg rn) (sextX s.params imm12)))

end Sys2Proof.Machine
end

