-- ==== Sys2Proof/Machine/ArithRegister.lean ====
section
/-! DEFINITION. ADD, ADDS, SUB, SUBS (41_arith_register.md). The core has no flags, so the
flag-setting forms write their destination and nothing else (R82, R84, 10 R21). -/

namespace Sys2Proof.Machine

open Sys2Proof

/-- ADD (R81). -/
def execAdd (rd rn rm : RegIx) (s : State) : Result :=
  .next (s.writeDest rd (addX s.params (s.readReg rn) (s.readReg rm)))

/-- ADDS (R82). -/
def execAdds (rd rn rm : RegIx) (s : State) : Result :=
  .next (s.writeDest rd (addX s.params (s.readReg rn) (s.readReg rm)))

/-- SUB (R83): `x[n] - x[m]`. -/
def execSub (rd rn rm : RegIx) (s : State) : Result :=
  .next (s.writeDest rd (subX s.params (s.readReg rn) (s.readReg rm)))

/-- SUBS (R84). -/
def execSubs (rd rn rm : RegIx) (s : State) : Result :=
  .next (s.writeDest rd (subX s.params (s.readReg rn) (s.readReg rm)))

end Sys2Proof.Machine
end

