-- ==== Sys2Proof/Machine/Branch.lean ====
section
/-! DEFINITION. B, CBZ, CBNZ (44_branch.md). A target outside memory is no error of the branch: the
fetch at it is (R98). -/

namespace Sys2Proof.Machine

open Sys2Proof

/-- B (R100). -/
def execB (off26 : BitVec 26) (s : State) : Result := .next (s.branch true off26)

/-- CBZ (R101): taken when all `XLEN` bits of `x[t]` are 0. -/
def execCbz (rt : RegIx) (off19 : BitVec 19) (s : State) : Result :=
  .next (s.branch (decide (s.readReg rt = 0)) off19)

/-- CBNZ (R102). -/
def execCbnz (rt : RegIx) (off19 : BitVec 19) (s : State) : Result :=
  .next (s.branch (decide (s.readReg rt ≠ 0)) off19)

end Sys2Proof.Machine
end

