-- ==== Sys2Proof/Machine/LoadStore.lean ====
section
/-! DEFINITION. The four loads and the four stores (43_load_store.md). Every load moves one whole
memory word and every store one whole word, whatever its size name (20_memory.md R45). -/

namespace Sys2Proof.Machine

open Sys2Proof

/-- LDUR (R90). -/
def execLdur (rt rn : RegIx) (off9 : BitVec 9) (s : State) : Result := .next (s.load rt rn off9)

/-- LDURB (R91): the whole word, not 8 bits of it. -/
def execLdurb (rt rn : RegIx) (off9 : BitVec 9) (s : State) : Result := .next (s.load rt rn off9)

/-- LDURH (R92): the whole word, not 16 bits of it. -/
def execLdurh (rt rn : RegIx) (off9 : BitVec 9) (s : State) : Result := .next (s.load rt rn off9)

/-- LDURSW (R93): zero-extended like the others. -/
def execLdursw (rt rn : RegIx) (off9 : BitVec 9) (s : State) : Result := .next (s.load rt rn off9)

/-- STUR (R94). -/
def execStur (rt rn : RegIx) (off9 : BitVec 9) (s : State) : Result := .next (s.store rt rn off9)

/-- STURB (R95): the whole word. -/
def execSturb (rt rn : RegIx) (off9 : BitVec 9) (s : State) : Result := .next (s.store rt rn off9)

/-- STURH (R96): the whole word. -/
def execSturh (rt rn : RegIx) (off9 : BitVec 9) (s : State) : Result := .next (s.store rt rn off9)

/-- STURW (R97). -/
def execSturw (rt rn : RegIx) (off9 : BitVec 9) (s : State) : Result := .next (s.store rt rn off9)

end Sys2Proof.Machine
end

