-- ==== Sys2Proof/Machine/MoveWide.lean ====
section
/-! DEFINITION. MOVZ and MOVK (40_move_wide.md). -/

namespace Sys2Proof.Machine

open Sys2Proof

/-- MOVZ, move wide with zero (R78). -/
def execMovz (rd : RegIx) (imm16 : BitVec 16) (hw : BitVec 2) (s : State) : Result :=
  .next (s.writeDest rd (movzValue s.params imm16 hw))

/-- MOVK, move wide with keep (R79): the destination is also the source. -/
def execMovk (rd : RegIx) (imm16 : BitVec 16) (hw : BitVec 2) (s : State) : Result :=
  .next (s.writeDest rd (movkValue s.params (s.readReg rd) imm16 hw))

end Sys2Proof.Machine
end

