-- ==== Sys2Proof/Machine/Dispatch.lean ====
section
/-! DEFINITION. The meaning of each instruction, one arm per constructor. -/

namespace Sys2Proof.Machine

open Sys2Proof

def exec (i : Instr) (s : State) : Host.Outcome State Fault Refusal :=
  match i with
  | .b off => Sys2Proof.Machine.execB off s
  | .sturb rt rn off => Sys2Proof.Machine.execSturb rt rn off s
  | .ldurb rt rn off => Sys2Proof.Machine.execLdurb rt rn off s
  | .sturh rt rn off => Sys2Proof.Machine.execSturh rt rn off s
  | .ldurh rt rn off => Sys2Proof.Machine.execLdurh rt rn off s
  | .add rd rn rm => Sys2Proof.Machine.execAdd rd rn rm s
  | .addi rd rn imm => Sys2Proof.Machine.execAddi rd rn imm s
  | .adds rd rn rm => Sys2Proof.Machine.execAdds rd rn rm s
  | .addis rd rn imm => Sys2Proof.Machine.execAddis rd rn imm s
  | .cbz rt off => Sys2Proof.Machine.execCbz rt off s
  | .cbnz rt off => Sys2Proof.Machine.execCbnz rt off s
  | .sturw rt rn off => Sys2Proof.Machine.execSturw rt rn off s
  | .ldursw rt rn off => Sys2Proof.Machine.execLdursw rt rn off s
  | .sub rd rn rm => Sys2Proof.Machine.execSub rd rn rm s
  | .subi rd rn imm => Sys2Proof.Machine.execSubi rd rn imm s
  | .movz rd imm hw => Sys2Proof.Machine.execMovz rd imm hw s
  | .subs rd rn rm => Sys2Proof.Machine.execSubs rd rn rm s
  | .subis rd rn imm => Sys2Proof.Machine.execSubis rd rn imm s
  | .movk rd imm hw => Sys2Proof.Machine.execMovk rd imm hw s
  | .stur rt rn off => Sys2Proof.Machine.execStur rt rn off s
  | .ldur rt rn off => Sys2Proof.Machine.execLdur rt rn off s

end Sys2Proof.Machine
end

