-- ==== Sys2Proof/Machine/InstrStep.lean ====
section
/-! DEFINITION. One step of the sequential level (70_reset_and_hazards.md R156): fetch the word at the
program counter, decode it, run its meaning. Fetch runs ahead of Memory-Access, so the word may be
the one from before a store of one of the two preceding instructions (20_memory.md R52, log 7). -/

namespace Sys2Proof.Machine

open Sys2Proof

/-- The content of word `a` if the fetch has overtaken the `n` newest of the recorded instructions:
`w` with their stores to `a` undone, the newest first. -/
def undoStores : Nat → List (Option StoreUndo) → Word → Word → Word
  | 0, _, _, w => w
  | _ + 1, [], _, w => w
  | n + 1, none :: us, a, w => undoStores n us a w
  | n + 1, some u :: us, a, w => undoStores n us a (if u.addr = a then u.old else w)

/-- Neither of the two last instructions stored to word `a`, so the word fetched from it is certain
(R52). -/
def State.settledAt (a : Word) (s : State) : Bool :=
  s.recentStores.all fun
    | none => true
    | some u => decide (u.addr ≠ a)

/-- The word a fetch that has overtaken `lag` instructions reads at the program counter. -/
def State.wordWithLag (lag : Nat) (s : State) : Word :=
  undoStores lag s.recentStores s.pc (Memory.read s.mem s.pc.toNat)

/-- The word fetched at the program counter: certain when settled, else with a free lag of 0 to 2. -/
def State.fetchedWord (s : State) : Word :=
  if s.settledAt s.pc then Memory.read s.mem s.pc.toNat
  else s.wordWithLag (Config.fetchLag s.draws % 3)

/-- The state after the read transaction of the fetch (R38): the latches hold the address and the
word. A free lag counts as a draw. -/
def State.afterFetch (s : State) : State :=
  { s with
    mauAddr := s.pc
    mauData := s.fetchedWord
    draws := if s.settledAt s.pc then s.draws else s.draws + 1 }

/-- One instruction of the sequential level (R156), from a state with no fault recorded. -/
def State.instrStep (s : State) : Result :=
  if inRange s.params s.pc.toNat then
    match decode s.fetchedWord with
    | .ok i => exec i s.afterFetch
    | .error _ => .next (s.afterFetch.raise .unknownOpcode)
  else .next (s.raise .memoryRange)

/-- The state `s` with the word `w` at the program counter and everything the fetch of that very word
needs: an existing address (0 if the program counter names none), nothing in flight, no fault
recorded, and no recent store that the fetch could overtake. -/
def State.placeWord (w : Word) (s : State) : State :=
  let a := if inRange s.params s.pc.toNat then s.pc else 0
  { s with
    pc := a
    mem := Memory.write s.mem a.toNat w
    ht := []
    fd := none
    din := none
    de := none
    em := none
    mw := none
    branchPending := false
    fault := none
    recentStores := [] }

end Sys2Proof.Machine
end

