-- ==== Sys2Proof/Machine/HazardTracker.lean ====
section
/-! DEFINITION. The Hazard Tracker (46_decode_stage.md R117): a list of register indices, the oldest
entry first. -/

namespace Sys2Proof.Machine

open Sys2Proof

/-- `HT.enqueue(r)`: append at the young end. -/
def htEnqueue (r : RegIx) (ht : List RegIx) : List RegIx := ht ++ [r]

/-- `HT.contains(r)` -/
def htContains (r : RegIx) (ht : List RegIx) : Bool := ht.contains r

/-- `HT.release(r)`: remove the oldest entry equal to `r`; none when there is no such entry, which
R119 excludes (U7, log 10). -/
def htRelease (r : RegIx) : List RegIx → Option (List RegIx)
  | [] => none
  | q :: qs => if q = r then some qs else (htRelease r qs).map (q :: ·)

/-- Remove the `n` youngest entries (the stop procedure, R143). -/
def htDropYoungest (n : Nat) (ht : List RegIx) : List RegIx := ht.take (ht.length - n)

end Sys2Proof.Machine
end

