-- ==== Sys2Proof/Machine/Stop.lean ====
section
/-! DEFINITION. The stop procedure of the pipeline (60_exceptions.md R143), the core's only response to
a fatal error, in its two forms. -/

namespace Sys2Proof.Machine

open Sys2Proof

/-- `stop(kind, a)` called by Decode: the record, and the faulting instruction and whatever Fetch read
after it discarded. -/
def State.stopByDecode (kind : FaultKind) (a : Word) (s : State) : State :=
  { s with fault := some { kind := kind, addr := a }, din := none, fd := none }

/-- How many tracker entries belong to the discarded instructions in EM and DE. -/
def discardedLocks (e : ExecuteMemory) (de : Option DecodeExecute) : Nat :=
  (if e.destinationLockAdded then 1 else 0) +
  (match de with
   | some m => if m.destinationLockAdded then 1 else 0
   | none => 0)

/-- `stop(MemoryRange, a)` called by Memory-Access with `e = EM`: the record, which replaces one made
by Decode for a younger instruction (R142), and the faulting and all younger instructions discarded
with their tracker entries. -/
def State.stopByMemory (e : ExecuteMemory) (s : State) : State :=
  { s with
    fault := some { kind := .memoryRange, addr := e.instrAddr }
    ht := htDropYoungest (discardedLocks e s.de) s.ht
    em := none
    de := none
    din := none
    fd := none
    branchPending := false }

end Sys2Proof.Machine
end

