-- ==== Sys2Proof/Machine/DecodeStage.lean ====
section
/-! DEFINITION. The Decode stage (46_decode_stage.md): steps DEC_ACCEPT and DEC_ISSUE. -/

namespace Sys2Proof.Machine

open Sys2Proof

/-- Step DEC_ACCEPT (R111): from FD to DIN, with DE empty, no branch pending and no fault recorded. -/
def decAcceptStep (s : State) : Option State :=
  match s.fd with
  | none => none
  | some r =>
    if s.din.isNone && s.de.isNone && !s.branchPending && s.fault.isNone then
      some { s with din := some r, fd := none }
    else none

/-- The register fields that are sources of mnemonic `k` (R66), register 31 among them. -/
def sourceFields (k : Mnemonic) (iw : Word) : List RegIx :=
  match k with
  | .movz | .b => []
  | .movk => [fieldRd iw]
  | .add | .adds | .sub | .subs => [fieldRn iw, fieldRm iw]
  | .addi | .addis | .subi | .subis => [fieldRn iw]
  | .ldur | .ldurb | .ldurh | .ldursw => [fieldRn iw]
  | .stur | .sturb | .sturh | .sturw => [fieldRn iw, fieldRd iw]
  | .cbz | .cbnz => [fieldRd iw]

/-- `sources(iw)` (R113): the source registers other than 31. -/
def sources (k : Mnemonic) (iw : Word) : List RegIx :=
  (sourceFields k iw).filter fun r => decide (r ≠ xzr)

/-- `faulting(r)` with the kind that R114 reports: the first of fetch out of range, unknown opcode,
illegal destination. -/
def decodeFault (r : FetchDecode) : Option FaultKind :=
  if r.fetchFault then some .memoryRange
  else
    match classify r.instructionWord with
    | none => some .unknownOpcode
    | some k =>
      if k.hasDest ∧ fieldRd r.instructionWord = xzr then some .illegalDestination else none

/-- `(op1, op2)` of R115, by the register-file read `rf` (R66). -/
def operandValues (rf : RegIx → XVal) (k : Mnemonic) (iw : Word) : XVal × XVal :=
  match k with
  | .movz | .b => (0, 0)
  | .movk => (rf (fieldRd iw), 0)
  | .add | .adds | .sub | .subs => (rf (fieldRn iw), rf (fieldRm iw))
  | .addi | .addis | .subi | .subis => (rf (fieldRn iw), 0)
  | .ldur | .ldurb | .ldurh | .ldursw => (rf (fieldRn iw), 0)
  | .stur | .sturb | .sturh | .sturw => (rf (fieldRn iw), rf (fieldRd iw))
  | .cbz | .cbnz => (0, rf (fieldRd iw))

/-- The micro-op of an instruction of mnemonic `k` (R115). -/
def microOp (rf : RegIx → XVal) (k : Mnemonic) (r : FetchDecode) : DecodeExecute where
  instructionWord := r.instructionWord
  nextPC := r.nextPC
  operand1Value := (operandValues rf k r.instructionWord).1
  operand2Value := (operandValues rf k r.instructionWord).2
  signExtendedImmediate := immediateLatch k r.instructionWord
  destinationLockAdded := k.hasDest

/-- The effect of DEC_ISSUE when nothing is wrong and every source is free (R115). -/
def State.issue (k : Mnemonic) (r : FetchDecode) (s : State) : State :=
  { s with
    ht := if k.hasDest then htEnqueue (fieldRd r.instructionWord) s.ht else s.ht
    branchPending := if k.isBranch then true else s.branchPending
    de := some (microOp (fun i => s.readReg i) k r)
    din := none }

/-- Step DEC_ISSUE: a fatal error does not wait for hazards (R114); else the step is enabled when no
source is in the tracker (R113). -/
def decIssueStep (s : State) : Option State :=
  match s.din with
  | none => none
  | some r =>
    match decodeFault r, classify r.instructionWord with
    | some kind, _ => some (s.stopByDecode kind (instrAddrOf r.nextPC))
    | none, some k =>
      if (sources k r.instructionWord).any fun q => htContains q s.ht then none
      else some (s.issue k r)
    | none, none => none

end Sys2Proof.Machine
end

