-- ==== Sys2Proof/Machine/ExecuteStage.lean ====
section
/-! DEFINITION. The Execute stage (47_execute_stage.md): step EXECUTE. Execute receives the raw word
and classifies it again (R64); it works on the fields of the micro-op, not on registers. -/

namespace Sys2Proof.Machine

open Sys2Proof

/-- `result` of R124, from the micro-op `m` of mnemonic `k`. MOVZ and MOVK use the low 16 bits of the
immediate latch and take the shift from the word. -/
def executeResult (p : Params) (k : Mnemonic) (m : DecodeExecute) : XVal :=
  let imm16 := m.signExtendedImmediate.setWidth 16
  let hw := fieldHw m.instructionWord
  let immX := sextX p m.signExtendedImmediate
  match k with
  | .movz => movzValue p imm16 hw
  | .movk => movkValue p m.operand1Value imm16 hw
  | .add | .adds => addX p m.operand1Value m.operand2Value
  | .sub | .subs => subX p m.operand1Value m.operand2Value
  | .addi | .addis => addX p m.operand1Value immX
  | .subi | .subis => subX p m.operand1Value immX
  | .ldur | .ldurb | .ldurh | .ldursw => addX p m.operand1Value immX
  | .stur | .sturb | .sturh | .sturw => addX p m.operand1Value immX
  | .b | .cbz | .cbnz => 0

/-- `taken` of R125; false for an instruction that is no branch. -/
def branchTaken (k : Mnemonic) (m : DecodeExecute) : Bool :=
  match k with
  | .b => true
  | .cbz => decide (m.operand2Value = 0)
  | .cbnz => decide (m.operand2Value ≠ 0)
  | _ => false

/-- `target` of R125. -/
def microOpTarget (m : DecodeExecute) : Word := instrAddrOf m.nextPC + m.signExtendedImmediate

/-- The Execute-to-Memory register of R123. -/
def executed (p : Params) (k : Mnemonic) (m : DecodeExecute) : ExecuteMemory where
  destinationRegister := fieldRd m.instructionWord
  aluOrAddressResult := executeResult p k m
  storeData := if k.isStore then m.operand2Value else 0
  isMemoryOp := k.isLoad || k.isStore
  branchTargetIfTaken := if branchTaken k m then some (microOpTarget m) else none
  destinationLockAdded := m.destinationLockAdded
  instrAddr := instrAddrOf m.nextPC

/-- What the step does in addition for a branch (R125): a taken branch writes PC and empties FD; taken
or not, the fence is cleared. -/
def State.resolveBranch (k : Mnemonic) (m : DecodeExecute) (s : State) : State :=
  if k.isBranch then
    { s with
      pc := if branchTaken k m then microOpTarget m else s.pc
      fd := if branchTaken k m then none else s.fd
      branchPending := false }
  else s

/-- Step EXECUTE (R123): DE full, EM empty. Every word that reaches Execute has a known opcode (R122);
for one that has none the step is not enabled. -/
def executeStep (s : State) : Option State :=
  match s.de with
  | none => none
  | some m =>
    if s.em.isNone then
      (classify m.instructionWord).map fun k =>
        { s.resolveBranch k m with em := some (executed s.params k m), de := none }
    else none

end Sys2Proof.Machine
end

