-- ==== Sys2Proof/Machine/FetchStage.lean ====
section
/-! DEFINITION. The Fetch stage (45_fetch_stage.md): step FETCH. -/

namespace Sys2Proof.Machine

open Sys2Proof

/-- The guard of FETCH (R104): FD empty and no fault recorded. -/
def State.fetchReady (s : State) : Bool := s.fd.isNone && s.fault.isNone

/-- Step FETCH: inside memory a read transaction, the increment and the register (R104); outside, the
increment and a poisoned register, without a transaction (R105). -/
def fetchStep (s : State) : Option State :=
  if s.fetchReady then
    if inRange s.params s.pc.toNat then
      (s.readTransaction s.pc).map fun t =>
        { t with
          pc := s.pc + 1
          fd := some { instructionWord := t.getData, nextPC := s.pc + 1, fetchFault := false } }
    else
      some { s with
        pc := s.pc + 1
        fd := some { instructionWord := 0, nextPC := s.pc + 1, fetchFault := true } }
  else none

end Sys2Proof.Machine
end

