-- ==== Sys2Proof/Machine/MemoryStage.lean ====
section
/-! DEFINITION. The Memory-Access stage (48_memory_access_stage.md): step MEMORY. -/

namespace Sys2Proof.Machine

open Sys2Proof

/-- The load branch of MEMORY (R129): the loaded word replaces the address. -/
def memoryLoad (e : ExecuteMemory) (s : State) : Option State :=
  (s.readTransaction (truncWord e.aluOrAddressResult)).map fun t =>
    { t with mw := some { e with aluOrAddressResult := zextWord t.getData }, em := none }

/-- The store branch of MEMORY (R130). -/
def memoryStore (e : ExecuteMemory) (s : State) : Option State :=
  (s.writeTransaction (truncWord e.aluOrAddressResult) (truncWord e.storeData)).map fun t =>
    { t with mw := some e, em := none }

/-- Step MEMORY (R128): EM full, MW empty. What is no memory operation passes through (R131); an
address outside memory stops the core (R132). -/
def memoryStep (s : State) : Option State :=
  match s.em with
  | none => none
  | some e =>
    if s.mw.isNone then
      if e.isMemoryOp then
        if inRange s.params e.aluOrAddressResult.toNat then
          if e.destinationLockAdded then memoryLoad e s else memoryStore e s
        else some (s.stopByMemory e)
      else some { s with mw := some e, em := none }
    else none

end Sys2Proof.Machine
end

