-- ==== Sys2Proof/Machine/WritebackStage.lean ====
section
/-! DEFINITION. The Writeback stage (49_writeback_stage.md): step WRITEBACK. -/

namespace Sys2Proof.Machine

open Sys2Proof

/-- Step WRITEBACK (R134): MW full. With the lock flag the result is committed, a write to register 31
being discarded (R135), and the lock released (R136); the guard does not mention the fault record. -/
def writebackStep (s : State) : Option State :=
  match s.mw with
  | none => none
  | some w =>
    if w.destinationLockAdded then
      (htRelease w.destinationRegister s.ht).map fun ht =>
        { s.writeReg w.destinationRegister w.aluOrAddressResult with ht := ht, mw := none }
    else some { s with mw := none }

end Sys2Proof.Machine
end

