-- ==== Sys2Proof/Machine/Pipeline.lean ====
section
/-! DEFINITION. The pipeline (70_reset_and_hazards.md R157): six kinds of atomic step, taken in any
order a scheduler picks. The schedule is an argument of a run (10_state.md R34, U3). -/

namespace Sys2Proof.Machine

open Sys2Proof

/-- The six steps (R157). -/
inductive PipeStep where
  | fetch
  | decAccept
  | decIssue
  | execute
  | memory
  | writeback
deriving DecidableEq, Repr

/-- One step of the pipeline; none when the step is not enabled (R12). -/
def pipeStep : PipeStep → State → Option State
  | .fetch, s => fetchStep s
  | .decAccept, s => decAcceptStep s
  | .decIssue, s => decIssueStep s
  | .execute, s => executeStep s
  | .memory, s => memoryStep s
  | .writeback, s => writebackStep s

/-- The step is enabled (R12). -/
def State.enabled (k : PipeStep) (s : State) : Bool := (pipeStep k s).isSome

/-- A run of the pipeline under a schedule; none when the schedule takes a step that is not enabled. -/
def pipeRun : List PipeStep → State → Option State
  | [], s => some s
  | k :: ks, s =>
    match pipeStep k s with
    | some t => pipeRun ks t
    | none => none

/-- The steps of one instruction in the order in which it takes them (R167). -/
def instructionSteps : List PipeStep :=
  [.fetch, .decAccept, .decIssue, .execute, .memory, .writeback]

/-- The six steps, the step of the oldest stage first. -/
def oldestFirst : List PipeStep :=
  [.writeback, .memory, .execute, .decIssue, .decAccept, .fetch]

/-- The first enabled step of a list of steps, taken. -/
def firstEnabled : List PipeStep → State → Option State
  | [], _ => none
  | k :: ks, s =>
    match pipeStep k s with
    | some t => some t
    | none => firstEnabled ks s

/-- The step is taken if it is enabled. -/
def State.tryStep (k : PipeStep) (s : State) : State := (pipeStep k s).getD s

end Sys2Proof.Machine
end

