-- ==== Sys2Proof/Machine/Step.lean ====
section
/-! DEFINITION. The step of the host's core (log 1). With nothing in flight it is one instruction of
the sequential level (R156), or the halt (R144). With something in flight it is one step of the
pipeline, the step of the oldest stage that is enabled; a run from reset never comes to that case. -/

namespace Sys2Proof.Machine

open Sys2Proof

def step (s : State) : Host.Outcome State Fault Refusal :=
  if s.slotsEmpty then
    match s.fault with
    | none => s.instrStep
    | some f => .fault (.halted f.kind f.addr)
  else
    match firstEnabled oldestFirst s with
    | some t => .next t
    | none => .fault .stuck

/-- The host's placement of one instruction where `step` fetches next (log 5): the bits of `w` from
`nbits` on are 0, and an instruction is one word. -/
def State.withFetchWord (s : State) (nbits w : Nat) : State :=
  s.placeWord (BitVec.ofNat 32 (w % 2 ^ nbits))

end Sys2Proof.Machine
end

