-- ==== Sys2Proof/Machine/Assembler.lean ====
section
/-! DEFINITION. The assembler at its boundary (30_encoding.md R70 to R77): which lines of text it
accepts and which words it emits. A line is a list of characters. Files, command line and the wording
of diagnostics are out of scope (00_scope.md R6); what the spec does not say the assembler accepts is
refused (U12, log 12). -/

namespace Sys2Proof.Machine

open Sys2Proof

/-- The base an immediate is written in; a range error cites the legal range in it (R73). -/
inductive NumBase where
  | dec
  | hex
deriving DecidableEq, Repr

/-- What is out of its range in a RangeError (R74). -/
inductive RangeOf where
  | immediate (base : NumBase)
  | shift
  | register
deriving DecidableEq, Repr

/-- The assembly-time errors (R74). -/
inductive AsmError where
  /-- malformed line, wrong operand count, unparseable token -/
  | syntaxError
  /-- an immediate, shift or register index outside its bit width -/
  | rangeError (what : RangeOf)
  /-- a shift that is numeric and no multiple of 16; the spec does not name its kind (U16) -/
  | badShift
  /-- register 31 as a destination -/
  | illegalDestination
  /-- a mnemonic that is not one of the 21 -/
  | unknownOpcode
deriving DecidableEq, Repr

/-- Text, character by character. -/
abbrev Text := List Char

/-- The value of a decimal digit. -/
def decDigit (c : Char) : Option Nat :=
  if 48 ≤ c.toNat ∧ c.toNat ≤ 57 then some (c.toNat - 48) else none

/-- The value of a hexadecimal digit. -/
def hexDigit (c : Char) : Option Nat :=
  if 48 ≤ c.toNat ∧ c.toNat ≤ 57 then some (c.toNat - 48)
  else if 65 ≤ c.toNat ∧ c.toNat ≤ 70 then some (c.toNat - 55)
  else if 97 ≤ c.toNat ∧ c.toNat ≤ 102 then some (c.toNat - 87)
  else none

/-- The number that the digits of `t` write after `acc`, in base `b`; none at a character that is no
digit. -/
def digitsFrom (digit : Char → Option Nat) (b : Nat) : Nat → Text → Option Nat
  | acc, [] => some acc
  | acc, c :: cs =>
    match digit c with
    | some d => digitsFrom digit b (acc * b + d) cs
    | none => none

/-- The number written by a non-empty text of digits. -/
def number (digit : Char → Option Nat) (b : Nat) (t : Text) : Option Nat :=
  if t.isEmpty then none else digitsFrom digit b 0 t

/-- A decimal number. -/
def decimal (t : Text) : Option Nat := number decDigit 10 t

/-- A hexadecimal number. -/
def hexadecimal (t : Text) : Option Nat := number hexDigit 16 t

/-- A register (R71): `X<N>` with `N` from 0 to 30, or `XZR`; `X31` is refused. -/
def parseReg (t : Text) : Except AsmError RegIx :=
  match t with
  | ['X', 'Z', 'R'] => .ok xzr
  | 'X' :: ds =>
    match decimal ds with
    | some n => if n ≤ 30 then .ok (BitVec.ofNat 5 n) else .error (.rangeError .register)
    | none => .error .syntaxError
  | _ => .error .syntaxError

/-- A destination register (R73): 31, as `XZR` or as a decimal number of value 31, is fatal. That a
number may have leading zeros, so that `X031` is 31 too, is a DESIGN CHOICE (log 12). -/
def parseDest (t : Text) : Except AsmError RegIx :=
  match t with
  | ['X', 'Z', 'R'] => .error .illegalDestination
  | 'X' :: ds => if decimal ds = some 31 then .error .illegalDestination else parseReg t
  | _ => parseReg t

/-- An immediate with the base it is written in (R71): `#0x<hex>` or `#<decimal>`; a leading `-` in
decimal only, and only where the field is signed. -/
def parseNumber (signed : Bool) (t : Text) : Except AsmError (Int × NumBase) :=
  match t with
  | '#' :: '0' :: 'x' :: ds =>
    match hexadecimal ds with
    | some n => .ok (n, .hex)
    | none => .error .syntaxError
  | '#' :: '-' :: ds =>
    match signed, decimal ds with
    | true, some n => .ok (-(n : Int), .dec)
    | _, _ => .error .syntaxError
  | '#' :: ds =>
    match decimal ds with
    | some n => .ok (n, .dec)
    | none => .error .syntaxError
  | _ => .error .syntaxError

/-- An immediate whose legal values are `lo` to `hi` (R72), as a field of `w` bits. -/
def parseImm (lo hi : Int) (w : Nat) (t : Text) : Except AsmError (BitVec w) :=
  match parseNumber (decide (lo < 0)) t with
  | .ok (v, base) =>
    if lo ≤ v ∧ v ≤ hi then .ok (BitVec.ofInt w v) else .error (.rangeError (.immediate base))
  | .error e => .error e

/-- A signed field of `w + 1` bits: the range of two's complement (R72). It is read as R71 reads every
immediate, in decimal or in hexadecimal; that a branch offset may be hexadecimal too, where D20 says
`#<decimal>`, is a DESIGN CHOICE (log 12). -/
def parseSigned (w : Nat) (t : Text) : Except AsmError (BitVec (w + 1)) :=
  parseImm (-(2 ^ w : Nat)) ((2 ^ w : Nat) - 1) (w + 1) t

/-- The shift operand `LSL #<shift>` (R73), as `shift / 16`. -/
def parseShift (t : Text) : Except AsmError (BitVec 2) :=
  match t with
  | 'L' :: 'S' :: 'L' :: ' ' :: '#' :: ds =>
    match decimal ds with
    | some n =>
      if n % 16 ≠ 0 then .error .badShift
      else if 48 < n then .error (.rangeError .shift)
      else .ok (BitVec.ofNat 2 (n / 16))
    | none => .error .syntaxError
  | _ => .error .syntaxError

/-- The text without a `]` at its end. -/
def dropBracket : Text → Option Text
  | [] => none
  | [']'] => some []
  | c :: cs => (dropBracket cs).map (c :: ·)

/-- Operands of MOVZ and MOVK: `Xd, #imm, LSL #sh` (R72). -/
def asmIM (mk : RegIx → BitVec 16 → BitVec 2 → Instr) (ops : List Text) : Except AsmError Instr :=
  match ops with
  | [d, i, sh] => do
    let rd ← parseDest d
    let imm ← parseImm 0 65535 16 i
    let hw ← parseShift sh
    return mk rd imm hw
  | _ => .error .syntaxError

/-- Operands of format R: `Xd, Xn, Xm` (R72). -/
def asmR (mk : RegIx → RegIx → RegIx → Instr) (ops : List Text) : Except AsmError Instr :=
  match ops with
  | [d, n, m] => do
    let rd ← parseDest d
    let rn ← parseReg n
    let rm ← parseReg m
    return mk rd rn rm
  | _ => .error .syntaxError

/-- Operands of format I: `Xd, Xn, #imm` (R72). -/
def asmI (mk : RegIx → RegIx → BitVec 12 → Instr) (ops : List Text) : Except AsmError Instr :=
  match ops with
  | [d, n, i] => do
    let rd ← parseDest d
    let rn ← parseReg n
    let imm ← parseSigned 11 i
    return mk rd rn imm
  | _ => .error .syntaxError

/-- Operands of format D: `Xt, [Xn, #off]` (R72), with `reg` reading `Xt`: a destination in a load, a
source in a store. The comma inside the brackets separates like any other. -/
def asmD (reg : Text → Except AsmError RegIx) (mk : RegIx → RegIx → BitVec 9 → Instr)
    (ops : List Text) : Except AsmError Instr :=
  match ops with
  | [r, '[' :: n, o] =>
    match dropBracket o with
    | some off => do
      let rt ← reg r
      let rn ← parseReg n
      let off9 ← parseSigned 8 off
      return mk rt rn off9
    | none => .error .syntaxError
  | _ => .error .syntaxError

/-- The operand of B: `#off` (R72). -/
def asmB (ops : List Text) : Except AsmError Instr :=
  match ops with
  | [o] => do
    let off ← parseSigned 25 o
    return .b off
  | _ => .error .syntaxError

/-- Operands of CBZ and CBNZ: `Xt, #off` (R72). -/
def asmCB (mk : RegIx → BitVec 19 → Instr) (ops : List Text) : Except AsmError Instr :=
  match ops with
  | [r, o] => do
    let rt ← parseReg r
    let off ← parseSigned 18 o
    return mk rt off
  | _ => .error .syntaxError

/-- The assembly form of each mnemonic (R72). -/
def asmOperands (k : Mnemonic) (ops : List Text) : Except AsmError Instr :=
  match k with
  | .movz => asmIM .movz ops
  | .movk => asmIM .movk ops
  | .add => asmR .add ops
  | .adds => asmR .adds ops
  | .sub => asmR .sub ops
  | .subs => asmR .subs ops
  | .addi => asmI .addi ops
  | .addis => asmI .addis ops
  | .subi => asmI .subi ops
  | .subis => asmI .subis ops
  | .ldur => asmD parseDest .ldur ops
  | .ldurb => asmD parseDest .ldurb ops
  | .ldurh => asmD parseDest .ldurh ops
  | .ldursw => asmD parseDest .ldursw ops
  | .stur => asmD parseReg .stur ops
  | .sturb => asmD parseReg .sturb ops
  | .sturh => asmD parseReg .sturh ops
  | .sturw => asmD parseReg .sturw ops
  | .b => asmB ops
  | .cbz => asmCB .cbz ops
  | .cbnz => asmCB .cbnz ops

/-- The spelling of each mnemonic (R63). -/
def mnemonicName : Mnemonic → String
  | .b => "B"
  | .sturb => "STURB"
  | .ldurb => "LDURB"
  | .sturh => "STURH"
  | .ldurh => "LDURH"
  | .add => "ADD"
  | .addi => "ADDI"
  | .adds => "ADDS"
  | .addis => "ADDIS"
  | .cbz => "CBZ"
  | .cbnz => "CBNZ"
  | .sturw => "STURW"
  | .ldursw => "LDURSW"
  | .sub => "SUB"
  | .subi => "SUBI"
  | .movz => "MOVZ"
  | .subs => "SUBS"
  | .subis => "SUBIS"
  | .movk => "MOVK"
  | .stur => "STUR"
  | .ldur => "LDUR"

/-- The mnemonics of a list of rows, looked up by spelling. -/
def findName : List OpcodeRow → Text → Option Mnemonic
  | [], _ => none
  | r :: rs, t => if (mnemonicName r.mnemonic).toList = t then some r.mnemonic else findName rs t

/-- The text before the first space and the text after it; none when there is no space. -/
def splitSpace : Text → Option (Text × Text)
  | [] => none
  | ' ' :: cs => some ([], cs)
  | c :: cs => (splitSpace cs).map fun p => (c :: p.1, p.2)

/-- The operands of a line, separated by a comma and a space (R70). -/
def splitOperands : Text → List Text
  | [] => [[]]
  | ',' :: ' ' :: cs => [] :: splitOperands cs
  | c :: cs =>
    match splitOperands cs with
    | [] => [[c]]
    | o :: os => (c :: o) :: os

/-- The error of a line whose mnemonic `name` is none of the 21: an unknown opcode (R74). An empty `name`
is a line with no mnemonic: an empty one, or one that begins with a space or holds only spaces. Such a
line is refused (U12); that its error is a syntax error is a DESIGN CHOICE (log 12). -/
def unknownMnemonic (name : Text) : AsmError :=
  if name.isEmpty then .syntaxError else .unknownOpcode

/-- The error of a line without a space: a known mnemonic lacks its operands (R74). -/
def bareMnemonic (line : Text) : AsmError :=
  match findName opcodeMap line with
  | none => unknownMnemonic line
  | some _ => .syntaxError

/-- The instruction that a line of assembly text stands for (R70 to R74). Which error a line with several
faults gets is open in the spec; that the mnemonic is checked first, then the number of operands and
the brackets of a memory operand, then the operands from left to right, is a DESIGN CHOICE (log 14). -/
def assembleInstr (line : Text) : Except AsmError Instr :=
  match splitSpace line with
  | none => .error (bareMnemonic line)
  | some (name, ops) =>
    match findName opcodeMap name with
    | none => .error (unknownMnemonic name)
    | some k => asmOperands k (splitOperands ops)

/-- The word that the assembler emits for a line. -/
def assembleLine (line : Text) : Except AsmError Word :=
  match assembleInstr line with
  | .ok i => .ok (encode i)
  | .error e => .error e

/-- The words of a program, one for each line; the first line that is refused is named by its number
from `n` on, with its error. -/
def assembleLines : Nat → List Text → Except (Nat × AsmError) (List Word)
  | _, [] => .ok []
  | n, l :: ls =>
    match assembleLine l with
    | .error e => .error (n, e)
    | .ok w =>
      match assembleLines (n + 1) ls with
      | .error e => .error e
      | .ok ws => .ok (w :: ws)

/-- The memory image of `maxWords` words: the program from address 0 on, zeros after it (R75). A
program with more lines than words is refused at its first line too many (U13). -/
def assembleProgram (maxWords : Nat) (lines : List Text) : Except (Nat × AsmError) (List Word) :=
  if maxWords < lines.length then .error (maxWords, .syntaxError)
  else
    match assembleLines 0 lines with
    | .error e => .error e
    | .ok ws => .ok (ws ++ List.replicate (maxWords - ws.length) 0)

/-! ### The line of an instruction

One line in the form of R72 for each instruction, to state what the assembler accepts. -/

/-- The digit of value `d`, below 16. -/
def digitChar (d : Nat) : Char := Char.ofNat (if d < 10 then 48 + d else 55 + d)

/-- The digits of `n` in base `b`, at most `fuel` of them. -/
def digitsText (b : Nat) : Nat → Nat → Text
  | 0, _ => []
  | fuel + 1, n => if n < b then [digitChar n] else digitsText b fuel (n / b) ++ [digitChar (n % b)]

/-- A register as R71 spells it. -/
def regText (r : RegIx) : Text :=
  if r = xzr then ['X', 'Z', 'R'] else 'X' :: digitsText 10 2 r.toNat

/-- An immediate as R71 spells it, in the given base; a negative one is always decimal. -/
def immText (base : NumBase) (v : Int) : Text :=
  if v < 0 then '#' :: '-' :: digitsText 10 8 v.natAbs
  else
    match base with
    | .dec => '#' :: digitsText 10 8 v.toNat
    | .hex => '#' :: '0' :: 'x' :: digitsText 16 8 v.toNat

/-- The shift operand of MOVZ and MOVK (R71). -/
def shiftText (hw : BitVec 2) : Text := "LSL #".toList ++ digitsText 10 2 (16 * hw.toNat)

/-- The operands of format D: the register, and the memory operand cut at its comma (R71). -/
def memText (base : NumBase) (rt rn : RegIx) (off9 : BitVec 9) : List Text :=
  [regText rt, '[' :: regText rn, immText base off9.toInt ++ [']']]

/-- The operands of an instruction in the order of R72. -/
def operandTexts (base : NumBase) : Instr → List Text
  | .b off => [immText base off.toInt]
  | .sturb rt rn off => memText base rt rn off
  | .ldurb rt rn off => memText base rt rn off
  | .sturh rt rn off => memText base rt rn off
  | .ldurh rt rn off => memText base rt rn off
  | .add rd rn rm => [regText rd, regText rn, regText rm]
  | .addi rd rn imm => [regText rd, regText rn, immText base imm.toInt]
  | .adds rd rn rm => [regText rd, regText rn, regText rm]
  | .addis rd rn imm => [regText rd, regText rn, immText base imm.toInt]
  | .cbz rt off => [regText rt, immText base off.toInt]
  | .cbnz rt off => [regText rt, immText base off.toInt]
  | .sturw rt rn off => memText base rt rn off
  | .ldursw rt rn off => memText base rt rn off
  | .sub rd rn rm => [regText rd, regText rn, regText rm]
  | .subi rd rn imm => [regText rd, regText rn, immText base imm.toInt]
  | .movz rd imm hw => [regText rd, immText base imm.toNat, shiftText hw]
  | .subs rd rn rm => [regText rd, regText rn, regText rm]
  | .subis rd rn imm => [regText rd, regText rn, immText base imm.toInt]
  | .movk rd imm hw => [regText rd, immText base imm.toNat, shiftText hw]
  | .stur rt rn off => memText base rt rn off
  | .ldur rt rn off => memText base rt rn off

/-- Operands with a comma and a space between them (R70). -/
def joinOperands : List Text → Text
  | [] => []
  | [o] => o
  | o :: os => o ++ ',' :: ' ' :: joinOperands os

/-- The line of an instruction in its form of R72, immediates in the given base. -/
def asmText (base : NumBase) (i : Instr) : Text :=
  (mnemonicName i.mnemonic).toList ++ ' ' :: joinOperands (operandTexts base i)

end Sys2Proof.Machine
end

