-- ==== Sys2Proof/Machine/HostPort.lean ====
section
/-! DEFINITION. What the host can do with the core: reset with an image, parameters and register values
(70_reset_and_hazards.md R154, R155), read the register snapshot (60_exceptions.md R151), read the
code of a fault (R140). The host touches nothing while the core runs (20_memory.md R54). -/

namespace Sys2Proof.Machine

open Sys2Proof

/-- The memory that holds `image` at the addresses from `a` on and zeros elsewhere (R35, R75). -/
def imageMemory : Nat → List Word → Memory
  | _, [] => []
  | a, w :: ws => if w = Memory.unlisted then imageMemory (a + 1) ws else (a, w) :: imageMemory (a + 1) ws

/-- `reset(image)` (R154) with `REG_RESET` given as `regs`, each cut to `XLEN` bits. None when the image
has more words than memory (U13) or the parameters are outside R7: there is then no such machine. -/
def State.resetWith (p : Params) (image : List Word) (regs : Vector XVal 31) : Option State :=
  if p.Valid ∧ image.length ≤ p.memWords then
    some { State.reset with params := p, mem := imageMemory 0 image, x := regs.map (truncX p) }
  else none

/-- The name of register `i` (R15). -/
def registerName (i : Nat) : String := if i = 31 then "XZR" else "X" ++ toString i

/-- The register snapshot: every register's name with its value, `x[31]` as 0 (R151, log 11). -/
def State.snapshot (s : State) : List (String × XVal) :=
  (List.range 32).map fun i => (registerName i, s.readReg (BitVec.ofNat 5 i))

/-- What the observation port gives the host when the step `k` leads to `t`: the snapshot after a
WRITEBACK step, nothing after another (R151). -/
def observation (k : PipeStep) (t : State) : Option (List (String × XVal)) :=
  if k = .writeback then some t.snapshot else none

/-- The conventional roles of R16, for display only. -/
inductive RegisterRole where
  | temporary
  | stackPointer
  | framePointer
  | linkRegister
deriving DecidableEq, Repr

/-- The role of a register (R16); no instruction depends on it. The pairing of indices and roles is the
spec's, from general knowledge (log 13). -/
def registerRole (r : RegIx) : Option RegisterRole :=
  if r = 16 ∨ r = 17 then some .temporary
  else if r = 28 then some .stackPointer
  else if r = 29 then some .framePointer
  else if r = 30 then some .linkRegister
  else none

/-- The numeric code of a fault kind (R140). -/
def FaultKind.code : FaultKind → Nat
  | .unknownOpcode => 1
  | .illegalDestination => 2
  | .memoryRange => 3

end Sys2Proof.Machine
end

