-- ==== Sys2Proof/Safety.lean ====
section
/-! DEFINITION. What counts as a good state and a good run, in the terms the statements use: the
invariants of 70_reset_and_hazards.md R158, the architectural part of a state (R159), and the
sequential state that a pipeline state stands for. -/

namespace Sys2Proof.Machine

open Sys2Proof

/-! ### Architectural agreement -/

/-- Two states agree on what R159 compares: registers, memory and fault record, with the parameters
and, while no fault is recorded, the address of the next instruction. -/
structure ArchEq (s t : State) : Prop where
  params : s.params = t.params
  x : s.x = t.x
  mem : s.mem = t.mem
  fault : s.fault = t.fault
  pc : s.fault = none → s.pc = t.pc

/-- Two states agree on the hidden state of the pipeline: slots, tracker, fence. -/
structure SamePipeline (s t : State) : Prop where
  ht : s.ht = t.ht
  fd : s.fd = t.fd
  din : s.din = t.din
  de : s.de = t.de
  em : s.em = t.em
  mw : s.mw = t.mw
  branchPending : s.branchPending = t.branchPending

/-- Nothing is in flight: the slots and the tracker are empty and no branch is pending. -/
structure State.Drained (s : State) : Prop where
  slots : s.slotsEmpty = true
  ht : s.ht = []
  branchPending : s.branchPending = false

/-! ### Frames of the sequential level -/

/-- `t` is `s` after an instruction that touched no memory, raised nothing, and went on at `next`; the
registers are not spoken of. -/
structure RegFrame (s t : State) (next : Word) : Prop where
  params : t.params = s.params
  pc : t.pc = next
  mem : t.mem = s.mem
  mauAddr : t.mauAddr = s.mauAddr
  mauData : t.mauData = s.mauData
  pipeline : SamePipeline t s
  fault : t.fault = s.fault
  recentStores : t.recentStores = (none :: s.recentStores).take 2
  draws : t.draws = s.draws

/-- `t` is `s` after an instruction whose only effect on registers is `x[rd] <- v` and which has no
effect on memory; the next instruction follows. -/
structure WritesOnly (s t : State) (rd : RegIx) (v : XVal) : Prop where
  frame : RegFrame s t (s.pc + 1)
  dest : t.readReg rd = v
  others : ∀ r, r ≠ rd → t.readReg r = s.readReg r

/-- `t` is `s` after a load of the word `w` at address `a` into `x[rt]`: registers other than `rt` and
all of memory are as before, the latches are those of the read transaction (R38). -/
structure LoadsWord (s t : State) (rt : RegIx) (a : Nat) (w : Word) : Prop where
  params : t.params = s.params
  dest : (t.readReg rt).toNat = w.toNat
  others : ∀ r, r ≠ rt → t.readReg r = s.readReg r
  pc : t.pc = s.pc + 1
  mem : t.mem = s.mem
  mauAddr : t.mauAddr.toNat = a
  mauData : t.mauData = w
  pipeline : SamePipeline t s
  fault : t.fault = s.fault
  recentStores : t.recentStores = (none :: s.recentStores).take 2
  draws : t.draws = s.draws

/-- `t` is `s` after a store of the word `w` at address `a`: every other word and all registers are as
before, the latches are those of the write transaction (R38). The word itself reads as stored where
memory is canonical, which every run keeps. -/
structure StoresWord (s t : State) (a : Nat) (w : Word) : Prop where
  params : t.params = s.params
  x : t.x = s.x
  pc : t.pc = s.pc + 1
  stored : Memory.wf s.mem = true → Memory.read t.mem a = w
  elsewhere : ∀ b, b ≠ a → Memory.read t.mem b = Memory.read s.mem b
  mauAddr : t.mauAddr.toNat = a
  mauData : t.mauData = w
  pipeline : SamePipeline t s
  fault : t.fault = s.fault
  recentStores : ∃ u, u.addr.toNat = a ∧ u.old = Memory.read s.mem a ∧
    t.recentStores = (some u :: s.recentStores).take 2
  draws : t.draws = s.draws

/-- `t` is `s` after the fatal error `kind` of the instruction at `s.pc`: the record is made, and
registers, memory, latches and pipeline are as before. -/
structure Raised (s t : State) (kind : FaultKind) : Prop where
  params : t.params = s.params
  fault : t.fault = some { kind := kind, addr := s.pc }
  x : t.x = s.x
  mem : t.mem = s.mem
  mauAddr : t.mauAddr = s.mauAddr
  mauData : t.mauData = s.mauData
  pipeline : SamePipeline t s
  recentStores : t.recentStores = s.recentStores

/-- The address that an instruction stores to when it runs from `s`; none for one that is no store. -/
def storeAddress (s : State) : Instr → Option XVal
  | .stur _ rn off => some (effectiveAddress s.params (s.readReg rn) off)
  | .sturb _ rn off => some (effectiveAddress s.params (s.readReg rn) off)
  | .sturh _ rn off => some (effectiveAddress s.params (s.readReg rn) off)
  | .sturw _ rn off => some (effectiveAddress s.params (s.readReg rn) off)
  | .ldur .. | .ldurb .. | .ldurh .. | .ldursw .. => none
  | .add .. | .adds .. | .sub .. | .subs .. => none
  | .addi .. | .addis .. | .subi .. | .subis .. => none
  | .movz .. | .movk .. => none
  | .b .. | .cbz .. | .cbnz .. => none

/-- The result of Execute for a micro-op `m` of mnemonic `k` that is no branch is `r` (R124). -/
def ResultRow (p : Params) (k : Mnemonic) (m : DecodeExecute) (r : XVal) : Prop :=
  let imm16 := m.signExtendedImmediate.setWidth 16
  let s := 16 * (fieldHw m.instructionWord).toNat
  let size := 2 ^ p.xlen.bits
  (k = .movz → r.toNat = imm16.toNat * 2 ^ s % size) ∧
  (k = .movk → ∀ j, j < p.xlen.bits → r.getLsbD j =
    if s ≤ j ∧ j < s + 16 then imm16.getLsbD (j - s) else m.operand1Value.getLsbD j) ∧
  (k = .add ∨ k = .adds → r.toNat = (m.operand1Value.toNat + m.operand2Value.toNat) % size) ∧
  (k = .sub ∨ k = .subs →
    (r.toNat : Int) = (m.operand1Value.toNat - m.operand2Value.toNat : Int) % (size : Nat)) ∧
  (k = .addi ∨ k = .addis ∨ k.format = .d →
    (r.toNat : Int) = (m.operand1Value.toNat + m.signExtendedImmediate.toInt) % (size : Nat)) ∧
  (k = .subi ∨ k = .subis →
    (r.toNat : Int) = (m.operand1Value.toNat - m.signExtendedImmediate.toInt) % (size : Nat))

/-! ### The invariant -/

/-- A value fits in `XLEN` bits. -/
def fitsX (p : Params) (v : XVal) : Prop := truncX p v = v

/-- A Fetch-to-Decode register is poisoned exactly when its address is outside memory (R105). -/
def FetchOk (p : Params) (r : FetchDecode) : Prop :=
  r.fetchFault = !inRange p (instrAddrOf r.nextPC).toNat

/-- A micro-op is one that Decode could have issued: a known opcode, the lock flag of its family, no
destination 31, operands of `XLEN` bits (R115, R122). -/
def MicroOpOk (p : Params) (m : DecodeExecute) : Prop :=
  fitsX p m.operand1Value ∧ fitsX p m.operand2Value ∧
  ∃ k, classify m.instructionWord = some k ∧ m.destinationLockAdded = k.hasDest ∧
    (k.hasDest = true → fieldRd m.instructionWord ≠ xzr)

/-- A register of EM or MW is one that Execute could have produced: a locked destination is not 31, the
values have `XLEN` bits. -/
def ExecutedOk (p : Params) (e : ExecuteMemory) : Prop :=
  fitsX p e.aluOrAddressResult ∧ fitsX p e.storeData ∧
  (e.destinationLockAdded = true → e.destinationRegister ≠ xzr)

/-- The destinations of the locked instructions in MW, EM and DE, from old to young (R119). -/
def State.lockedDests (s : State) : List RegIx :=
  (match s.mw with
   | some w => if w.destinationLockAdded then [w.destinationRegister] else []
   | none => []) ++
  (match s.em with
   | some e => if e.destinationLockAdded then [e.destinationRegister] else []
   | none => []) ++
  (match s.de with
   | some m => if m.destinationLockAdded then [fieldRd m.instructionWord] else []
   | none => [])

/-- The micro-op in DE is a branch. -/
def State.branchInDE (s : State) : Bool :=
  match s.de with
  | some m =>
    match classify m.instructionWord with
    | some k => k.isBranch
    | none => false
  | none => false

/-- The address of the instruction behind the one in DIN: the one in FD, else the next to fetch. -/
def State.behindDecode (s : State) : Word :=
  match s.fd with
  | some r => instrAddrOf r.nextPC
  | none => s.pc

/-- What holds in every state a run can reach: R158 items 1 to 4, 6 and 7 (of item 3, that the
instructions in DIN and FD and the next to fetch have consecutive addresses), the canonical form of
memory within its size, the width of the registers, and what the slots can hold. -/
structure Inv (s : State) : Prop where
  params : s.params.Valid
  memWf : Memory.wf s.mem = true
  memWithin : Memory.within s.params.memWords s.mem = true
  regsFit : ∀ r, fitsX s.params (s.readReg r)
  tracker : s.ht = s.lockedDests
  oneInDecode : s.din ≠ none → s.de = none
  fence : s.branchPending = s.branchInDE
  fdOk : ∀ r, s.fd = some r → FetchOk s.params r
  dinOk : ∀ r, s.din = some r → FetchOk s.params r
  fdNext : ∀ r, s.fd = some r → r.nextPC = s.pc
  dinNext : ∀ r, s.din = some r → r.nextPC = s.behindDecode
  deOk : ∀ m, s.de = some m → MicroOpOk s.params m
  emOk : ∀ e, s.em = some e → ExecutedOk s.params e
  mwOk : ∀ w, s.mw = some w → ExecutedOk s.params w
  stopped : s.fault ≠ none → s.fd = none ∧ s.din = none ∧ s.de = none
  recent : s.recentStores.length ≤ 2

/-! ### The sequential state that a pipeline state stands for -/

/-- Let every issued instruction complete, the oldest first: what is in MW, then EM, then DE. -/
def State.completeIssued (s : State) : State :=
  (((((s.tryStep .writeback).tryStep .memory).tryStep .writeback).tryStep .execute).tryStep
    .memory).tryStep .writeback

/-- The address of the next instruction that Decode will issue. -/
def State.nextToIssue (s : State) : Word :=
  match s.din with
  | some r => instrAddrOf r.nextPC
  | none => s.behindDecode

/-- The sequential state: issued instructions completed, the others forgotten, the program counter at
the first of them. -/
def State.sequential (s : State) : State :=
  let t := s.completeIssued
  { t with pc := t.nextToIssue, fd := none, din := none, recentStores := [] }

/-- The instruction that Decode is about to issue was fetched as the sequential semantics reads it: no
store still in flight changes its word. -/
def State.IssueCoherent (s : State) : Prop :=
  ∀ r, s.din = some r → r.fetchFault = false →
    r.instructionWord = Memory.read s.sequential.mem (instrAddrOf r.nextPC).toNat

/-- Every DEC_ISSUE of a run is coherent, but for those behind an instruction in flight that is going to
stop the core: what is issued there has no effect, whatever its word. -/
def CoherentRun : List PipeStep → State → Prop
  | [], _ => True
  | k :: ks, s =>
    (k = .decIssue → s.sequential.fault = none → s.IssueCoherent) ∧
    match pipeStep k s with
    | some t => CoherentRun ks t
    | none => True

/-- The state with the record of recent stores forgotten: the fetch of the next instruction then sees
every store before it, as R156 reads memory. -/
def State.inOrder (s : State) : State := { s with recentStores := [] }

/-- `n` instructions of the sequential run of R156 lead from `s` to `t`. -/
def RunsTo : Nat → State → State → Prop
  | 0, s, t => s = t
  | n + 1, s, t => ∃ u, step s.inOrder = .next u ∧ RunsTo n u t

/-! ### Programs within R164 -/

/-- The instruction that the sequential run of R156 runs at `s`; none when the core has stopped, when
there is no word, and when the word is no instruction. -/
def State.nextInstr (s : State) : Option Instr :=
  if s.fault.isNone && inRange s.params s.pc.toNat then
    match decode (Memory.read s.mem s.pc.toNat) with
    | .ok i => some i
    | .error _ => none
  else none

/-- The address that the next instruction of the sequential run stores to. -/
def State.nextStore (s : State) : Option XVal := s.nextInstr.bind (storeAddress s)

/-- R164: in the sequential run from `s`, no instruction is fetched from a word that one of the two
instructions before it stored to, the fetch that ends the run included. -/
def StoreDistanceKept (s : State) : Prop :=
  ∀ (n m : Nat) (u v : State) (ea : XVal), RunsTo n s u → u.nextStore = some ea →
    m = 1 ∨ m = 2 → RunsTo m u v → v.fault = none → v.pc.toNat ≠ ea.toNat

/-! ### What a run shows (R159) -/

/-- An instruction that has retired: its address and the register write it made, if any. -/
structure Retired where
  addr : Word
  write : Option (RegIx × XVal)
deriving DecidableEq, Repr

/-- The instruction that the step `k` retires when it is taken at `s`: WRITEBACK retires what is in MW
(R134). -/
def retiredBy (k : PipeStep) (s : State) : Option Retired :=
  match k, s.mw with
  | .writeback, some w =>
    some { addr := w.instrAddr
           write := if w.destinationLockAdded then some (w.destinationRegister, w.aluOrAddressResult)
                    else none }
  | _, _ => none

/-- The word address and the word that the step `k` writes to memory when it is taken at `s`: MEMORY of a
store whose address exists (R130). -/
def storedBy (k : PipeStep) (s : State) : Option WordCell :=
  match k, s.em with
  | .memory, some e =>
    if e.isMemoryOp && !e.destinationLockAdded && inRange s.params e.aluOrAddressResult.toNat then
      some (e.aluOrAddressResult.toNat, truncWord e.storeData)
    else none
  | _, _ => none

/-- What `f` sees in a pipeline run, from first to last. -/
def collect {α : Type} (f : PipeStep → State → Option α) : List PipeStep → State → List α
  | [], _ => []
  | k :: ks, s =>
    (f k s).toList ++
    match pipeStep k s with
    | some t => collect f ks t
    | none => []

/-- The state after the next instruction of the sequential run, if that instruction completes. -/
def State.nextCompletes (s : State) : Option State :=
  match step s.inOrder with
  | .next t => if t.fault.isNone then some t else none
  | _ => none

/-- The instruction that the sequential run completes at `s`, with its register write. -/
def seqRetired (s : State) : Option Retired :=
  match s.nextInstr, s.nextCompletes with
  | some i, some t => some { addr := s.pc, write := i.dest.map fun d => (d, t.readReg d) }
  | _, _ => none

/-- The memory write of the instruction that the sequential run completes at `s`. -/
def seqStored (s : State) : Option WordCell :=
  match s.nextStore, s.nextCompletes with
  | some ea, some t => some (ea.toNat, Memory.read t.mem ea.toNat)
  | _, _ => none

/-- What `f` sees in the first `n` instructions of the sequential run from `s`, from first to last. -/
def collectSeq {α : Type} (f : State → Option α) : Nat → State → List α
  | 0, _ => []
  | n + 1, s =>
    (f s).toList ++
    match step s.inOrder with
    | .next t => collectSeq f n t
    | _ => []

end Sys2Proof.Machine
end

