-- ==== Sys2Proof/Certificates/Slice0/Obligations.lean ====
section
/-! DEFINITION. The statements for the provers. `XLEN` is `s.params.xlen.bits`, so each holds at both
widths and at every memory size; where a clause rests on a choice that the spec marks as its own
decision (D<n> of 92_eei_decisions.md) or on a row of the assumption log, the docstring names it. -/

open Sys2Proof Sys2Proof.Machine

/-! ### The instructions, one by one -/

/-- R78. MOVZ writes the 16-bit immediate shifted left by `16 * hw`, cut to `XLEN` bits, and nothing
else; destination 31 is fatal. That the cut applies at `XLEN = 32` is the spec's decision D25. -/
def Obligations.MovzWritesShiftedImmediate : Prop :=
  ∀ (s : State) (rd : RegIx) (imm16 : BitVec 16) (hw : BitVec 2),
    (∀ w : Word, w.extractLsb' 23 9 = 0b110100101 →
      decode w = .ok (.movz (w.extractLsb' 0 5) (w.extractLsb' 5 16) (w.extractLsb' 21 2))) ∧
    (rd = xzr → ∃ t, exec (.movz rd imm16 hw) s = .next t ∧ Raised s t .illegalDestination) ∧
    (rd ≠ xzr → ∃ t v, exec (.movz rd imm16 hw) s = .next t ∧ WritesOnly s t rd v ∧
      v.toNat = imm16.toNat * 2 ^ (16 * hw.toNat) % 2 ^ s.params.xlen.bits)

/-- R79. MOVK replaces bits `16*hw+15 : 16*hw` of its destination by the immediate and keeps every
other bit below `XLEN`; destination 31 is fatal. For `XLEN = 32` and a shift of 32 or 48 nothing is
replaced, which is the spec's decision D25. -/
def Obligations.MovkReplacesOneHalfword : Prop :=
  ∀ (s : State) (rd : RegIx) (imm16 : BitVec 16) (hw : BitVec 2),
    (∀ w : Word, w.extractLsb' 23 9 = 0b111100101 →
      decode w = .ok (.movk (w.extractLsb' 0 5) (w.extractLsb' 5 16) (w.extractLsb' 21 2))) ∧
    (rd = xzr → ∃ t, exec (.movk rd imm16 hw) s = .next t ∧ Raised s t .illegalDestination) ∧
    (rd ≠ xzr → ∃ t v, exec (.movk rd imm16 hw) s = .next t ∧ WritesOnly s t rd v ∧
      ∀ j, j < s.params.xlen.bits →
        v.getLsbD j =
          if 16 * hw.toNat ≤ j ∧ j < 16 * hw.toNat + 16 then imm16.getLsbD (j - 16 * hw.toNat)
          else (s.readReg rd).getLsbD j)

/-- R81. ADD writes the sum modulo `2^XLEN` and nothing else; destination 31 is fatal. -/
def Obligations.AddWritesSum : Prop :=
  ∀ (s : State) (rd rn rm : RegIx),
    (∀ w : Word, w.extractLsb' 21 11 = 0b10001011000 →
      decode w = .ok (.add (w.extractLsb' 0 5) (w.extractLsb' 5 5) (w.extractLsb' 16 5))) ∧
    (rd = xzr → ∃ t, exec (.add rd rn rm) s = .next t ∧ Raised s t .illegalDestination) ∧
    (rd ≠ xzr → ∃ t v, exec (.add rd rn rm) s = .next t ∧ WritesOnly s t rd v ∧
      v.toNat = ((s.readReg rn).toNat + (s.readReg rm).toNat) % 2 ^ s.params.xlen.bits)

/-- R83. SUB writes `x[n] - x[m]` modulo `2^XLEN` and nothing else; destination 31 is fatal. -/
def Obligations.SubWritesDifference : Prop :=
  ∀ (s : State) (rd rn rm : RegIx),
    (∀ w : Word, w.extractLsb' 21 11 = 0b11001011000 →
      decode w = .ok (.sub (w.extractLsb' 0 5) (w.extractLsb' 5 5) (w.extractLsb' 16 5))) ∧
    (rd = xzr → ∃ t, exec (.sub rd rn rm) s = .next t ∧ Raised s t .illegalDestination) ∧
    (rd ≠ xzr → ∃ t v, exec (.sub rd rn rm) s = .next t ∧ WritesOnly s t rd v ∧
      (v.toNat : Int) =
        ((s.readReg rn).toNat - (s.readReg rm).toNat : Int) % 2 ^ s.params.xlen.bits)

/-- R85. ADDI adds its signed 12-bit immediate modulo `2^XLEN` and writes nothing else; destination
31 is fatal. -/
def Obligations.AddiAddsSignedImmediate : Prop :=
  ∀ (s : State) (rd rn : RegIx) (imm12 : BitVec 12),
    (∀ w : Word, w.extractLsb' 22 10 = 0b1001000100 →
      decode w = .ok (.addi (w.extractLsb' 0 5) (w.extractLsb' 5 5) (w.extractLsb' 10 12))) ∧
    (rd = xzr → ∃ t, exec (.addi rd rn imm12) s = .next t ∧ Raised s t .illegalDestination) ∧
    (rd ≠ xzr → ∃ t v, exec (.addi rd rn imm12) s = .next t ∧ WritesOnly s t rd v ∧
      (v.toNat : Int) = ((s.readReg rn).toNat + imm12.toInt) % 2 ^ s.params.xlen.bits)

/-- R87. SUBI subtracts its signed 12-bit immediate modulo `2^XLEN` and writes nothing else;
destination 31 is fatal. -/
def Obligations.SubiSubtractsSignedImmediate : Prop :=
  ∀ (s : State) (rd rn : RegIx) (imm12 : BitVec 12),
    (∀ w : Word, w.extractLsb' 22 10 = 0b1101000100 →
      decode w = .ok (.subi (w.extractLsb' 0 5) (w.extractLsb' 5 5) (w.extractLsb' 10 12))) ∧
    (rd = xzr → ∃ t, exec (.subi rd rn imm12) s = .next t ∧ Raised s t .illegalDestination) ∧
    (rd ≠ xzr → ∃ t v, exec (.subi rd rn imm12) s = .next t ∧ WritesOnly s t rd v ∧
      (v.toNat : Int) = ((s.readReg rn).toNat - imm12.toInt) % 2 ^ s.params.xlen.bits)

/-- R82, R84, R86, R88. The flag-setting forms ADDS, SUBS, ADDIS, SUBIS write the result of their plain
form and nothing else: there is no flag state. That is the spec's decision D6. Destination 31 is
fatal. -/
def Obligations.FlagFormsWriteOnlyTheirDestination : Prop :=
  ∀ (s : State) (rd rn rm : RegIx) (imm12 : BitVec 12),
    (∀ w : Word, w.extractLsb' 21 11 = 0b10101011000 →
      decode w = .ok (.adds (w.extractLsb' 0 5) (w.extractLsb' 5 5) (w.extractLsb' 16 5))) ∧
    (∀ w : Word, w.extractLsb' 21 11 = 0b11101011000 →
      decode w = .ok (.subs (w.extractLsb' 0 5) (w.extractLsb' 5 5) (w.extractLsb' 16 5))) ∧
    (∀ w : Word, w.extractLsb' 22 10 = 0b1011000100 →
      decode w = .ok (.addis (w.extractLsb' 0 5) (w.extractLsb' 5 5) (w.extractLsb' 10 12))) ∧
    (∀ w : Word, w.extractLsb' 22 10 = 0b1111000100 →
      decode w = .ok (.subis (w.extractLsb' 0 5) (w.extractLsb' 5 5) (w.extractLsb' 10 12))) ∧
    (rd = xzr → ∀ i ∈ [Instr.adds rd rn rm, .subs rd rn rm, .addis rd rn imm12, .subis rd rn imm12],
      ∃ t, exec i s = .next t ∧ Raised s t .illegalDestination) ∧
    (rd ≠ xzr →
    (∃ t v, exec (.adds rd rn rm) s = .next t ∧ WritesOnly s t rd v ∧
      v.toNat = ((s.readReg rn).toNat + (s.readReg rm).toNat) % 2 ^ s.params.xlen.bits) ∧
    (∃ t v, exec (.subs rd rn rm) s = .next t ∧ WritesOnly s t rd v ∧
      (v.toNat : Int) =
        ((s.readReg rn).toNat - (s.readReg rm).toNat : Int) % 2 ^ s.params.xlen.bits) ∧
    (∃ t v, exec (.addis rd rn imm12) s = .next t ∧ WritesOnly s t rd v ∧
      (v.toNat : Int) = ((s.readReg rn).toNat + imm12.toInt) % 2 ^ s.params.xlen.bits) ∧
    (∃ t v, exec (.subis rd rn imm12) s = .next t ∧ WritesOnly s t rd v ∧
      (v.toNat : Int) = ((s.readReg rn).toNat - imm12.toInt) % 2 ^ s.params.xlen.bits))

/-- R90. LDUR loads the whole word at the effective address, zero-extended; destination 31 is fatal,
and so is an address outside memory. -/
def Obligations.LdurLoadsWord : Prop :=
  ∀ (s : State) (rt rn : RegIx) (off9 : BitVec 9), s.params.Valid →
    let ea := (effectiveAddress s.params (s.readReg rn) off9).toNat
    (∀ w : Word, w.extractLsb' 21 11 = 0b11111000010 →
      decode w = .ok (.ldur (w.extractLsb' 0 5) (w.extractLsb' 5 5) (w.extractLsb' 12 9))) ∧
    (rt = xzr → ∃ t, exec (.ldur rt rn off9) s = .next t ∧ Raised s t .illegalDestination) ∧
    (rt ≠ xzr → s.params.memWords ≤ ea →
      ∃ t, exec (.ldur rt rn off9) s = .next t ∧ Raised s t .memoryRange) ∧
    (rt ≠ xzr → ea < s.params.memWords →
      ∃ t, exec (.ldur rt rn off9) s = .next t ∧ LoadsWord s t rt ea (Memory.read s.mem ea))

/-- R91, R92, R93. LDURB, LDURH and LDURSW do what LDUR does: they load the whole word,
zero-extended. That is the spec's decisions D7 and D15. -/
def Obligations.SizedLoadsLoadTheWholeWord : Prop :=
  ∀ (s : State) (rt rn : RegIx) (off9 : BitVec 9) (i : Instr), s.params.Valid →
    i = .ldurb rt rn off9 ∨ i = .ldurh rt rn off9 ∨ i = .ldursw rt rn off9 →
    let ea := (effectiveAddress s.params (s.readReg rn) off9).toNat
    (∀ w : Word, w.extractLsb' 21 11 = 0b00111000010 →
      decode w = .ok (.ldurb (w.extractLsb' 0 5) (w.extractLsb' 5 5) (w.extractLsb' 12 9))) ∧
    (∀ w : Word, w.extractLsb' 21 11 = 0b01111000010 →
      decode w = .ok (.ldurh (w.extractLsb' 0 5) (w.extractLsb' 5 5) (w.extractLsb' 12 9))) ∧
    (∀ w : Word, w.extractLsb' 21 11 = 0b10111000100 →
      decode w = .ok (.ldursw (w.extractLsb' 0 5) (w.extractLsb' 5 5) (w.extractLsb' 12 9))) ∧
    (rt = xzr → ∃ t, exec i s = .next t ∧ Raised s t .illegalDestination) ∧
    (rt ≠ xzr → s.params.memWords ≤ ea → ∃ t, exec i s = .next t ∧ Raised s t .memoryRange) ∧
    (rt ≠ xzr → ea < s.params.memWords →
      ∃ t, exec i s = .next t ∧ LoadsWord s t rt ea (Memory.read s.mem ea))

/-- R94. STUR stores the low 32 bits of `x[t]` (the word 0 for register 31) at the effective address
and changes no other word and no register; an address outside memory is fatal. -/
def Obligations.SturStoresLowWord : Prop :=
  ∀ (s : State) (rt rn : RegIx) (off9 : BitVec 9), s.params.Valid →
    let ea := (effectiveAddress s.params (s.readReg rn) off9).toNat
    (∀ w : Word, w.extractLsb' 21 11 = 0b11111000000 →
      decode w = .ok (.stur (w.extractLsb' 0 5) (w.extractLsb' 5 5) (w.extractLsb' 12 9))) ∧
    (s.params.memWords ≤ ea →
      ∃ t, exec (.stur rt rn off9) s = .next t ∧ Raised s t .memoryRange) ∧
    (ea < s.params.memWords →
      ∃ t w, exec (.stur rt rn off9) s = .next t ∧ StoresWord s t ea w ∧
        w.toNat = (s.readReg rt).toNat % 2 ^ 32)

/-- R95, R96, R97. STURB, STURH and STURW do what STUR does: they store the whole word. That is the
spec's decision D7. -/
def Obligations.SizedStoresStoreTheWholeWord : Prop :=
  ∀ (s : State) (rt rn : RegIx) (off9 : BitVec 9) (i : Instr), s.params.Valid →
    i = .sturb rt rn off9 ∨ i = .sturh rt rn off9 ∨ i = .sturw rt rn off9 →
    let ea := (effectiveAddress s.params (s.readReg rn) off9).toNat
    (∀ w : Word, w.extractLsb' 21 11 = 0b00111000000 →
      decode w = .ok (.sturb (w.extractLsb' 0 5) (w.extractLsb' 5 5) (w.extractLsb' 12 9))) ∧
    (∀ w : Word, w.extractLsb' 21 11 = 0b01111000000 →
      decode w = .ok (.sturh (w.extractLsb' 0 5) (w.extractLsb' 5 5) (w.extractLsb' 12 9))) ∧
    (∀ w : Word, w.extractLsb' 21 11 = 0b10111000000 →
      decode w = .ok (.sturw (w.extractLsb' 0 5) (w.extractLsb' 5 5) (w.extractLsb' 12 9))) ∧
    (s.params.memWords ≤ ea → ∃ t, exec i s = .next t ∧ Raised s t .memoryRange) ∧
    (ea < s.params.memWords →
      ∃ t w, exec i s = .next t ∧ StoresWord s t ea w ∧
        w.toNat = (s.readReg rt).toNat % 2 ^ 32)

/-- R89. The effective address is the base plus the signed offset modulo `2^XLEN`, in words. -/
def Obligations.EffectiveAddressIsBasePlusOffset : Prop :=
  ∀ (p : Params) (base : XVal) (off9 : BitVec 9),
    ((effectiveAddress p base off9).toNat : Int) =
      (base.toNat + off9.toInt) % 2 ^ p.xlen.bits

/-- R100. B goes to its own address plus its signed offset modulo `2^32`, and changes no register and
no memory; in the pipeline it waits for no register and Execute always takes it. -/
def Obligations.BranchGoesToTarget : Prop :=
  ∀ (s : State) (off26 : BitVec 26),
    (∀ w : Word, w.extractLsb' 26 6 = 0b000101 →
      decode w = .ok (.b (w.extractLsb' 0 26))) ∧
    (∃ t, exec (.b off26) s = .next t ∧ t.x = s.x ∧ RegFrame s t t.pc ∧
      (t.pc.toNat : Int) = (s.pc.toNat + off26.toInt) % 2 ^ 32) ∧
    (∀ iw, sources .b iw = []) ∧ (∀ m, branchTaken .b m = true)

/-- R101. CBZ goes to its target when `x[t]` is 0 and to the next instruction otherwise; in the pipeline
it waits for `t` and Execute takes it when the operand is 0. -/
def Obligations.CbzBranchesOnZero : Prop :=
  ∀ (s : State) (rt : RegIx) (off19 : BitVec 19),
    (∀ w : Word, w.extractLsb' 24 8 = 0b10110100 →
      decode w = .ok (.cbz (w.extractLsb' 0 5) (w.extractLsb' 5 19))) ∧
    (∃ t, exec (.cbz rt off19) s = .next t ∧ t.x = s.x ∧ RegFrame s t t.pc ∧
      (s.readReg rt = 0 → (t.pc.toNat : Int) = (s.pc.toNat + off19.toInt) % 2 ^ 32) ∧
      (s.readReg rt ≠ 0 → t.pc = s.pc + 1)) ∧
    (∀ iw, sources .cbz iw = if fieldRd iw = xzr then [] else [fieldRd iw]) ∧
    (∀ rf iw, operandValues rf .cbz iw = (0, rf (fieldRd iw))) ∧
    (∀ m, branchTaken .cbz m = decide (m.operand2Value = 0))

/-- R102. CBNZ goes to its target when `x[t]` is not 0 and to the next instruction otherwise; in the
pipeline it waits for `t` and Execute takes it when the operand is not 0. -/
def Obligations.CbnzBranchesOnNonZero : Prop :=
  ∀ (s : State) (rt : RegIx) (off19 : BitVec 19),
    (∀ w : Word, w.extractLsb' 24 8 = 0b10110101 →
      decode w = .ok (.cbnz (w.extractLsb' 0 5) (w.extractLsb' 5 19))) ∧
    (∃ t, exec (.cbnz rt off19) s = .next t ∧ t.x = s.x ∧ RegFrame s t t.pc ∧
      (s.readReg rt ≠ 0 → (t.pc.toNat : Int) = (s.pc.toNat + off19.toInt) % 2 ^ 32) ∧
      (s.readReg rt = 0 → t.pc = s.pc + 1)) ∧
    (∀ iw, sources .cbnz iw = if fieldRd iw = xzr then [] else [fieldRd iw]) ∧
    (∀ rf iw, operandValues rf .cbnz iw = (0, rf (fieldRd iw))) ∧
    (∀ m, branchTaken .cbnz m = decide (m.operand2Value ≠ 0))

/-- R14. Register 31 reads 0, a write to it changes nothing, and no instruction gets as far as writing
it: each one with destination 31 raises `IllegalDestination`. -/
def Obligations.RegisterThirtyOneIsConstantZero : Prop :=
  (∀ s : State, s.readReg xzr = 0) ∧
  (∀ (s : State) (v : XVal), s.writeReg xzr v = s) ∧
  (∀ (i : Instr) (s : State), i.dest = some xzr →
    ∃ t, exec i s = .next t ∧ Raised s t .illegalDestination)

/-- R49 and the source's Scenario 4. A load right after a store to the same address returns the low 32
bits of the register stored, for all size variants. That the store keeps the low 32 bits is the
spec's decision D15. -/
def Obligations.LoadReturnsTheStoredWord : Prop :=
  ∀ (s : State) (rt rd rn : RegIx) (off9 : BitVec 9) (st ld : Instr),
    Memory.wf s.mem = true → s.params.Valid → rd ≠ xzr →
    (effectiveAddress s.params (s.readReg rn) off9).toNat < s.params.memWords →
    st ∈ [Instr.stur rt rn off9, .sturb rt rn off9, .sturh rt rn off9, .sturw rt rn off9] →
    ld ∈ [Instr.ldur rd rn off9, .ldurb rd rn off9, .ldurh rd rn off9, .ldursw rd rn off9] →
    ∃ t u, exec st s = .next t ∧ exec ld t = .next u ∧
      (u.readReg rd).toNat = (s.readReg rt).toNat % 2 ^ 32

/-! ### The step of the sequential level -/

/-- R156. With nothing in flight, no fault and a settled word at the program counter, `step` runs the
instruction that the word decodes to, on the state in which the latches hold the address and the word
of the fetch. A program counter outside memory stops the core with `MemoryRange` at that address, which
is the spec's decision D13. -/
def Obligations.StepRunsTheDecodedInstruction : Prop :=
  (∀ (s : State) (i : Instr), s.slotsEmpty = true → s.fault = none →
    s.pc.toNat < s.params.memWords → s.settledAt s.pc = true →
    decode (Memory.read s.mem s.pc.toNat) = .ok i →
    step s = exec i { s with mauAddr := s.pc, mauData := Memory.read s.mem s.pc.toNat }) ∧
  (∀ s : State, s.slotsEmpty = true → s.fault = none → s.params.memWords ≤ s.pc.toNat →
    ∃ t, step s = .next t ∧ Raised s t .memoryRange)

/-- R67, R156. A word that is no instruction stops the core with `UnknownOpcode` at its address; the
zero word, which ends a program, is one (R166; the end marker is the spec's decision D23). -/
def Obligations.UnknownOpcodeStopsTheCore : Prop :=
  (∀ s : State, s.slotsEmpty = true → s.fault = none → s.pc.toNat < s.params.memWords →
    s.settledAt s.pc = true → classify (Memory.read s.mem s.pc.toNat) = none →
    ∃ t, step s = .next t ∧ t.fault = some { kind := .unknownOpcode, addr := s.pc } ∧
      t.x = s.x ∧ t.mem = s.mem ∧ t.params = s.params ∧ SamePipeline t s) ∧
  classify 0 = none

/-- R68. A word of MOVZ, MOVK, an R or I instruction or a load whose bits 4:0 are 31 stops the core with
`IllegalDestination` at its address, whatever the data address of a load would be (R142 item 1), and
writes nothing. A store, CBZ or CBNZ with 31 there does not. -/
def Obligations.DestinationThirtyOneStopsTheCore : Prop :=
  ∀ (s : State) (k : Mnemonic), s.slotsEmpty = true → s.fault = none →
    s.pc.toNat < s.params.memWords → s.settledAt s.pc = true →
    classify (Memory.read s.mem s.pc.toNat) = some k →
    fieldRd (Memory.read s.mem s.pc.toNat) = xzr →
    (k.hasDest = true →
      ∃ t, step s = .next t ∧ t.fault = some { kind := .illegalDestination, addr := s.pc } ∧
        t.x = s.x ∧ t.mem = s.mem ∧ t.params = s.params ∧ SamePipeline t s) ∧
    (k.hasDest = false →
      ∃ t, step s = .next t ∧ ∀ f, t.fault = some f → f.kind = .memoryRange)

/-- R144, R156. A halted core takes no step, and what it answers is its fault record. That a step of a
halted core is the outcome `fault` is the model's choice (log 9). -/
def Obligations.HaltedCoreTakesNoStep : Prop :=
  ∀ (s : State) (f : FaultRecord), s.slotsEmpty = true → s.fault = some f →
    step s = .fault (.halted f.kind f.addr) ∧ ∀ k, pipeStep k s = none

/-- R52. A fetch reads the word in memory, or the word from before a store that one of the recorded
instructions made to the address it fetches from; from a word that none of them stored to it reads the
word in memory. Which word it is is a free value (log 7), one of three: with lag 0 the word in memory,
with lag 1 the word from before the last instruction, with lag 2 the word from before the last two. -/
def Obligations.FetchReadsOldOrNewWord : Prop :=
  (∀ s : State, s.fetchedWord = Memory.read s.mem s.pc.toNat ∨
    ∃ u, some u ∈ s.recentStores ∧ u.addr = s.pc ∧ s.fetchedWord = u.old) ∧
  (∀ s : State, (∀ u, some u ∈ s.recentStores → u.addr ≠ s.pc) →
    s.fetchedWord = Memory.read s.mem s.pc.toNat) ∧
  (∀ s : State, s.fetchedWord = s.wordWithLag 0 ∨ s.fetchedWord = s.wordWithLag 1 ∨
    s.fetchedWord = s.wordWithLag 2) ∧
  (∀ s : State, s.wordWithLag 0 = Memory.read s.mem s.pc.toNat) ∧
  (∀ (s : State) (x : Option StoreUndo) (l : List (Option StoreUndo)), s.recentStores = x :: l →
    (∀ u, x = some u → u.addr = s.pc → s.wordWithLag 1 = u.old) ∧
    ((∀ u, x = some u → u.addr ≠ s.pc) → s.wordWithLag 1 = Memory.read s.mem s.pc.toNat)) ∧
  (∀ (s : State) (x y : Option StoreUndo) (l : List (Option StoreUndo)),
    s.recentStores = x :: y :: l →
    (∀ u, y = some u → u.addr = s.pc → s.wordWithLag 2 = u.old) ∧
    ((∀ u, y = some u → u.addr ≠ s.pc) → s.wordWithLag 2 = s.wordWithLag 1))

/-- R52, R164. From the third instruction after a store on, the fetch sees the store: when two further
instructions have retired and neither stored to the word `a`, then `a` is settled, still holds what it
held before them, and a fetch from it reads that. -/
def Obligations.FetchIsCertainAtDistanceThree : Prop :=
  ∀ (i j : Instr) (s t u : State) (a : Word), s.params.Valid →
    exec i s = .next t → exec j t = .next u → u.fault = none →
    (∀ ea, storeAddress s i = some ea → ea.toNat ≠ a.toNat) →
    (∀ ea, storeAddress t j = some ea → ea.toNat ≠ a.toNat) →
    u.settledAt a = true ∧ Memory.read u.mem a.toNat = Memory.read s.mem a.toNat ∧
    (u.pc = a → u.fetchedWord = Memory.read s.mem a.toNat)

/-! ### Encoding -/

/-- R77. Decoding the word of an instruction gives the instruction back, with every operand at every
value. -/
def Obligations.DecodeEncodeRoundTrip : Prop :=
  ∀ i : Instr, decode (encode i) = .ok i

/-- R69, R77. Encoding what a word decodes to gives the word back, its ignored bits cleared. That those
bits are ignored and written 0 is the spec's decision D18. -/
def Obligations.EncodeDecodeRoundTrip : Prop :=
  ∀ (w : Word) (i : Instr), decode w = .ok i → encode i = clearIgnored i.mnemonic w

/-- R69. Changing bits 15:10 of an R-format word or bits 11:10 of a D-format word changes nothing of
what it decodes to (the spec's decision D18). -/
def Obligations.IgnoredBitsDoNotMatter : Prop :=
  ∀ (w : Word) (k : Mnemonic), classify w = some k →
    (k.format = .r → ∀ m : BitVec 6, decode (w ^^^ (m.setWidth 32 <<< 10)) = decode w) ∧
    (k.format = .d → ∀ m : BitVec 2, decode (w ^^^ (m.setWidth 32 <<< 10)) = decode w)

/-- R65. The immediate latch holds the signed value of the field in the formats I, D, B and CB, the
unsigned value in format IM, and 0 in format R. -/
def Obligations.ImmediateLatchHoldsTheFieldsValue : Prop :=
  ∀ (k : Mnemonic) (w : Word),
    (k.format = .im → (immediateLatch k w).toNat = (w.toNat / 2 ^ 5) % 2 ^ 16) ∧
    (k.format = .r → immediateLatch k w = 0) ∧
    (k.format = .i → (immediateLatch k w).toInt = (fieldImm12 w).toInt) ∧
    (k.format = .d → (immediateLatch k w).toInt = (fieldOff9 w).toInt) ∧
    (k.format = .b → (immediateLatch k w).toInt = (fieldOff26 w).toInt) ∧
    (k.format = .cb → (immediateLatch k w).toInt = (fieldOff19 w).toInt)

/-- 95_test_vectors.md section 2. Words of the spec's encoding vectors decode to their instructions: one
of each format. -/
def Obligations.SampleWordsDecode : Prop :=
  decode 0xD2A24683 = .ok (.movz 3 0x1234 1) ∧
  decode 0xCB0203E3 = .ok (.sub 3 31 2) ∧
  decode 0x913FFC21 = .ok (.addi 1 1 0xFFF) ∧
  decode 0xF85FF002 = .ok (.ldur 2 0 0x1FF) ∧
  decode 0xB8100001 = .ok (.sturw 1 0 0x100) ∧
  decode 0x17FFFFFD = .ok (.b 0x3FFFFFD) ∧
  decode 0xB5FFFFC9 = .ok (.cbnz 9 0x7FFFE)

/-- R71 to R77. The line of every legal instruction, in its form of R72 with its immediate in decimal or
in hexadecimal, assembles to that instruction and its word. And every word that the assembler emits
decodes to the instruction that the line stands for, which has no destination 31: none of the
assembly-time errors reaches the core (R74). That a branch offset may be hexadecimal is log 12; the
forms that the source does not print are the spec's decision D20. -/
def Obligations.AssembledWordsAreLegal : Prop :=
  (∀ (base : NumBase) (i : Instr), i.WellFormed →
    assembleInstr (asmText base i) = .ok i ∧ assembleLine (asmText base i) = .ok (encode i)) ∧
  (∀ (line : Text) (w : Word), assembleLine line = .ok w →
    ∃ i, assembleInstr line = .ok i ∧ decode w = .ok i ∧ i.WellFormed)

/-- R75. A program of at most `maxWords` lines that all assemble has an image. The image has `maxWords`
words, word `k` of it the word of line `k`, and zeros after the program. That a longer program is
refused is log 12. -/
def Obligations.ImageHoldsTheProgramAndZeros : Prop :=
  (∀ (n : Nat) (lines : List Text), lines.length ≤ n →
    (∀ l ∈ lines, ∃ w, assembleLine l = .ok w) → ∃ image, assembleProgram n lines = .ok image) ∧
  (∀ (n : Nat) (lines : List Text) (image : List Word), assembleProgram n lines = .ok image →
    image.length = n ∧ lines.length ≤ n ∧
    (∀ k (h : k < lines.length), ∃ w, assembleLine lines[k] = .ok w ∧ image[k]? = some w) ∧
    (∀ k, lines.length ≤ k → k < n → image[k]? = some 0))

/-! ### Memory, the Memory Access Unit, the tracker -/

/-- R37. The five operations of the Memory Access Unit. -/
def Obligations.MauOperations : Prop :=
  ∀ (s : State) (v : Word),
    s.setAddress v = { s with mauAddr := v } ∧
    s.setData v = { s with mauData := v } ∧
    s.getData = s.mauData ∧
    (s.mauAddr.toNat < s.params.memWords →
      s.mauRead = some { s with mauData := Memory.read s.mem s.mauAddr.toNat } ∧
      ∃ t, s.mauWrite = some t ∧
        (Memory.wf s.mem = true → Memory.read t.mem s.mauAddr.toNat = s.mauData) ∧
        (∀ b, b ≠ s.mauAddr.toNat → Memory.read t.mem b = Memory.read s.mem b) ∧
        t = { s with mem := t.mem })

/-- R38. After a read transaction the latches hold the address and the word of memory, and memory is
unchanged; after a write transaction they hold the address and the word, which is then in memory. -/
def Obligations.TransactionsLeaveTheirLatches : Prop :=
  ∀ (s : State) (a d : Word), a.toNat < s.params.memWords →
    (∃ t, s.readTransaction a = some t ∧ t.mauAddr = a ∧
      t.mauData = Memory.read s.mem a.toNat ∧ t.getData = Memory.read s.mem a.toNat ∧
      t = { s with mauAddr := t.mauAddr, mauData := t.mauData }) ∧
    (∃ t, s.writeTransaction a d = some t ∧ t.mauAddr = a ∧ t.mauData = d ∧
      (Memory.wf s.mem = true → Memory.read t.mem a.toNat = d) ∧
      (∀ b, b ≠ a.toNat → Memory.read t.mem b = Memory.read s.mem b) ∧
      t = { s with mauAddr := t.mauAddr, mauData := t.mauData, mem := t.mem })

/-- R117. `enqueue` appends at the young end, `contains` says whether there is an entry, `release`
removes the oldest entry equal to its argument. That `release` answers nothing when there is no such
entry, which R117 says cannot happen, is the model's choice (log 10). -/
def Obligations.TrackerOperations : Prop :=
  ∀ (r : RegIx) (ht : List RegIx),
    htEnqueue r ht = ht ++ [r] ∧
    (htContains r ht = true ↔ r ∈ ht) ∧
    (∀ l, htRelease r ht = some l ↔
      ∃ old young, ht = old ++ r :: young ∧ r ∉ old ∧ l = old ++ young) ∧
    (htRelease r ht = none ↔ r ∉ ht)

/-! ### Reset -/

/-- R35. What reset leaves, for the state the spec gives a value: the program counter at 0, tracker and
slots empty, no branch pending, no fault, register 31 zero, and the default parameters of R7. The
program counter's value is the spec's decision D3. Every word is 0 because `State.reset` holds the
empty image, which is the model's choice (log 5): R35 has the program's words at the low addresses,
zeros only after them. That the parameters are a field is log 2. -/
def Obligations.ResetValues : Prop :=
  State.reset.pc = 0 ∧ (∀ a, Memory.read State.reset.mem a = 0) ∧ State.reset.Drained ∧
  State.reset.fault = none ∧ State.reset.readReg xzr = 0 ∧
  State.reset.params = { xlen := .x64, memWords := 65536 }

/-- R154. Reset with an image: valid parameters and an image that fits give a state. In it memory holds
the image and zeros after it, the registers hold the low `XLEN` bits of the given values, everything
else is as R35 says; and the state is a good one. That the image and the values are arguments is the
spec's decision D10 and log 5. -/
def Obligations.ResetWithLoadsTheImage : Prop :=
  (∀ (p : Params) (image : List Word) (regs : Vector XVal 31), p.Valid → image.length ≤ p.memWords →
    ∃ s, State.resetWith p image regs = some s) ∧
  (∀ (p : Params) (image : List Word) (regs : Vector XVal 31) (s : State),
    State.resetWith p image regs = some s →
    s.params = p ∧ s.pc = 0 ∧ s.Drained ∧ s.fault = none ∧ s.readReg xzr = 0 ∧
    (∀ a, Memory.read s.mem a = image.getD a 0) ∧
    (∀ (r : RegIx) (h : r.toNat < 31),
      (s.readReg r).toNat = regs[r.toNat].toNat % 2 ^ p.xlen.bits) ∧
    Inv s)

/-- R158. The reset state satisfies the invariant. It takes in the registers, whose reset value is the
model's choice (log 3). -/
def Obligations.ResetSatisfiesTheInvariant : Prop := Inv State.reset

/-! ### The pipeline, step by step -/

/-- R104, R105. FETCH is enabled exactly when FD is empty and no fault is recorded. Inside memory it
reads the word at PC by one transaction, outside it reads nothing and poisons the register; in both
cases PC is incremented. The poisoned register is the spec's decision D13. -/
def Obligations.FetchStep : Prop :=
  ∀ s : State,
    (s.enabled .fetch = true ↔ s.fd = none ∧ s.fault = none) ∧
    (s.fd = none → s.fault = none → s.pc.toNat < s.params.memWords →
      pipeStep .fetch s = some { s with
        mauAddr := s.pc
        mauData := Memory.read s.mem s.pc.toNat
        pc := s.pc + 1
        fd := some { instructionWord := Memory.read s.mem s.pc.toNat
                     nextPC := s.pc + 1
                     fetchFault := false } }) ∧
    (s.fd = none → s.fault = none → s.params.memWords ≤ s.pc.toNat →
      pipeStep .fetch s = some { s with
        pc := s.pc + 1
        fd := some { instructionWord := 0, nextPC := s.pc + 1, fetchFault := true } })

/-- R111. DEC_ACCEPT is enabled exactly under its guard and moves the register from FD to DIN. The
conjunct `DE = empty` is the spec's decision D11. -/
def Obligations.DecodeAcceptStep : Prop :=
  ∀ s : State,
    (s.enabled .decAccept = true ↔
      s.fd ≠ none ∧ s.din = none ∧ s.de = none ∧ s.branchPending = false ∧ s.fault = none) ∧
    (s.enabled .decAccept = true →
      pipeStep .decAccept s = some { s with din := s.fd, fd := none })

/-- R113. DEC_ISSUE of a register that is not faulting waits exactly while one of its source registers
other than 31 is in the tracker; the sources are those of R66. A faulting register does not wait
(the spec's decision D22). -/
def Obligations.DecodeWaitsForHazards : Prop :=
  ∀ (s : State) (r : FetchDecode), s.din = some r →
    (∀ kind, decodeFault r = some kind → s.enabled .decIssue = true) ∧
    (∀ k, decodeFault r = none → classify r.instructionWord = some k →
      (s.enabled .decIssue = true ↔
        ∀ q, q ≠ xzr →
          (q = fieldRn r.instructionWord ∧ (k.format = .r ∨ k.format = .i ∨ k.format = .d) ∨
           q = fieldRm r.instructionWord ∧ k.format = .r ∨
           q = fieldRd r.instructionWord ∧
             (k = .movk ∨ k.isStore = true ∨ k.format = .cb)) →
          q ∉ s.ht))

/-- R114. A faulting register stops the core with the first of `MemoryRange`, `UnknownOpcode` and
`IllegalDestination` that applies, at the instruction's own address, and nothing else changes but DIN
and FD. The order is the spec's decision D22. -/
def Obligations.DecodeRaisesTheFirstFault : Prop :=
  ∀ (s : State) (r : FetchDecode) (kind : FaultKind), s.din = some r →
    (r.fetchFault = true ∧ kind = .memoryRange) ∨
    (r.fetchFault = false ∧ classify r.instructionWord = none ∧ kind = .unknownOpcode) ∨
    (r.fetchFault = false ∧ (∃ k, classify r.instructionWord = some k ∧ k.hasDest = true) ∧
      fieldRd r.instructionWord = xzr ∧ kind = .illegalDestination) →
    pipeStep .decIssue s = some { s with
      fault := some { kind := kind, addr := r.nextPC - 1 }, din := none, fd := none }

/-- R115. An issued instruction is enqueued exactly once if it has a destination and not at all
otherwise, sets the fence exactly if it is a branch, and its micro-op carries the word, the incremented
PC, the immediate and the lock flag. -/
def Obligations.DecodeIssuesTheMicroOp : Prop :=
  ∀ (s t : State) (r : FetchDecode) (k : Mnemonic), s.din = some r →
    decodeFault r = none → classify r.instructionWord = some k → pipeStep .decIssue s = some t →
    (k.hasDest = true → t.ht = s.ht ++ [fieldRd r.instructionWord]) ∧
    (k.hasDest = false → t.ht = s.ht) ∧
    (k.isBranch = true → t.branchPending = true) ∧
    (k.isBranch = false → t.branchPending = s.branchPending) ∧
    (∃ m, t.de = some m ∧ m.instructionWord = r.instructionWord ∧ m.nextPC = r.nextPC ∧
      m.signExtendedImmediate = immediateLatch k r.instructionWord ∧
      m.destinationLockAdded = k.hasDest ∧
      (k.format = .r → m.operand1Value = s.readReg (fieldRn r.instructionWord) ∧
        m.operand2Value = s.readReg (fieldRm r.instructionWord)) ∧
      (k.isStore = true → m.operand1Value = s.readReg (fieldRn r.instructionWord) ∧
        m.operand2Value = s.readReg (fieldRd r.instructionWord)) ∧
      (k.format = .i ∨ k.isLoad = true →
        m.operand1Value = s.readReg (fieldRn r.instructionWord) ∧ m.operand2Value = 0) ∧
      (k = .movk → m.operand1Value = s.readReg (fieldRd r.instructionWord) ∧
        m.operand2Value = 0) ∧
      (k.format = .cb → m.operand1Value = 0 ∧
        m.operand2Value = s.readReg (fieldRd r.instructionWord)) ∧
      (k = .movz ∨ k = .b → m.operand1Value = 0 ∧ m.operand2Value = 0)) ∧
    t = { s with ht := t.ht, branchPending := t.branchPending, de := t.de, din := none }

/-- R123, R124, R125. EXECUTE is enabled exactly when DE is full, with a known opcode (R122), and EM is
empty. For an instruction that is no branch it moves the register on with the result of R124 and
touches nothing else. A taken branch writes PC and empties FD in the same step, one not taken leaves
both; either way the fence is cleared and the branch passes on as an empty register with result 0 and,
in a good state, no lock. The zeros in unused fields are the spec's decision D14, the widening of the
immediate is D16, MOVZ and MOVK at `XLEN = 32` are D25, the flush and the fence in one step are D8, the
empty register is D27. -/
def Obligations.ExecuteResolvesBranches : Prop :=
  (∀ s : State, s.enabled .execute = true ↔
    s.em = none ∧ ∃ m k, s.de = some m ∧ classify m.instructionWord = some k) ∧
  (∀ (s : State) (m : DecodeExecute) (k : Mnemonic), s.de = some m → s.em = none →
    classify m.instructionWord = some k → k.isBranch = false →
    ∃ e, pipeStep .execute s = some { s with em := some e, de := none } ∧
      e.destinationRegister = fieldRd m.instructionWord ∧
      ResultRow s.params k m e.aluOrAddressResult ∧
      e.storeData = (if k.isStore then m.operand2Value else 0) ∧
      e.isMemoryOp = (k.isLoad || k.isStore) ∧ e.branchTargetIfTaken = none ∧
      e.destinationLockAdded = m.destinationLockAdded ∧ e.instrAddr = m.nextPC - 1) ∧
  (∀ (s : State) (m : DecodeExecute) (k : Mnemonic), s.de = some m → s.em = none →
    classify m.instructionWord = some k → k.isBranch = true →
    ∃ t e, pipeStep .execute s = some t ∧ t.em = some e ∧ e.isMemoryOp = false ∧
      e.destinationRegister = fieldRd m.instructionWord ∧
      e.aluOrAddressResult = 0 ∧ e.storeData = 0 ∧ (Inv s → e.destinationLockAdded = false) ∧
      e.destinationLockAdded = m.destinationLockAdded ∧ e.instrAddr = m.nextPC - 1 ∧
      (k = .b ∨ (k = .cbz ∧ m.operand2Value = 0) ∨ (k = .cbnz ∧ m.operand2Value ≠ 0) →
        t = { s with pc := m.nextPC - 1 + m.signExtendedImmediate, fd := none,
                     branchPending := false, em := some e, de := none } ∧
        e.branchTargetIfTaken = some (m.nextPC - 1 + m.signExtendedImmediate)) ∧
      ((k = .cbz ∧ m.operand2Value ≠ 0) ∨ (k = .cbnz ∧ m.operand2Value = 0) →
        t = { s with branchPending := false, em := some e, de := none } ∧
        e.branchTargetIfTaken = none))

/-- R128 to R132, R143. MEMORY passes on what is no memory operation; inside memory a load replaces its
address by the word read and a store writes its word; outside memory the core stops with
`MemoryRange`, the record replacing an earlier one, and every slot but MW empty. The stop is the spec's
decisions D12, D13 and D22. -/
def Obligations.MemoryStep : Prop :=
  ∀ (s : State) (e : ExecuteMemory), s.em = some e → s.mw = none → s.params.Valid →
    let a := e.aluOrAddressResult.toNat
    (e.isMemoryOp = false →
      pipeStep .memory s = some { s with mw := some e, em := none }) ∧
    (e.isMemoryOp = true → s.params.memWords ≤ a →
      ∃ t, pipeStep .memory s = some t ∧
        t.fault = some { kind := .memoryRange, addr := e.instrAddr } ∧ t.slotsEmpty = true ∧
        t.branchPending = false ∧ t.x = s.x ∧ t.mem = s.mem ∧ t.pc = s.pc ∧
        (Inv s → t.ht = [])) ∧
    (e.isMemoryOp = true → a < s.params.memWords → e.destinationLockAdded = true →
      ∃ t w, pipeStep .memory s = some t ∧ t.mw = some w ∧
        w.aluOrAddressResult.toNat = (Memory.read s.mem a).toNat ∧
        w = { e with aluOrAddressResult := w.aluOrAddressResult } ∧
        t.mauAddr.toNat = a ∧ t.mauData = Memory.read s.mem a ∧
        t = { s with mauAddr := t.mauAddr, mauData := t.mauData, mw := t.mw, em := none }) ∧
    (e.isMemoryOp = true → a < s.params.memWords → e.destinationLockAdded = false →
      ∃ t, pipeStep .memory s = some t ∧
        (Memory.wf s.mem = true →
          (Memory.read t.mem a).toNat = e.storeData.toNat % 2 ^ 32) ∧
        (∀ b, b ≠ a → Memory.read t.mem b = Memory.read s.mem b) ∧
        t.mauAddr.toNat = a ∧ t.mauData.toNat = e.storeData.toNat % 2 ^ 32 ∧
        t = { s with mauAddr := t.mauAddr, mauData := t.mauData, mem := t.mem, mw := some e,
                     em := none })

/-- R134, R135, R136. WRITEBACK of a locked register commits it (a write to register 31 being
discarded) and releases the oldest entry for it; of an unlocked one it changes only the slot.
R17. No other step writes the register file. -/
def Obligations.WritebackCommitsAndReleases : Prop :=
  (∀ (s : State) (w : MemoryWriteback), s.mw = some w →
    (w.destinationLockAdded = false → pipeStep .writeback s = some { s with mw := none }) ∧
    (w.destinationLockAdded = true → ∀ ht, htRelease w.destinationRegister s.ht = some ht →
      ∃ t, pipeStep .writeback s = some t ∧ t.ht = ht ∧
        (w.destinationRegister ≠ xzr →
          t.readReg w.destinationRegister = w.aluOrAddressResult) ∧
        (∀ r, r ≠ w.destinationRegister ∨ r = xzr → t.readReg r = s.readReg r) ∧
        t = { s with x := t.x, ht := ht, mw := none })) ∧
  (∀ (k : PipeStep) (s t : State), pipeStep k s = some t → t.x ≠ s.x → k = .writeback)

/-- R151, R15. The register snapshot holds the 32 registers, each under its name, register 31 as 0; the
host is given one after every WRITEBACK step and after no other. Its form is log 11. -/
def Obligations.SnapshotShowsEveryRegister : Prop :=
  ∀ s : State, s.snapshot.length = 32 ∧ s.snapshot[31]? = some ("XZR", 0) ∧
    (∀ r : RegIx, r ≠ xzr →
      s.snapshot[r.toNat]? = some ("X" ++ toString r.toNat, s.readReg r)) ∧
    observation .writeback s = some s.snapshot ∧
    ∀ k, k ≠ .writeback → observation k s = none

/-! ### Whole-machine rules -/

/-- R24, R38. Only MEMORY writes memory, and only for a store whose address exists; one word at
most changes, the one at the store's address. -/
def Obligations.OnlyStoresWriteMemory : Prop :=
  ∀ (k : PipeStep) (s t : State), pipeStep k s = some t → s.params.Valid → t.mem ≠ s.mem →
    k = .memory ∧ ∃ e, s.em = some e ∧ e.isMemoryOp = true ∧ e.destinationLockAdded = false ∧
      e.aluOrAddressResult.toNat < s.params.memWords ∧
      ∀ b, b ≠ e.aluOrAddressResult.toNat → Memory.read t.mem b = Memory.read s.mem b

/-- R18. Two steps write PC: FETCH, which adds 1, and the EXECUTE step of a taken branch, which writes
the target. -/
def Obligations.OnlyFetchAndTakenBranchesWritePc : Prop :=
  ∀ (k : PipeStep) (s t : State), pipeStep k s = some t → t.pc ≠ s.pc →
    (k = .fetch ∧ t.pc = s.pc + 1) ∨
    (k = .execute ∧ ∃ m j, s.de = some m ∧ classify m.instructionWord = some j ∧
      j.isBranch = true ∧ branchTaken j m = true ∧
      t.pc = m.nextPC - 1 + m.signExtendedImmediate)

/-- R33. A recorded fault stays until reset: no step removes it, only MEMORY replaces it, and FETCH and
DEC_ACCEPT take no more steps (R108, R116). The record is the spec's decision D12. -/
def Obligations.FaultRecordStays : Prop :=
  ∀ (k : PipeStep) (s t : State), Inv s → pipeStep k s = some t → s.fault ≠ none →
    t.fault ≠ none ∧ (k = .memory ∨ k = .writeback) ∧ (t.fault ≠ s.fault → k = .memory)

/-- R34. The parameters never change, at either level. They are a field of State by the model's choice
(log 2). -/
def Obligations.ParametersNeverChange : Prop :=
  (∀ (k : PipeStep) (s t : State), pipeStep k s = some t → t.params = s.params) ∧
  (∀ s t : State, step s = .next t → t.params = s.params)

/-- R120, R119 item 3. In a good state the tracker holds at most three entries and never 31. -/
def Obligations.TrackerHoldsAtMostThree : Prop :=
  ∀ s : State, Inv s → s.ht.length ≤ 3 ∧ xzr ∉ s.ht

/-- R160. No deadlock: in a good state with no fault recorded some step is enabled. -/
def Obligations.NoDeadlock : Prop :=
  ∀ s : State, Inv s → s.fault = none → ∃ k, s.enabled k = true

/-- R144. A good state is halted exactly when no step is enabled; and once a fault is recorded a run
has at most three more steps. -/
def Obligations.HaltedExactlyWhenNothingIsEnabled : Prop :=
  (∀ s : State, Inv s → (s.halted = true ↔ ∀ k, s.enabled k = false)) ∧
  (∀ (s t : State) (ks : List PipeStep), Inv s → s.fault ≠ none → pipeRun ks s = some t →
    ks.length ≤ 3)

/-- In a good state the step of the host's core answers a next state, or the core is halted: it is
never stuck and refuses nothing (R144, R160; the choice of the step is log 1). -/
def Obligations.StepIsNeverStuck : Prop :=
  ∀ s : State, Inv s →
    (s.halted = false → ∃ t, step s = .next t) ∧
    (s.halted = true → ∃ f, s.fault = some f ∧ step s = .fault (.halted f.kind f.addr))

/-! ### Headline results -/

/-- R158. Every step of the pipeline, under any schedule, keeps the invariant: the tracker equals the
destinations of the locked instructions in flight, Decode has one instruction at a time, the fence is
up exactly while a branch is in DE, memory is canonical and within its size, registers and operands
have `XLEN` bits, a fault empties the front of the pipeline. -/
def Obligations.PipelineKeepsTheInvariant : Prop :=
  ∀ (k : PipeStep) (s t : State), Inv s → pipeStep k s = some t → Inv t

/-- R158. Every step of the host's core keeps the invariant. -/
def Obligations.StepKeepsTheInvariant : Prop :=
  ∀ s t : State, Inv s → step s = .next t → Inv t

/-- R167, R159. One instruction through the empty pipeline is one step of the sequential level: from a
drained state with a settled word, the six steps in order (five when Memory-Access stops the core,
three when Decode does) lead to the same registers, memory, fault record and, unless the core has
stopped, program counter, and the pipeline is drained again. The latches agree too: what they hold
after an instruction of the sequential level, of which the spec does not speak, is the model's choice
(log 6), made so that they do. -/
def Obligations.SixStepsAreOneInstruction : Prop :=
  ∀ s t : State, s.Drained → s.fault = none → s.settledAt s.pc = true → step s = .next t →
    ∃ n u, n ≤ 6 ∧ (t.fault = none → n = 6) ∧
      pipeRun (instructionSteps.take n) s = some u ∧
      ArchEq u t ∧ u.Drained ∧ t.Drained ∧
      u.mauAddr = t.mauAddr ∧ u.mauData = t.mauData

/-- R159. The pipeline refines the sequential semantics, step by step, under any schedule. Let the
sequential state of a pipeline state be the one in which the issued instructions have completed. A
step other than DEC_ISSUE does not change it; DEC_ISSUE takes it to the state after the next
instruction of the sequential run, or leaves it alone when an older instruction in flight is going to
stop the core. -/
def Obligations.PipelineRefinesTheSequentialSemantics : Prop :=
  ∀ (k : PipeStep) (s t : State), Inv s → pipeStep k s = some t →
    (k ≠ .decIssue → ArchEq s.sequential t.sequential) ∧
    (k = .decIssue → s.sequential.fault ≠ none → ArchEq s.sequential t.sequential) ∧
    (k = .decIssue → s.sequential.fault = none → s.IssueCoherent →
      ∃ u, step s.sequential = .next u ∧ ArchEq u t.sequential)

/-- R145, R159, R164. Fatal errors are precise and the result does not depend on the schedule: a pipeline
run from reset, for any image and any register values, in which every instruction is issued with the
word that the sequential semantics reads, and which ends halted, ends with the registers, the memory and
the fault record of a sequential run from the same reset, which has then halted too. Of instructions
issued behind one that is going to stop the core nothing is asked. A program within R164 has no other
runs. -/
def Obligations.HaltedPipelineAgreesWithSequentialRun : Prop :=
  (∀ (p : Params) (image : List Word) (regs : Vector XVal 31) (s t : State) (ks : List PipeStep),
    State.resetWith p image regs = some s → pipeRun ks s = some t → CoherentRun ks s →
    t.halted = true →
    ∃ n u, RunsTo n s u ∧ ArchEq u t ∧ u.halted = true) ∧
  (∀ (p : Params) (image : List Word) (regs : Vector XVal 31) (s t : State) (ks : List PipeStep),
    State.resetWith p image regs = some s → StoreDistanceKept s → pipeRun ks s = some t →
    CoherentRun ks s)

/-- R159, third item, and the order of the second. For a program within R164, at every moment of every
pipeline run from reset, registers and memory are those of the sequential run after some number `n` of
its completed instructions, and the stores made so far are the stores of those, in their order. The
retired instructions, with their register writes, are the first `n` of the sequential run in its order,
but for the `n`-th when it is a store that has written memory and still sits in MW. -/
def Obligations.PipelineRunIsAPrefixOfTheSequentialRun : Prop :=
  ∀ (p : Params) (image : List Word) (regs : Vector XVal 31) (s t : State) (ks : List PipeStep),
    State.resetWith p image regs = some s → StoreDistanceKept s → pipeRun ks s = some t →
    ∃ n u, RunsTo n s u ∧ u.fault = none ∧ t.x = u.x ∧ t.mem = u.mem ∧
      collect storedBy ks s = collectSeq seqStored n s ∧
      (collect retiredBy ks s = collectSeq seqRetired n s ∨
        ∃ m w, n = m + 1 ∧ t.mw = some w ∧ w.isMemoryOp = true ∧ w.destinationLockAdded = false ∧
          collect retiredBy ks s = collectSeq seqRetired m s)

/-- R159, first and second item. For a program within R164: if the sequential run is finite, so is every
pipeline run from the same reset, their length being bounded, and one that can go no further is halted
with the registers, the memory and the fault record at the end of the sequential run, having retired
the same instructions and made the same stores. If the sequential run is infinite, no pipeline run
stops or records a fault, each can go on, and in going on it retires any number of instructions (the
same ones, by `PipelineRunIsAPrefixOfTheSequentialRun`). -/
def Obligations.PipelineEndsExactlyWhenTheSequentialRunEnds : Prop :=
  ∀ (p : Params) (image : List Word) (regs : Vector XVal 31) (s : State),
    State.resetWith p image regs = some s → StoreDistanceKept s →
    (∀ n u, RunsTo n s u → u.halted = true →
      (∃ bound, ∀ ks t, pipeRun ks s = some t → ks.length ≤ bound) ∧
      (∀ ks t, pipeRun ks s = some t → (∀ k, t.enabled k = false) →
        t.halted = true ∧ ArchEq u t ∧ collect retiredBy ks s = collectSeq seqRetired n s ∧
        collect storedBy ks s = collectSeq seqStored n s)) ∧
    ((∀ n, ∃ u, RunsTo n s u) →
      (∀ ks t, pipeRun ks s = some t → t.fault = none ∧ ∃ k, t.enabled k = true) ∧
      (∀ m, ∃ bound, ∀ ks t, pipeRun ks s = some t → bound ≤ ks.length →
        m ≤ (collect retiredBy ks s).length))
end

