-- ==== Sys2Proof/Laws/Assembler.lean ====
section
/-! SUPPORT. The small lemmas of the assembler's text: digits, numbers, registers. -/

namespace Sys2Proof.Machine

open Sys2Proof

theorem decDigit_digitChar {d : Nat} (h : d < 10) : decDigit (digitChar d) = some d := by
  interval_cases d <;> rfl

theorem hexDigit_digitChar {d : Nat} (h : d < 16) : hexDigit (digitChar d) = some d := by
  interval_cases d <;> rfl

/-- Reading one text after another is reading on from the number that the first one gives. -/
theorem digitsFrom_append (digit : Char → Option Nat) (b acc : Nat) (t u : Text) :
    digitsFrom digit b acc (t ++ u) =
      (digitsFrom digit b acc t).bind fun n => digitsFrom digit b n u := by
  induction t generalizing acc with
  | nil => rfl
  | cons c t ih =>
    simp only [List.cons_append, digitsFrom]
    cases digit c with
    | none => rfl
    | some d => exact ih _

/-- Digits written in base `b` are read back, from 0, as the number, when there is room for them. -/
theorem digitsFrom_digitsText {digit : Char → Option Nat} {b : Nat} (hb : 1 < b)
    (hd : ∀ d, d < b → digit (digitChar d) = some d) (fuel n : Nat) (hn : n < b ^ fuel) :
    digitsFrom digit b 0 (digitsText b fuel n) = some n := by
  induction fuel generalizing n with
  | zero => rw [show n = 0 by simpa using hn]; rfl
  | succ fuel ih =>
    unfold digitsText
    split
    · next h => simp [digitsFrom, hd n h]
    · have hq : n / b < b ^ fuel := by
        rw [Nat.div_lt_iff_lt_mul (by omega)]
        rwa [Nat.pow_succ] at hn
      rw [digitsFrom_append, ih _ hq]
      simp only [Option.bind_some, digitsFrom, hd _ (Nat.mod_lt n (by omega))]
      rw [Nat.mul_comm, Nat.div_add_mod]

theorem parseReg_regText (r : RegIx) : parseReg (regText r) = .ok r := by
  revert r; decide

theorem parseDest_regText {r : RegIx} (h : r ≠ xzr) : parseDest (regText r) = .ok r := by
  revert r; decide

theorem parseShift_shiftText (hw : BitVec 2) : parseShift (shiftText hw) = .ok hw := by
  revert hw; decide

end Sys2Proof.Machine
end

