-- ==== Sys2Proof/Laws/Decode.lean ====
section
/-! SUPPORT. The words that the encoder builds, as numbers, and the fields that the decoder reads from
a word, as numbers: with these, facts about encodings are linear arithmetic. -/

namespace Sys2Proof

theorem toNat_append_add {m n : Nat} (a : BitVec m) (b : BitVec n) :
    (a ++ b).toNat = a.toNat * 2 ^ n + b.toNat := by
  rw [BitVec.toNat_append, ← Nat.shiftLeft_add_eq_or_of_lt b.isLt, Nat.shiftLeft_eq]

theorem toNat_extract {n : Nat} (lo len : Nat) (a : BitVec n) :
    (a.extractLsb' lo len).toNat = a.toNat / 2 ^ lo % 2 ^ len := by
  rw [BitVec.extractLsb'_toNat, Nat.shiftRight_eq_div_pow]

theorem toNat_opcode11 (w : Word) : (opcode11 w).toNat = w.toNat / 2 ^ 21 % 2 ^ 11 :=
  toNat_extract 21 11 w
theorem toNat_fieldRd (w : Word) : (fieldRd w).toNat = w.toNat / 2 ^ 0 % 2 ^ 5 := toNat_extract 0 5 w
theorem toNat_fieldRn (w : Word) : (fieldRn w).toNat = w.toNat / 2 ^ 5 % 2 ^ 5 := toNat_extract 5 5 w
theorem toNat_fieldRm (w : Word) : (fieldRm w).toNat = w.toNat / 2 ^ 16 % 2 ^ 5 :=
  toNat_extract 16 5 w
theorem toNat_fieldHw (w : Word) : (fieldHw w).toNat = w.toNat / 2 ^ 21 % 2 ^ 2 :=
  toNat_extract 21 2 w
theorem toNat_fieldImm16 (w : Word) : (fieldImm16 w).toNat = w.toNat / 2 ^ 5 % 2 ^ 16 :=
  toNat_extract 5 16 w
theorem toNat_fieldImm12 (w : Word) : (fieldImm12 w).toNat = w.toNat / 2 ^ 10 % 2 ^ 12 :=
  toNat_extract 10 12 w
theorem toNat_fieldOff9 (w : Word) : (fieldOff9 w).toNat = w.toNat / 2 ^ 12 % 2 ^ 9 :=
  toNat_extract 12 9 w
theorem toNat_fieldOff26 (w : Word) : (fieldOff26 w).toNat = w.toNat / 2 ^ 0 % 2 ^ 26 :=
  toNat_extract 0 26 w
theorem toNat_fieldOff19 (w : Word) : (fieldOff19 w).toNat = w.toNat / 2 ^ 5 % 2 ^ 19 :=
  toNat_extract 5 19 w

theorem toNat_encodeIM (op : BitVec 9) (hw : BitVec 2) (i : BitVec 16) (rd : RegIx) :
    (encodeIM op hw i rd).toNat =
      ((op.toNat * 2 ^ 2 + hw.toNat) * 2 ^ 16 + i.toNat) * 2 ^ 5 + rd.toNat := by
  unfold encodeIM
  rw [toNat_append_add, toNat_append_add, toNat_append_add]

theorem toNat_encodeR (op : BitVec 11) (rm rn rd : RegIx) :
    (encodeR op rm rn rd).toNat =
      (((op.toNat * 2 ^ 5 + rm.toNat) * 2 ^ 6) * 2 ^ 5 + rn.toNat) * 2 ^ 5 + rd.toNat := by
  unfold encodeR
  rw [toNat_append_add, toNat_append_add, toNat_append_add, toNat_append_add]
  rfl

theorem toNat_encodeI (op : BitVec 10) (i : BitVec 12) (rn rd : RegIx) :
    (encodeI op i rn rd).toNat =
      ((op.toNat * 2 ^ 12 + i.toNat) * 2 ^ 5 + rn.toNat) * 2 ^ 5 + rd.toNat := by
  unfold encodeI
  rw [toNat_append_add, toNat_append_add, toNat_append_add]

theorem toNat_encodeD (op : BitVec 11) (o : BitVec 9) (rn rt : RegIx) :
    (encodeD op o rn rt).toNat =
      (((op.toNat * 2 ^ 9 + o.toNat) * 2 ^ 2) * 2 ^ 5 + rn.toNat) * 2 ^ 5 + rt.toNat := by
  unfold encodeD
  rw [toNat_append_add, toNat_append_add, toNat_append_add, toNat_append_add]
  rfl

theorem toNat_encodeB (op : BitVec 6) (o : BitVec 26) :
    (encodeB op o).toNat = op.toNat * 2 ^ 26 + o.toNat := by
  unfold encodeB
  rw [toNat_append_add]

theorem toNat_encodeCB (op : BitVec 8) (o : BitVec 19) (rt : RegIx) :
    (encodeCB op o rt).toNat = (op.toNat * 2 ^ 19 + o.toNat) * 2 ^ 5 + rt.toNat := by
  unfold encodeCB
  rw [toNat_append_add, toNat_append_add]

/-! ### `opcode11` of an encoding, per format -/

theorem opcode11_encodeR (op : BitVec 11) (rm rn rd : RegIx) :
    (opcode11 (encodeR op rm rn rd)).toNat = op.toNat := by
  rw [toNat_opcode11, toNat_encodeR]
  have := op.isLt; have := rm.isLt; have := rn.isLt; have := rd.isLt
  omega

theorem opcode11_encodeD (op : BitVec 11) (o : BitVec 9) (rn rt : RegIx) :
    (opcode11 (encodeD op o rn rt)).toNat = op.toNat := by
  rw [toNat_opcode11, toNat_encodeD]
  have := op.isLt; have := o.isLt; have := rn.isLt; have := rt.isLt
  omega

theorem opcode11_encodeIM (op : BitVec 9) (hw : BitVec 2) (i : BitVec 16) (rd : RegIx) :
    (opcode11 (encodeIM op hw i rd)).toNat = op.toNat * 4 + hw.toNat := by
  rw [toNat_opcode11, toNat_encodeIM]
  have := op.isLt; have := hw.isLt; have := i.isLt; have := rd.isLt
  omega

theorem opcode11_encodeI (op : BitVec 10) (i : BitVec 12) (rn rd : RegIx) :
    (opcode11 (encodeI op i rn rd)).toNat = op.toNat * 2 + i.toNat / 2048 := by
  rw [toNat_opcode11, toNat_encodeI]
  have := op.isLt; have := i.isLt; have := rn.isLt; have := rd.isLt
  omega

theorem opcode11_encodeB (op : BitVec 6) (o : BitVec 26) :
    (opcode11 (encodeB op o)).toNat = op.toNat * 32 + o.toNat / 2097152 := by
  rw [toNat_opcode11, toNat_encodeB]
  have := op.isLt; have := o.isLt
  omega

theorem opcode11_encodeCB (op : BitVec 8) (o : BitVec 19) (rt : RegIx) :
    (opcode11 (encodeCB op o rt)).toNat = op.toNat * 8 + o.toNat / 65536 := by
  rw [toNat_opcode11, toNat_encodeCB]
  have := op.isLt; have := o.isLt; have := rt.isLt
  omega

/-- A row of the map owns an `opcode11` value: `findRow` finds it when no earlier row owns it. -/
theorem findRow_cons (r : OpcodeRow) (rs : List OpcodeRow) (op : Nat) :
    findRow (r :: rs) op = if r.lo ≤ op ∧ op ≤ r.hi then some r.mnemonic else findRow rs op := rfl

/-- A mnemonic that is found is the mnemonic of a row that owns the value. -/
theorem findRow_some {rows : List OpcodeRow} {op : Nat} {k : Mnemonic}
    (h : findRow rows op = some k) : ∃ r ∈ rows, r.mnemonic = k ∧ r.lo ≤ op ∧ op ≤ r.hi := by
  induction rows with
  | nil => cases h
  | cons r rs ih =>
    rw [findRow_cons] at h
    split at h
    · next hr => exact ⟨r, .head _, Option.some.inj h, hr⟩
    · obtain ⟨q, hq, hk⟩ := ih h
      exact ⟨q, .tail _ hq, hk⟩

end Sys2Proof
end

