-- ==== Sys2Proof/Laws/Memory.lean ====
section
/-! SUPPORT. Memory: a write is seen at its own word and nowhere else, and keeps the canonical form and
the size. -/

namespace Sys2Proof.Machine

open Sys2Proof

theorem Memory.wfFrom_mono {m : Memory} {lo lo' : Nat} (h : lo' ≤ lo)
    (hm : Memory.wfFrom lo m = true) : Memory.wfFrom lo' m = true := by
  cases m with
  | nil => rfl
  | cons c m =>
    obtain ⟨a, w⟩ := c
    simp only [Memory.wfFrom, Bool.and_eq_true, decide_eq_true_eq] at hm ⊢
    exact ⟨⟨by omega, hm.1.2⟩, hm.2⟩

/-- A word below every listed address is unlisted. -/
theorem Memory.read_of_lt {m : Memory} {lo a : Nat} (hm : Memory.wfFrom lo m = true) (h : a < lo) :
    Memory.read m a = Memory.unlisted := by
  induction m generalizing lo with
  | nil => rfl
  | cons c m ih =>
    obtain ⟨b, w⟩ := c
    simp only [Memory.wfFrom, Bool.and_eq_true, decide_eq_true_eq] at hm
    have hne : a ≠ b := by omega
    simp only [Memory.read, hne, if_false]
    exact ih hm.2 (by omega)

/-- A write leaves every other word alone, whatever the list. -/
theorem Memory.read_write_ne (m : Memory) {a c : Nat} (w : Word) (h : c ≠ a) :
    Memory.read (Memory.write m a w) c = Memory.read m c := by
  induction m with
  | nil =>
    by_cases hw : w = Memory.unlisted <;> simp [Memory.write, Memory.read, hw, h]
  | cons d m ih =>
    obtain ⟨b, v⟩ := d
    by_cases h1 : a < b
    · by_cases hw : w = Memory.unlisted <;> simp [Memory.write, Memory.read, hw, h, h1]
    · by_cases h2 : a = b
      · subst h2
        by_cases hw : w = Memory.unlisted <;> simp [Memory.write, Memory.read, hw, h]
      · simp only [Memory.write, h1, h2, if_false, Memory.read, ih]

/-- In a canonical memory a word reads what was written to it. -/
theorem Memory.read_write_self {m : Memory} {lo : Nat} (hm : Memory.wfFrom lo m = true) (a : Nat)
    (w : Word) : Memory.read (Memory.write m a w) a = w := by
  induction m generalizing lo with
  | nil => by_cases hw : w = Memory.unlisted <;> simp [Memory.write, Memory.read, hw]
  | cons d m ih =>
    obtain ⟨b, v⟩ := d
    simp only [Memory.wfFrom, Bool.and_eq_true, decide_eq_true_eq] at hm
    by_cases h1 : a < b
    · by_cases hw : w = Memory.unlisted
      · have hne : a ≠ b := by omega
        simp only [Memory.write, h1, hw, if_true, Memory.read, hne, if_false]
        exact Memory.read_of_lt hm.2 (by omega)
      · simp [Memory.write, Memory.read, hw, h1]
    · by_cases h2 : a = b
      · subst h2
        by_cases hw : w = Memory.unlisted
        · simp only [Memory.write, hw, if_true, Nat.lt_irrefl, if_false]
          exact Memory.read_of_lt hm.2 (by omega)
        · simp [Memory.write, Memory.read, hw]
      · simp only [Memory.write, h1, h2, if_false, Memory.read]
        exact ih hm.2

theorem Memory.wfFrom_write {m : Memory} {lo a : Nat} (w : Word) (h : lo ≤ a)
    (hm : Memory.wfFrom lo m = true) : Memory.wfFrom lo (Memory.write m a w) = true := by
  induction m generalizing lo with
  | nil => by_cases hw : w = Memory.unlisted <;> simp [Memory.write, Memory.wfFrom, hw, h]
  | cons d m ih =>
    obtain ⟨b, v⟩ := d
    simp only [Memory.wfFrom, Bool.and_eq_true, decide_eq_true_eq] at hm
    obtain ⟨⟨hlo, hv⟩, hm⟩ := hm
    by_cases h1 : a < b
    · by_cases hw : w = Memory.unlisted
      · simp [Memory.write, Memory.wfFrom, h1, hw, hlo, hv, hm]
      · have : a + 1 ≤ b := h1
        simp [Memory.write, Memory.wfFrom, h1, hw, h, hv, hm, this]
    · by_cases h2 : a = b
      · subst h2
        by_cases hw : w = Memory.unlisted
        · simp only [Memory.write, hw, if_true, Nat.lt_irrefl, if_false]
          exact Memory.wfFrom_mono (by omega) hm
        · simp [Memory.write, Memory.wfFrom, hw, h, hm]
      · simp only [Memory.write, h1, h2, if_false, Memory.wfFrom, Bool.and_eq_true,
          decide_eq_true_eq]
        exact ⟨⟨hlo, hv⟩, ih (by omega) hm⟩

/-- A write keeps the canonical form. -/
theorem Memory.wf_write {m : Memory} (a : Nat) (w : Word) (hm : Memory.wf m = true) :
    Memory.wf (Memory.write m a w) = true :=
  Memory.wfFrom_write w (Nat.zero_le a) hm

theorem Memory.read_write_of_wf {m : Memory} (hm : Memory.wf m = true) (a : Nat) (w : Word) :
    Memory.read (Memory.write m a w) a = w :=
  Memory.read_write_self hm a w

/-- A write to an address below `n` keeps every listed address below `n`. -/
theorem Memory.within_write {m : Memory} {n a : Nat} (w : Word) (ha : a < n)
    (hm : Memory.within n m = true) : Memory.within n (Memory.write m a w) = true := by
  induction m with
  | nil => by_cases hw : w = Memory.unlisted <;> simp [Memory.write, Memory.within, hw, ha]
  | cons d m ih =>
    obtain ⟨b, v⟩ := d
    simp only [Memory.within, List.all_cons, Bool.and_eq_true, decide_eq_true_eq] at hm ih ⊢
    by_cases h1 : a < b
    · by_cases hw : w = Memory.unlisted
      · simpa only [Memory.write, h1, hw, if_true, List.all_cons, Bool.and_eq_true,
          decide_eq_true_eq] using hm
      · simpa only [Memory.write, h1, hw, if_true, if_false, List.all_cons, Bool.and_eq_true,
          decide_eq_true_eq] using ⟨ha, hm⟩
    · by_cases h2 : a = b
      · by_cases hw : w = Memory.unlisted
        · simpa only [Memory.write, h1, h2, hw, if_true, if_false, lt_irrefl] using hm.2
        · simpa only [Memory.write, h1, h2, hw, if_true, if_false, lt_irrefl, List.all_cons,
            Bool.and_eq_true, decide_eq_true_eq] using ⟨hm.1, hm.2⟩
      · simp only [Memory.write, h1, h2, if_false, List.all_cons, Bool.and_eq_true,
          decide_eq_true_eq]
        exact ⟨hm.1, ih hm.2⟩

/-- The memory after reset is canonical. -/
theorem Memory.wf_reset : Memory.wf State.reset.mem = true := rfl

theorem inRange_iff (p : Params) (a : Nat) : inRange p a = true ↔ a < p.memWords := by
  simp [inRange]

/-- Cutting an address to 32 bits does not raise it. -/
theorem truncWord_toNat_le (v : XVal) : (truncWord v).toNat ≤ v.toNat := by
  simp only [truncWord, BitVec.toNat_setWidth]
  exact Nat.mod_le _ _

theorem inRange_truncWord {p : Params} {v : XVal} (h : inRange p v.toNat = true) :
    inRange p (truncWord v).toNat = true := by
  rw [inRange_iff] at h ⊢
  exact Nat.lt_of_le_of_lt (truncWord_toNat_le v) h

end Sys2Proof.Machine
end

