-- ==== Sys2Proof/Laws/State.lean ====
section
/-! SUPPORT. One lemma for each field of State and each update of it, so that no proof unfolds a record
update. Where an update changes a field, the lemma says what the field then holds. -/

namespace Sys2Proof.Machine

open Sys2Proof

@[simp] theorem setAddress_params (a : Word) (s : State) : (s.setAddress a).params = s.params := rfl
@[simp] theorem setAddress_x (a : Word) (s : State) : (s.setAddress a).x = s.x := rfl
@[simp] theorem setAddress_pc (a : Word) (s : State) : (s.setAddress a).pc = s.pc := rfl
@[simp] theorem setAddress_mem (a : Word) (s : State) : (s.setAddress a).mem = s.mem := rfl
@[simp] theorem setAddress_mauAddr (a : Word) (s : State) : (s.setAddress a).mauAddr = a := rfl
@[simp] theorem setAddress_mauData (a : Word) (s : State) : (s.setAddress a).mauData = s.mauData := rfl
@[simp] theorem setAddress_ht (a : Word) (s : State) : (s.setAddress a).ht = s.ht := rfl
@[simp] theorem setAddress_fd (a : Word) (s : State) : (s.setAddress a).fd = s.fd := rfl
@[simp] theorem setAddress_din (a : Word) (s : State) : (s.setAddress a).din = s.din := rfl
@[simp] theorem setAddress_de (a : Word) (s : State) : (s.setAddress a).de = s.de := rfl
@[simp] theorem setAddress_em (a : Word) (s : State) : (s.setAddress a).em = s.em := rfl
@[simp] theorem setAddress_mw (a : Word) (s : State) : (s.setAddress a).mw = s.mw := rfl
@[simp] theorem setAddress_branchPending (a : Word) (s : State) : (s.setAddress a).branchPending = s.branchPending := rfl
@[simp] theorem setAddress_fault (a : Word) (s : State) : (s.setAddress a).fault = s.fault := rfl
@[simp] theorem setAddress_recentStores (a : Word) (s : State) : (s.setAddress a).recentStores = s.recentStores := rfl
@[simp] theorem setAddress_draws (a : Word) (s : State) : (s.setAddress a).draws = s.draws := rfl

@[simp] theorem setData_params (d : Word) (s : State) : (s.setData d).params = s.params := rfl
@[simp] theorem setData_x (d : Word) (s : State) : (s.setData d).x = s.x := rfl
@[simp] theorem setData_pc (d : Word) (s : State) : (s.setData d).pc = s.pc := rfl
@[simp] theorem setData_mem (d : Word) (s : State) : (s.setData d).mem = s.mem := rfl
@[simp] theorem setData_mauAddr (d : Word) (s : State) : (s.setData d).mauAddr = s.mauAddr := rfl
@[simp] theorem setData_mauData (d : Word) (s : State) : (s.setData d).mauData = d := rfl
@[simp] theorem setData_ht (d : Word) (s : State) : (s.setData d).ht = s.ht := rfl
@[simp] theorem setData_fd (d : Word) (s : State) : (s.setData d).fd = s.fd := rfl
@[simp] theorem setData_din (d : Word) (s : State) : (s.setData d).din = s.din := rfl
@[simp] theorem setData_de (d : Word) (s : State) : (s.setData d).de = s.de := rfl
@[simp] theorem setData_em (d : Word) (s : State) : (s.setData d).em = s.em := rfl
@[simp] theorem setData_mw (d : Word) (s : State) : (s.setData d).mw = s.mw := rfl
@[simp] theorem setData_branchPending (d : Word) (s : State) : (s.setData d).branchPending = s.branchPending := rfl
@[simp] theorem setData_fault (d : Word) (s : State) : (s.setData d).fault = s.fault := rfl
@[simp] theorem setData_recentStores (d : Word) (s : State) : (s.setData d).recentStores = s.recentStores := rfl
@[simp] theorem setData_draws (d : Word) (s : State) : (s.setData d).draws = s.draws := rfl

@[simp] theorem retire_params (n : Word) (u : Option StoreUndo) (s : State) : (s.retire n u).params = s.params := rfl
@[simp] theorem retire_x (n : Word) (u : Option StoreUndo) (s : State) : (s.retire n u).x = s.x := rfl
@[simp] theorem retire_pc (n : Word) (u : Option StoreUndo) (s : State) : (s.retire n u).pc = n := rfl
@[simp] theorem retire_mem (n : Word) (u : Option StoreUndo) (s : State) : (s.retire n u).mem = s.mem := rfl
@[simp] theorem retire_mauAddr (n : Word) (u : Option StoreUndo) (s : State) : (s.retire n u).mauAddr = s.mauAddr := rfl
@[simp] theorem retire_mauData (n : Word) (u : Option StoreUndo) (s : State) : (s.retire n u).mauData = s.mauData := rfl
@[simp] theorem retire_ht (n : Word) (u : Option StoreUndo) (s : State) : (s.retire n u).ht = s.ht := rfl
@[simp] theorem retire_fd (n : Word) (u : Option StoreUndo) (s : State) : (s.retire n u).fd = s.fd := rfl
@[simp] theorem retire_din (n : Word) (u : Option StoreUndo) (s : State) : (s.retire n u).din = s.din := rfl
@[simp] theorem retire_de (n : Word) (u : Option StoreUndo) (s : State) : (s.retire n u).de = s.de := rfl
@[simp] theorem retire_em (n : Word) (u : Option StoreUndo) (s : State) : (s.retire n u).em = s.em := rfl
@[simp] theorem retire_mw (n : Word) (u : Option StoreUndo) (s : State) : (s.retire n u).mw = s.mw := rfl
@[simp] theorem retire_branchPending (n : Word) (u : Option StoreUndo) (s : State) : (s.retire n u).branchPending = s.branchPending := rfl
@[simp] theorem retire_fault (n : Word) (u : Option StoreUndo) (s : State) : (s.retire n u).fault = s.fault := rfl
@[simp] theorem retire_recentStores (n : Word) (u : Option StoreUndo) (s : State) : (s.retire n u).recentStores = (u :: s.recentStores).take 2 := rfl
@[simp] theorem retire_draws (n : Word) (u : Option StoreUndo) (s : State) : (s.retire n u).draws = s.draws := rfl

@[simp] theorem advance_params (s : State) : (s.advance).params = s.params := rfl
@[simp] theorem advance_x (s : State) : (s.advance).x = s.x := rfl
@[simp] theorem advance_pc (s : State) : (s.advance).pc = s.pc + 1 := rfl
@[simp] theorem advance_mem (s : State) : (s.advance).mem = s.mem := rfl
@[simp] theorem advance_mauAddr (s : State) : (s.advance).mauAddr = s.mauAddr := rfl
@[simp] theorem advance_mauData (s : State) : (s.advance).mauData = s.mauData := rfl
@[simp] theorem advance_ht (s : State) : (s.advance).ht = s.ht := rfl
@[simp] theorem advance_fd (s : State) : (s.advance).fd = s.fd := rfl
@[simp] theorem advance_din (s : State) : (s.advance).din = s.din := rfl
@[simp] theorem advance_de (s : State) : (s.advance).de = s.de := rfl
@[simp] theorem advance_em (s : State) : (s.advance).em = s.em := rfl
@[simp] theorem advance_mw (s : State) : (s.advance).mw = s.mw := rfl
@[simp] theorem advance_branchPending (s : State) : (s.advance).branchPending = s.branchPending := rfl
@[simp] theorem advance_fault (s : State) : (s.advance).fault = s.fault := rfl
@[simp] theorem advance_recentStores (s : State) : (s.advance).recentStores = (none :: s.recentStores).take 2 := rfl
@[simp] theorem advance_draws (s : State) : (s.advance).draws = s.draws := rfl

@[simp] theorem raise_params (k : FaultKind) (s : State) : (s.raise k).params = s.params := rfl
@[simp] theorem raise_x (k : FaultKind) (s : State) : (s.raise k).x = s.x := rfl
@[simp] theorem raise_pc (k : FaultKind) (s : State) : (s.raise k).pc = Config.stoppedPc s.draws := rfl
@[simp] theorem raise_mem (k : FaultKind) (s : State) : (s.raise k).mem = s.mem := rfl
@[simp] theorem raise_mauAddr (k : FaultKind) (s : State) : (s.raise k).mauAddr = s.mauAddr := rfl
@[simp] theorem raise_mauData (k : FaultKind) (s : State) : (s.raise k).mauData = s.mauData := rfl
@[simp] theorem raise_ht (k : FaultKind) (s : State) : (s.raise k).ht = s.ht := rfl
@[simp] theorem raise_fd (k : FaultKind) (s : State) : (s.raise k).fd = s.fd := rfl
@[simp] theorem raise_din (k : FaultKind) (s : State) : (s.raise k).din = s.din := rfl
@[simp] theorem raise_de (k : FaultKind) (s : State) : (s.raise k).de = s.de := rfl
@[simp] theorem raise_em (k : FaultKind) (s : State) : (s.raise k).em = s.em := rfl
@[simp] theorem raise_mw (k : FaultKind) (s : State) : (s.raise k).mw = s.mw := rfl
@[simp] theorem raise_branchPending (k : FaultKind) (s : State) : (s.raise k).branchPending = s.branchPending := rfl
@[simp] theorem raise_fault (k : FaultKind) (s : State) : (s.raise k).fault = some { kind := k, addr := s.pc } := rfl
@[simp] theorem raise_recentStores (k : FaultKind) (s : State) : (s.raise k).recentStores = s.recentStores := rfl
@[simp] theorem raise_draws (k : FaultKind) (s : State) : (s.raise k).draws = s.draws + 1 := rfl

@[simp] theorem branch_params (b : Bool) (w : Nat) (o : BitVec w) (s : State) : (s.branch b o).params = s.params := rfl
@[simp] theorem branch_x (b : Bool) (w : Nat) (o : BitVec w) (s : State) : (s.branch b o).x = s.x := rfl
@[simp] theorem branch_pc (b : Bool) (w : Nat) (o : BitVec w) (s : State) : (s.branch b o).pc = if b then branchTarget s.pc o else s.pc + 1 := rfl
@[simp] theorem branch_mem (b : Bool) (w : Nat) (o : BitVec w) (s : State) : (s.branch b o).mem = s.mem := rfl
@[simp] theorem branch_mauAddr (b : Bool) (w : Nat) (o : BitVec w) (s : State) : (s.branch b o).mauAddr = s.mauAddr := rfl
@[simp] theorem branch_mauData (b : Bool) (w : Nat) (o : BitVec w) (s : State) : (s.branch b o).mauData = s.mauData := rfl
@[simp] theorem branch_ht (b : Bool) (w : Nat) (o : BitVec w) (s : State) : (s.branch b o).ht = s.ht := rfl
@[simp] theorem branch_fd (b : Bool) (w : Nat) (o : BitVec w) (s : State) : (s.branch b o).fd = s.fd := rfl
@[simp] theorem branch_din (b : Bool) (w : Nat) (o : BitVec w) (s : State) : (s.branch b o).din = s.din := rfl
@[simp] theorem branch_de (b : Bool) (w : Nat) (o : BitVec w) (s : State) : (s.branch b o).de = s.de := rfl
@[simp] theorem branch_em (b : Bool) (w : Nat) (o : BitVec w) (s : State) : (s.branch b o).em = s.em := rfl
@[simp] theorem branch_mw (b : Bool) (w : Nat) (o : BitVec w) (s : State) : (s.branch b o).mw = s.mw := rfl
@[simp] theorem branch_branchPending (b : Bool) (w : Nat) (o : BitVec w) (s : State) : (s.branch b o).branchPending = s.branchPending := rfl
@[simp] theorem branch_fault (b : Bool) (w : Nat) (o : BitVec w) (s : State) : (s.branch b o).fault = s.fault := rfl
@[simp] theorem branch_recentStores (b : Bool) (w : Nat) (o : BitVec w) (s : State) : (s.branch b o).recentStores = (none :: s.recentStores).take 2 := rfl
@[simp] theorem branch_draws (b : Bool) (w : Nat) (o : BitVec w) (s : State) : (s.branch b o).draws = s.draws := rfl

@[simp] theorem afterFetch_params (s : State) : (s.afterFetch).params = s.params := rfl
@[simp] theorem afterFetch_x (s : State) : (s.afterFetch).x = s.x := rfl
@[simp] theorem afterFetch_pc (s : State) : (s.afterFetch).pc = s.pc := rfl
@[simp] theorem afterFetch_mem (s : State) : (s.afterFetch).mem = s.mem := rfl
@[simp] theorem afterFetch_mauAddr (s : State) : (s.afterFetch).mauAddr = s.pc := rfl
@[simp] theorem afterFetch_mauData (s : State) : (s.afterFetch).mauData = s.fetchedWord := rfl
@[simp] theorem afterFetch_ht (s : State) : (s.afterFetch).ht = s.ht := rfl
@[simp] theorem afterFetch_fd (s : State) : (s.afterFetch).fd = s.fd := rfl
@[simp] theorem afterFetch_din (s : State) : (s.afterFetch).din = s.din := rfl
@[simp] theorem afterFetch_de (s : State) : (s.afterFetch).de = s.de := rfl
@[simp] theorem afterFetch_em (s : State) : (s.afterFetch).em = s.em := rfl
@[simp] theorem afterFetch_mw (s : State) : (s.afterFetch).mw = s.mw := rfl
@[simp] theorem afterFetch_branchPending (s : State) : (s.afterFetch).branchPending = s.branchPending := rfl
@[simp] theorem afterFetch_fault (s : State) : (s.afterFetch).fault = s.fault := rfl
@[simp] theorem afterFetch_recentStores (s : State) : (s.afterFetch).recentStores = s.recentStores := rfl
@[simp] theorem afterFetch_draws (s : State) : (s.afterFetch).draws = if s.settledAt s.pc then s.draws else s.draws + 1 := rfl

@[simp] theorem stopByDecode_params (k : FaultKind) (a : Word) (s : State) : (s.stopByDecode k a).params = s.params := rfl
@[simp] theorem stopByDecode_x (k : FaultKind) (a : Word) (s : State) : (s.stopByDecode k a).x = s.x := rfl
@[simp] theorem stopByDecode_pc (k : FaultKind) (a : Word) (s : State) : (s.stopByDecode k a).pc = s.pc := rfl
@[simp] theorem stopByDecode_mem (k : FaultKind) (a : Word) (s : State) : (s.stopByDecode k a).mem = s.mem := rfl
@[simp] theorem stopByDecode_mauAddr (k : FaultKind) (a : Word) (s : State) : (s.stopByDecode k a).mauAddr = s.mauAddr := rfl
@[simp] theorem stopByDecode_mauData (k : FaultKind) (a : Word) (s : State) : (s.stopByDecode k a).mauData = s.mauData := rfl
@[simp] theorem stopByDecode_ht (k : FaultKind) (a : Word) (s : State) : (s.stopByDecode k a).ht = s.ht := rfl
@[simp] theorem stopByDecode_fd (k : FaultKind) (a : Word) (s : State) : (s.stopByDecode k a).fd = none := rfl
@[simp] theorem stopByDecode_din (k : FaultKind) (a : Word) (s : State) : (s.stopByDecode k a).din = none := rfl
@[simp] theorem stopByDecode_de (k : FaultKind) (a : Word) (s : State) : (s.stopByDecode k a).de = s.de := rfl
@[simp] theorem stopByDecode_em (k : FaultKind) (a : Word) (s : State) : (s.stopByDecode k a).em = s.em := rfl
@[simp] theorem stopByDecode_mw (k : FaultKind) (a : Word) (s : State) : (s.stopByDecode k a).mw = s.mw := rfl
@[simp] theorem stopByDecode_branchPending (k : FaultKind) (a : Word) (s : State) : (s.stopByDecode k a).branchPending = s.branchPending := rfl
@[simp] theorem stopByDecode_fault (k : FaultKind) (a : Word) (s : State) : (s.stopByDecode k a).fault = some { kind := k, addr := a } := rfl
@[simp] theorem stopByDecode_recentStores (k : FaultKind) (a : Word) (s : State) : (s.stopByDecode k a).recentStores = s.recentStores := rfl
@[simp] theorem stopByDecode_draws (k : FaultKind) (a : Word) (s : State) : (s.stopByDecode k a).draws = s.draws := rfl

@[simp] theorem stopByMemory_params (e : ExecuteMemory) (s : State) : (s.stopByMemory e).params = s.params := rfl
@[simp] theorem stopByMemory_x (e : ExecuteMemory) (s : State) : (s.stopByMemory e).x = s.x := rfl
@[simp] theorem stopByMemory_pc (e : ExecuteMemory) (s : State) : (s.stopByMemory e).pc = s.pc := rfl
@[simp] theorem stopByMemory_mem (e : ExecuteMemory) (s : State) : (s.stopByMemory e).mem = s.mem := rfl
@[simp] theorem stopByMemory_mauAddr (e : ExecuteMemory) (s : State) : (s.stopByMemory e).mauAddr = s.mauAddr := rfl
@[simp] theorem stopByMemory_mauData (e : ExecuteMemory) (s : State) : (s.stopByMemory e).mauData = s.mauData := rfl
@[simp] theorem stopByMemory_ht (e : ExecuteMemory) (s : State) : (s.stopByMemory e).ht = htDropYoungest (discardedLocks e s.de) s.ht := rfl
@[simp] theorem stopByMemory_fd (e : ExecuteMemory) (s : State) : (s.stopByMemory e).fd = none := rfl
@[simp] theorem stopByMemory_din (e : ExecuteMemory) (s : State) : (s.stopByMemory e).din = none := rfl
@[simp] theorem stopByMemory_de (e : ExecuteMemory) (s : State) : (s.stopByMemory e).de = none := rfl
@[simp] theorem stopByMemory_em (e : ExecuteMemory) (s : State) : (s.stopByMemory e).em = none := rfl
@[simp] theorem stopByMemory_mw (e : ExecuteMemory) (s : State) : (s.stopByMemory e).mw = s.mw := rfl
@[simp] theorem stopByMemory_branchPending (e : ExecuteMemory) (s : State) : (s.stopByMemory e).branchPending = false := rfl
@[simp] theorem stopByMemory_fault (e : ExecuteMemory) (s : State) : (s.stopByMemory e).fault = some { kind := .memoryRange, addr := e.instrAddr } := rfl
@[simp] theorem stopByMemory_recentStores (e : ExecuteMemory) (s : State) : (s.stopByMemory e).recentStores = s.recentStores := rfl
@[simp] theorem stopByMemory_draws (e : ExecuteMemory) (s : State) : (s.stopByMemory e).draws = s.draws := rfl

@[simp] theorem issue_params (k : Mnemonic) (r : FetchDecode) (s : State) : (s.issue k r).params = s.params := rfl
@[simp] theorem issue_x (k : Mnemonic) (r : FetchDecode) (s : State) : (s.issue k r).x = s.x := rfl
@[simp] theorem issue_pc (k : Mnemonic) (r : FetchDecode) (s : State) : (s.issue k r).pc = s.pc := rfl
@[simp] theorem issue_mem (k : Mnemonic) (r : FetchDecode) (s : State) : (s.issue k r).mem = s.mem := rfl
@[simp] theorem issue_mauAddr (k : Mnemonic) (r : FetchDecode) (s : State) : (s.issue k r).mauAddr = s.mauAddr := rfl
@[simp] theorem issue_mauData (k : Mnemonic) (r : FetchDecode) (s : State) : (s.issue k r).mauData = s.mauData := rfl
@[simp] theorem issue_ht (k : Mnemonic) (r : FetchDecode) (s : State) : (s.issue k r).ht = if k.hasDest then htEnqueue (fieldRd r.instructionWord) s.ht else s.ht := rfl
@[simp] theorem issue_fd (k : Mnemonic) (r : FetchDecode) (s : State) : (s.issue k r).fd = s.fd := rfl
@[simp] theorem issue_din (k : Mnemonic) (r : FetchDecode) (s : State) : (s.issue k r).din = none := rfl
@[simp] theorem issue_de (k : Mnemonic) (r : FetchDecode) (s : State) : (s.issue k r).de = some (microOp (fun i => s.readReg i) k r) := rfl
@[simp] theorem issue_em (k : Mnemonic) (r : FetchDecode) (s : State) : (s.issue k r).em = s.em := rfl
@[simp] theorem issue_mw (k : Mnemonic) (r : FetchDecode) (s : State) : (s.issue k r).mw = s.mw := rfl
@[simp] theorem issue_branchPending (k : Mnemonic) (r : FetchDecode) (s : State) : (s.issue k r).branchPending = if k.isBranch then true else s.branchPending := rfl
@[simp] theorem issue_fault (k : Mnemonic) (r : FetchDecode) (s : State) : (s.issue k r).fault = s.fault := rfl
@[simp] theorem issue_recentStores (k : Mnemonic) (r : FetchDecode) (s : State) : (s.issue k r).recentStores = s.recentStores := rfl
@[simp] theorem issue_draws (k : Mnemonic) (r : FetchDecode) (s : State) : (s.issue k r).draws = s.draws := rfl

@[simp] theorem writeReg_params (i : RegIx) (v : XVal) (s : State) : (s.writeReg i v).params = s.params := by
  unfold State.writeReg; split <;> rfl
@[simp] theorem writeReg_pc (i : RegIx) (v : XVal) (s : State) : (s.writeReg i v).pc = s.pc := by
  unfold State.writeReg; split <;> rfl
@[simp] theorem writeReg_mem (i : RegIx) (v : XVal) (s : State) : (s.writeReg i v).mem = s.mem := by
  unfold State.writeReg; split <;> rfl
@[simp] theorem writeReg_mauAddr (i : RegIx) (v : XVal) (s : State) : (s.writeReg i v).mauAddr = s.mauAddr := by
  unfold State.writeReg; split <;> rfl
@[simp] theorem writeReg_mauData (i : RegIx) (v : XVal) (s : State) : (s.writeReg i v).mauData = s.mauData := by
  unfold State.writeReg; split <;> rfl
@[simp] theorem writeReg_ht (i : RegIx) (v : XVal) (s : State) : (s.writeReg i v).ht = s.ht := by
  unfold State.writeReg; split <;> rfl
@[simp] theorem writeReg_fd (i : RegIx) (v : XVal) (s : State) : (s.writeReg i v).fd = s.fd := by
  unfold State.writeReg; split <;> rfl
@[simp] theorem writeReg_din (i : RegIx) (v : XVal) (s : State) : (s.writeReg i v).din = s.din := by
  unfold State.writeReg; split <;> rfl
@[simp] theorem writeReg_de (i : RegIx) (v : XVal) (s : State) : (s.writeReg i v).de = s.de := by
  unfold State.writeReg; split <;> rfl
@[simp] theorem writeReg_em (i : RegIx) (v : XVal) (s : State) : (s.writeReg i v).em = s.em := by
  unfold State.writeReg; split <;> rfl
@[simp] theorem writeReg_mw (i : RegIx) (v : XVal) (s : State) : (s.writeReg i v).mw = s.mw := by
  unfold State.writeReg; split <;> rfl
@[simp] theorem writeReg_branchPending (i : RegIx) (v : XVal) (s : State) : (s.writeReg i v).branchPending = s.branchPending := by
  unfold State.writeReg; split <;> rfl
@[simp] theorem writeReg_fault (i : RegIx) (v : XVal) (s : State) : (s.writeReg i v).fault = s.fault := by
  unfold State.writeReg; split <;> rfl
@[simp] theorem writeReg_recentStores (i : RegIx) (v : XVal) (s : State) : (s.writeReg i v).recentStores = s.recentStores := by
  unfold State.writeReg; split <;> rfl
@[simp] theorem writeReg_draws (i : RegIx) (v : XVal) (s : State) : (s.writeReg i v).draws = s.draws := by
  unfold State.writeReg; split <;> rfl

@[simp] theorem resolveBranch_params (k : Mnemonic) (m : DecodeExecute) (s : State) :
    (s.resolveBranch k m).params = s.params := by
  cases h : k.isBranch <;> simp [State.resolveBranch, h]
@[simp] theorem resolveBranch_x (k : Mnemonic) (m : DecodeExecute) (s : State) :
    (s.resolveBranch k m).x = s.x := by
  cases h : k.isBranch <;> simp [State.resolveBranch, h]
@[simp] theorem resolveBranch_pc (k : Mnemonic) (m : DecodeExecute) (s : State) :
    (s.resolveBranch k m).pc = if k.isBranch && branchTaken k m then microOpTarget m else s.pc := by
  cases h : k.isBranch <;> simp [State.resolveBranch, h]
@[simp] theorem resolveBranch_mem (k : Mnemonic) (m : DecodeExecute) (s : State) :
    (s.resolveBranch k m).mem = s.mem := by
  cases h : k.isBranch <;> simp [State.resolveBranch, h]
@[simp] theorem resolveBranch_mauAddr (k : Mnemonic) (m : DecodeExecute) (s : State) :
    (s.resolveBranch k m).mauAddr = s.mauAddr := by
  cases h : k.isBranch <;> simp [State.resolveBranch, h]
@[simp] theorem resolveBranch_mauData (k : Mnemonic) (m : DecodeExecute) (s : State) :
    (s.resolveBranch k m).mauData = s.mauData := by
  cases h : k.isBranch <;> simp [State.resolveBranch, h]
@[simp] theorem resolveBranch_ht (k : Mnemonic) (m : DecodeExecute) (s : State) :
    (s.resolveBranch k m).ht = s.ht := by
  cases h : k.isBranch <;> simp [State.resolveBranch, h]
@[simp] theorem resolveBranch_fd (k : Mnemonic) (m : DecodeExecute) (s : State) :
    (s.resolveBranch k m).fd = if k.isBranch && branchTaken k m then none else s.fd := by
  cases h : k.isBranch <;> simp [State.resolveBranch, h]
@[simp] theorem resolveBranch_din (k : Mnemonic) (m : DecodeExecute) (s : State) :
    (s.resolveBranch k m).din = s.din := by
  cases h : k.isBranch <;> simp [State.resolveBranch, h]
@[simp] theorem resolveBranch_de (k : Mnemonic) (m : DecodeExecute) (s : State) :
    (s.resolveBranch k m).de = s.de := by
  cases h : k.isBranch <;> simp [State.resolveBranch, h]
@[simp] theorem resolveBranch_em (k : Mnemonic) (m : DecodeExecute) (s : State) :
    (s.resolveBranch k m).em = s.em := by
  cases h : k.isBranch <;> simp [State.resolveBranch, h]
@[simp] theorem resolveBranch_mw (k : Mnemonic) (m : DecodeExecute) (s : State) :
    (s.resolveBranch k m).mw = s.mw := by
  cases h : k.isBranch <;> simp [State.resolveBranch, h]
@[simp] theorem resolveBranch_branchPending (k : Mnemonic) (m : DecodeExecute) (s : State) :
    (s.resolveBranch k m).branchPending = if k.isBranch then false else s.branchPending := by
  cases h : k.isBranch <;> simp [State.resolveBranch, h]
@[simp] theorem resolveBranch_fault (k : Mnemonic) (m : DecodeExecute) (s : State) :
    (s.resolveBranch k m).fault = s.fault := by
  cases h : k.isBranch <;> simp [State.resolveBranch, h]
@[simp] theorem resolveBranch_recentStores (k : Mnemonic) (m : DecodeExecute) (s : State) :
    (s.resolveBranch k m).recentStores = s.recentStores := by
  cases h : k.isBranch <;> simp [State.resolveBranch, h]
@[simp] theorem resolveBranch_draws (k : Mnemonic) (m : DecodeExecute) (s : State) :
    (s.resolveBranch k m).draws = s.draws := by
  cases h : k.isBranch <;> simp [State.resolveBranch, h]

end Sys2Proof.Machine
end

