-- ==== Sys2Proof/Laws/Registers.lean ====
section
/-! SUPPORT. Registers: register 31 reads 0 and keeps nothing; a write is seen in its own register and
nowhere else. -/

namespace Sys2Proof.Machine

open Sys2Proof

theorem toNat_lt_31 {r : RegIx} (h : r ≠ xzr) : r.toNat < 31 := by
  have h1 := r.isLt
  have h2 : r.toNat ≠ 31 := fun e => h (BitVec.eq_of_toNat_eq (by simpa [xzr] using e))
  omega

/-- The value of `readReg` in terms of the register file: it depends on `x` alone. -/
theorem readReg_congr {s t : State} (h : s.x = t.x) (r : RegIx) : s.readReg r = t.readReg r := by
  unfold State.readReg; rw [h]

/-- A write to register 31 changes nothing. -/
theorem writeReg_eq_self_of_xzr (v : XVal) (s : State) : s.writeReg xzr v = s := by
  unfold State.writeReg; rw [dif_neg (by decide)]

theorem readReg_writeReg_self {r : RegIx} (h : r ≠ xzr) (v : XVal) (s : State) :
    (s.writeReg r v).readReg r = v := by
  have hr := toNat_lt_31 h
  simp [State.writeReg, State.readReg, hr]

theorem readReg_writeReg_ne {r q : RegIx} (h : q ≠ r) (v : XVal) (s : State) :
    (s.writeReg r v).readReg q = s.readReg q := by
  have hne : r.toNat ≠ q.toNat := fun e => h (BitVec.eq_of_toNat_eq e.symm)
  unfold State.writeReg State.readReg
  split
  · next h1 =>
    split
    · next h2 => exact Vector.getElem_set_ne h2 h1 hne
    · rfl
  · rfl

/-- Reading any register after a write. -/
theorem readReg_writeReg (r q : RegIx) (v : XVal) (s : State) :
    (s.writeReg r v).readReg q = if q = r ∧ r ≠ xzr then v else s.readReg q := by
  by_cases h : q = r
  · subst h
    by_cases hx : q = xzr
    · subst hx; simp [writeReg_eq_self_of_xzr]
    · simp [readReg_writeReg_self hx, hx]
  · simp [readReg_writeReg_ne h, h]

/-- What is read after an update that leaves the register file alone. -/
@[simp] theorem readReg_retire (n : Word) (u : Option StoreUndo) (s : State) (r : RegIx) :
    (s.retire n u).readReg r = s.readReg r := rfl
@[simp] theorem readReg_advance (s : State) (r : RegIx) : s.advance.readReg r = s.readReg r := rfl
@[simp] theorem readReg_raise (k : FaultKind) (s : State) (r : RegIx) :
    (s.raise k).readReg r = s.readReg r := rfl
@[simp] theorem readReg_branch (b : Bool) (w : Nat) (o : BitVec w) (s : State) (r : RegIx) :
    (s.branch b o).readReg r = s.readReg r := rfl
@[simp] theorem readReg_afterFetch (s : State) (r : RegIx) :
    s.afterFetch.readReg r = s.readReg r := rfl

end Sys2Proof.Machine
end

