-- ==== Sys2Proof/Laws/Ops.lean ====
section
/-! SUPPORT. What each shared operation of Machine/Ops.lean can do, said once. -/

namespace Sys2Proof.Machine

open Sys2Proof

/-- A read transaction inside memory leaves the latches at the address and the word; outside there is
none. -/
theorem readTransaction_eq (a : Word) (s : State) :
    s.readTransaction a =
      if inRange s.params a.toNat then
        some { s with mauAddr := a, mauData := Memory.read s.mem a.toNat }
      else none := rfl

/-- A write transaction inside memory leaves the latches at the address and the word, which is then in
memory; outside there is none. -/
theorem writeTransaction_eq (a d : Word) (s : State) :
    s.writeTransaction a d =
      if inRange s.params a.toNat then
        some { s with mauAddr := a, mauData := d, mem := Memory.write s.mem a.toNat d }
      else none := rfl

theorem memRead_eq (ea : XVal) (s : State) :
    s.memRead ea =
      if inRange s.params ea.toNat then
        some { s with
          mauAddr := truncWord ea
          mauData := Memory.read s.mem (truncWord ea).toNat }
      else none := by
  unfold State.memRead
  by_cases h : inRange s.params ea.toNat = true
  · simp [h, readTransaction_eq, inRange_truncWord h]
  · simp [h]

theorem memWrite_eq (ea : XVal) (d : Word) (s : State) :
    s.memWrite ea d =
      if inRange s.params ea.toNat then
        some { s with
          mauAddr := truncWord ea
          mauData := d
          mem := Memory.write s.mem (truncWord ea).toNat d }
      else none := by
  unfold State.memWrite
  by_cases h : inRange s.params ea.toNat = true
  · simp [h, writeTransaction_eq, inRange_truncWord h]
  · simp [h]

/-- A destination of 31 is the error, every other is written and the next instruction follows. -/
theorem writeDest_cases (rd : RegIx) (v : XVal) (s : State) :
    (rd = xzr ∧ s.writeDest rd v = s.raise .illegalDestination) ∨
    (rd ≠ xzr ∧ s.writeDest rd v = (s.writeReg rd v).advance) := by
  unfold State.writeDest
  by_cases h : rd = xzr
  · exact .inl ⟨h, if_pos h⟩
  · exact .inr ⟨h, if_neg h⟩

/-- A load: the destination is checked before the address. -/
theorem load_cases (rt rn : RegIx) (off : BitVec 9) (s : State) :
    (rt = xzr ∧ s.load rt rn off = s.raise .illegalDestination) ∨
    (rt ≠ xzr ∧ inRange s.params (effectiveAddress s.params (s.readReg rn) off).toNat = false ∧
      s.load rt rn off = s.raise .memoryRange) ∨
    (rt ≠ xzr ∧ inRange s.params (effectiveAddress s.params (s.readReg rn) off).toNat = true ∧
      s.load rt rn off =
        (({ s with
            mauAddr := truncWord (effectiveAddress s.params (s.readReg rn) off)
            mauData := Memory.read s.mem
              (truncWord (effectiveAddress s.params (s.readReg rn) off)).toNat } : State).writeReg rt
          (zextWord (Memory.read s.mem
            (truncWord (effectiveAddress s.params (s.readReg rn) off)).toNat))).advance) := by
  by_cases h : rt = xzr
  · exact .inl ⟨h, if_pos h⟩
  · refine .inr ?_
    cases hr : inRange s.params (effectiveAddress s.params (s.readReg rn) off).toNat
    · exact .inl ⟨h, rfl, by simp [State.load, h, memRead_eq, hr]⟩
    · exact .inr ⟨h, rfl, by simp [State.load, h, memRead_eq, hr, State.getData]⟩

/-- A store: the address outside memory is the error, else the word is written and recorded. -/
theorem store_cases (rt rn : RegIx) (off : BitVec 9) (s : State) :
    (inRange s.params (effectiveAddress s.params (s.readReg rn) off).toNat = false ∧
      s.store rt rn off = s.raise .memoryRange) ∨
    (inRange s.params (effectiveAddress s.params (s.readReg rn) off).toNat = true ∧
      s.store rt rn off =
        { s with
          mauAddr := truncWord (effectiveAddress s.params (s.readReg rn) off)
          mauData := truncWord (s.readReg rt)
          mem := Memory.write s.mem
            (truncWord (effectiveAddress s.params (s.readReg rn) off)).toNat
            (truncWord (s.readReg rt))
          pc := s.pc + 1
          recentStores :=
            (some { addr := truncWord (effectiveAddress s.params (s.readReg rn) off)
                    old := Memory.read s.mem
                      (truncWord (effectiveAddress s.params (s.readReg rn) off)).toNat } ::
              s.recentStores).take 2 }) := by
  cases hr : inRange s.params (effectiveAddress s.params (s.readReg rn) off).toNat
  · exact .inl ⟨rfl, by simp [State.store, memWrite_eq, hr]⟩
  · exact .inr ⟨rfl, by simp [State.store, memWrite_eq, hr, State.retire]⟩

end Sys2Proof.Machine
end

