-- ==== Sys2Proof/Laws/InstrStep.lean ====
section
/-! SUPPORT. The sequential step: the word fetched from a settled address is the one in memory; a word
placed for the fetch is fetched. -/

namespace Sys2Proof.Machine

open Sys2Proof

theorem fetchedWord_of_settled {s : State} (h : s.settledAt s.pc = true) :
    s.fetchedWord = Memory.read s.mem s.pc.toNat := by
  unfold State.fetchedWord; rw [if_pos h]

@[simp] theorem settledAt_of_recent_nil {s : State} (h : s.recentStores = []) (a : Word) :
    s.settledAt a = true := by
  unfold State.settledAt; rw [h]; rfl

/-- A settled fetch leaves its address and its word in the latches and draws nothing. -/
theorem afterFetch_of_settled {s : State} (h : s.settledAt s.pc = true) :
    s.afterFetch = { s with mauAddr := s.pc, mauData := Memory.read s.mem s.pc.toNat } := by
  unfold State.afterFetch; rw [fetchedWord_of_settled h, if_pos h]

/-- Undoing no instruction leaves the word in memory. -/
@[simp] theorem undoStores_zero (us : List (Option StoreUndo)) (a w : Word) :
    undoStores 0 us a w = w := rfl

@[simp] theorem undoStores_nil (n : Nat) (a w : Word) : undoStores n [] a w = w := by
  cases n <;> rfl

/-- What undoing instructions can give: the word itself, or what one of them that stored to the address
stored over. -/
theorem undoStores_cases (n : Nat) (l : List (Option StoreUndo)) (a w : Word) :
    undoStores n l a w = w ∨ ∃ u, some u ∈ l ∧ u.addr = a ∧ undoStores n l a w = u.old := by
  induction n generalizing l w with
  | zero => cases l <;> exact .inl rfl
  | succ n ih =>
    match l with
    | [] => exact .inl rfl
    | none :: l =>
      obtain h | ⟨u, hu, ha, h⟩ := ih l w
      · exact .inl h
      · exact .inr ⟨u, List.mem_cons_of_mem _ hu, ha, h⟩
    | some v :: l =>
      obtain h | ⟨u, hu, ha, h⟩ := ih l (if v.addr = a then v.old else w)
      · by_cases hv : v.addr = a
        · exact .inr ⟨v, List.mem_cons_self, hv, h.trans (if_pos hv)⟩
        · exact .inl (h.trans (if_neg hv))
      · exact .inr ⟨u, List.mem_cons_of_mem _ hu, ha, h⟩

end Sys2Proof.Machine
end

