-- ==== Sys2Proof/Laws/PerInstr.lean ====
section
/-! SUPPORT. Families of one lemma per instruction. `ClassifyEncode`: the word that the encoder writes
for an instruction is classified as that instruction's own row of the opcode map, whatever the
operands. -/

namespace Sys2Proof.Laws.ClassifyEncode

open Sys2Proof

/-- The word of `i` lies in the `opcode11` range of `i`'s own row. -/
def Statement (i : Instr) : Prop := classify (encode i) = some i.mnemonic

/-- A value of `opcode11` inside a row of the map is found there: the rows do not overlap. -/
theorem findRow_of_range :
    ∀ r ∈ opcodeMap, ∀ op, r.lo ≤ op → op ≤ r.hi → findRow opcodeMap op = some r.mnemonic := by
  intro r hr op h1 h2
  simp only [opcodeMap, List.mem_cons, List.not_mem_nil, or_false] at hr
  rcases hr with rfl | rfl | rfl | rfl | rfl | rfl | rfl | rfl | rfl | rfl | rfl | rfl | rfl | rfl |
    rfl | rfl | rfl | rfl | rfl | rfl | rfl <;>
  (simp only at h1 h2; interval_cases op <;> rfl)

/-- The row of a word, from the bounds on its `opcode11`. -/
theorem classify_of_range {w : Word} (r : OpcodeRow) (hr : r ∈ opcodeMap)
    (h1 : r.lo ≤ (opcode11 w).toNat) (h2 : (opcode11 w).toNat ≤ r.hi) :
    classify w = some r.mnemonic :=
  findRow_of_range r hr _ h1 h2

theorem b (off : BitVec 26) :
    Statement (.b off) :=
  classify_of_range ⟨.b, 0x0A0, 0x0BF⟩ (by decide)
    (by unfold encode; rw [opcode11_encodeB]; show 0x0A0 ≤ 5 * 32 + off.toNat / 2097152; omega)
    (by have := off.isLt; unfold encode; rw [opcode11_encodeB]; show 5 * 32 + off.toNat / 2097152 ≤ 0x0BF; omega)

theorem sturb (rt : RegIx) (rn : RegIx) (off : BitVec 9) :
    Statement (.sturb rt rn off) :=
  classify_of_range ⟨.sturb, 0x1C0, 0x1C0⟩ (by decide)
    (by unfold encode; rw [opcode11_encodeD]; decide)
    (by unfold encode; rw [opcode11_encodeD]; decide)

theorem ldurb (rt : RegIx) (rn : RegIx) (off : BitVec 9) :
    Statement (.ldurb rt rn off) :=
  classify_of_range ⟨.ldurb, 0x1C2, 0x1C2⟩ (by decide)
    (by unfold encode; rw [opcode11_encodeD]; decide)
    (by unfold encode; rw [opcode11_encodeD]; decide)

theorem sturh (rt : RegIx) (rn : RegIx) (off : BitVec 9) :
    Statement (.sturh rt rn off) :=
  classify_of_range ⟨.sturh, 0x3C0, 0x3C0⟩ (by decide)
    (by unfold encode; rw [opcode11_encodeD]; decide)
    (by unfold encode; rw [opcode11_encodeD]; decide)

theorem ldurh (rt : RegIx) (rn : RegIx) (off : BitVec 9) :
    Statement (.ldurh rt rn off) :=
  classify_of_range ⟨.ldurh, 0x3C2, 0x3C2⟩ (by decide)
    (by unfold encode; rw [opcode11_encodeD]; decide)
    (by unfold encode; rw [opcode11_encodeD]; decide)

theorem add (rd : RegIx) (rn : RegIx) (rm : RegIx) :
    Statement (.add rd rn rm) :=
  classify_of_range ⟨.add, 0x458, 0x458⟩ (by decide)
    (by unfold encode; rw [opcode11_encodeR]; decide)
    (by unfold encode; rw [opcode11_encodeR]; decide)

theorem addi (rd : RegIx) (rn : RegIx) (imm : BitVec 12) :
    Statement (.addi rd rn imm) :=
  classify_of_range ⟨.addi, 0x488, 0x489⟩ (by decide)
    (by unfold encode; rw [opcode11_encodeI]; show 0x488 ≤ 580 * 2 + imm.toNat / 2048; omega)
    (by have := imm.isLt; unfold encode; rw [opcode11_encodeI]; show 580 * 2 + imm.toNat / 2048 ≤ 0x489; omega)

theorem adds (rd : RegIx) (rn : RegIx) (rm : RegIx) :
    Statement (.adds rd rn rm) :=
  classify_of_range ⟨.adds, 0x558, 0x558⟩ (by decide)
    (by unfold encode; rw [opcode11_encodeR]; decide)
    (by unfold encode; rw [opcode11_encodeR]; decide)

theorem addis (rd : RegIx) (rn : RegIx) (imm : BitVec 12) :
    Statement (.addis rd rn imm) :=
  classify_of_range ⟨.addis, 0x588, 0x589⟩ (by decide)
    (by unfold encode; rw [opcode11_encodeI]; show 0x588 ≤ 708 * 2 + imm.toNat / 2048; omega)
    (by have := imm.isLt; unfold encode; rw [opcode11_encodeI]; show 708 * 2 + imm.toNat / 2048 ≤ 0x589; omega)

theorem cbz (rt : RegIx) (off : BitVec 19) :
    Statement (.cbz rt off) :=
  classify_of_range ⟨.cbz, 0x5A0, 0x5A7⟩ (by decide)
    (by unfold encode; rw [opcode11_encodeCB]; show 0x5A0 ≤ 180 * 8 + off.toNat / 65536; omega)
    (by have := off.isLt; unfold encode; rw [opcode11_encodeCB]; show 180 * 8 + off.toNat / 65536 ≤ 0x5A7; omega)

theorem cbnz (rt : RegIx) (off : BitVec 19) :
    Statement (.cbnz rt off) :=
  classify_of_range ⟨.cbnz, 0x5A8, 0x5AF⟩ (by decide)
    (by unfold encode; rw [opcode11_encodeCB]; show 0x5A8 ≤ 181 * 8 + off.toNat / 65536; omega)
    (by have := off.isLt; unfold encode; rw [opcode11_encodeCB]; show 181 * 8 + off.toNat / 65536 ≤ 0x5AF; omega)

theorem sturw (rt : RegIx) (rn : RegIx) (off : BitVec 9) :
    Statement (.sturw rt rn off) :=
  classify_of_range ⟨.sturw, 0x5C0, 0x5C0⟩ (by decide)
    (by unfold encode; rw [opcode11_encodeD]; decide)
    (by unfold encode; rw [opcode11_encodeD]; decide)

theorem ldursw (rt : RegIx) (rn : RegIx) (off : BitVec 9) :
    Statement (.ldursw rt rn off) :=
  classify_of_range ⟨.ldursw, 0x5C4, 0x5C4⟩ (by decide)
    (by unfold encode; rw [opcode11_encodeD]; decide)
    (by unfold encode; rw [opcode11_encodeD]; decide)

theorem sub (rd : RegIx) (rn : RegIx) (rm : RegIx) :
    Statement (.sub rd rn rm) :=
  classify_of_range ⟨.sub, 0x658, 0x658⟩ (by decide)
    (by unfold encode; rw [opcode11_encodeR]; decide)
    (by unfold encode; rw [opcode11_encodeR]; decide)

theorem subi (rd : RegIx) (rn : RegIx) (imm : BitVec 12) :
    Statement (.subi rd rn imm) :=
  classify_of_range ⟨.subi, 0x688, 0x689⟩ (by decide)
    (by unfold encode; rw [opcode11_encodeI]; show 0x688 ≤ 836 * 2 + imm.toNat / 2048; omega)
    (by have := imm.isLt; unfold encode; rw [opcode11_encodeI]; show 836 * 2 + imm.toNat / 2048 ≤ 0x689; omega)

theorem movz (rd : RegIx) (imm : BitVec 16) (hw : BitVec 2) :
    Statement (.movz rd imm hw) :=
  classify_of_range ⟨.movz, 0x694, 0x697⟩ (by decide)
    (by unfold encode; rw [opcode11_encodeIM]; show 0x694 ≤ 421 * 4 + hw.toNat; omega)
    (by have := hw.isLt; unfold encode; rw [opcode11_encodeIM]; show 421 * 4 + hw.toNat ≤ 0x697; omega)

theorem subs (rd : RegIx) (rn : RegIx) (rm : RegIx) :
    Statement (.subs rd rn rm) :=
  classify_of_range ⟨.subs, 0x758, 0x758⟩ (by decide)
    (by unfold encode; rw [opcode11_encodeR]; decide)
    (by unfold encode; rw [opcode11_encodeR]; decide)

theorem subis (rd : RegIx) (rn : RegIx) (imm : BitVec 12) :
    Statement (.subis rd rn imm) :=
  classify_of_range ⟨.subis, 0x788, 0x789⟩ (by decide)
    (by unfold encode; rw [opcode11_encodeI]; show 0x788 ≤ 964 * 2 + imm.toNat / 2048; omega)
    (by have := imm.isLt; unfold encode; rw [opcode11_encodeI]; show 964 * 2 + imm.toNat / 2048 ≤ 0x789; omega)

theorem movk (rd : RegIx) (imm : BitVec 16) (hw : BitVec 2) :
    Statement (.movk rd imm hw) :=
  classify_of_range ⟨.movk, 0x794, 0x797⟩ (by decide)
    (by unfold encode; rw [opcode11_encodeIM]; show 0x794 ≤ 485 * 4 + hw.toNat; omega)
    (by have := hw.isLt; unfold encode; rw [opcode11_encodeIM]; show 485 * 4 + hw.toNat ≤ 0x797; omega)

theorem stur (rt : RegIx) (rn : RegIx) (off : BitVec 9) :
    Statement (.stur rt rn off) :=
  classify_of_range ⟨.stur, 0x7C0, 0x7C0⟩ (by decide)
    (by unfold encode; rw [opcode11_encodeD]; decide)
    (by unfold encode; rw [opcode11_encodeD]; decide)

theorem ldur (rt : RegIx) (rn : RegIx) (off : BitVec 9) :
    Statement (.ldur rt rn off) :=
  classify_of_range ⟨.ldur, 0x7C2, 0x7C2⟩ (by decide)
    (by unfold encode; rw [opcode11_encodeD]; decide)
    (by unfold encode; rw [opcode11_encodeD]; decide)

end Sys2Proof.Laws.ClassifyEncode
end

