-- ==== Sys2Proof/Laws/Pipeline.lean ====
section
/-! SUPPORT. What each of the six pipeline steps can do, said once: if the step is taken, then its guard
held and the next state is one of those listed. -/

namespace Sys2Proof.Machine

open Sys2Proof

/-- FETCH (R104, R105). -/
theorem fetchStep_cases {s t : State} (h : fetchStep s = some t) :
    s.fd = none ∧ s.fault = none ∧
    ((inRange s.params s.pc.toNat = true ∧
        t = { s with
          mauAddr := s.pc
          mauData := Memory.read s.mem s.pc.toNat
          pc := s.pc + 1
          fd := some { instructionWord := Memory.read s.mem s.pc.toNat
                       nextPC := s.pc + 1
                       fetchFault := false } }) ∨
     (inRange s.params s.pc.toNat = false ∧
        t = { s with
          pc := s.pc + 1
          fd := some { instructionWord := 0, nextPC := s.pc + 1, fetchFault := true } })) := by
  unfold fetchStep at h
  split at h
  · next hg =>
    simp only [State.fetchReady, Bool.and_eq_true, Option.isNone_iff_eq_none] at hg
    refine ⟨hg.1, hg.2, ?_⟩
    cases hr : inRange s.params s.pc.toNat
    · right
      simp only [hr, Bool.false_eq_true, if_false, Option.some.injEq] at h
      exact ⟨rfl, h.symm⟩
    · left
      simp only [readTransaction_eq, hr, if_true, Option.map_some, Option.some.injEq,
        State.getData] at h
      exact ⟨rfl, h.symm⟩
  · cases h

/-- DEC_ACCEPT (R111). -/
theorem decAcceptStep_cases {s t : State} (h : decAcceptStep s = some t) :
    ∃ r, s.fd = some r ∧ s.din = none ∧ s.de = none ∧ s.branchPending = false ∧ s.fault = none ∧
      t = { s with din := some r, fd := none } := by
  unfold decAcceptStep at h
  split at h
  · cases h
  · next r hr =>
    split at h
    · next hg =>
      simp only [Bool.and_eq_true, Option.isNone_iff_eq_none, Bool.not_eq_true'] at hg
      exact ⟨r, hr, hg.1.1.1, hg.1.1.2, hg.1.2, hg.2, (Option.some.inj h).symm⟩
    · cases h

/-- DEC_ISSUE (R113, R114, R115): a fatal error, or the micro-op of a known mnemonic whose sources are
free. -/
theorem decIssueStep_cases {s t : State} (h : decIssueStep s = some t) :
    ∃ r, s.din = some r ∧
    ((∃ kind, decodeFault r = some kind ∧ t = s.stopByDecode kind (instrAddrOf r.nextPC)) ∨
     (∃ k, decodeFault r = none ∧ classify r.instructionWord = some k ∧
        (∀ q ∈ sources k r.instructionWord, htContains q s.ht = false) ∧ t = s.issue k r)) := by
  unfold decIssueStep at h
  split at h
  · cases h
  · next r hr =>
    refine ⟨r, hr, ?_⟩
    split at h
    · next kind hk => exact .inl ⟨kind, hk, (Option.some.inj h).symm⟩
    · next k hf hk =>
      split at h
      · cases h
      · next hs =>
        refine .inr ⟨k, hf, hk, fun q hq => ?_, (Option.some.inj h).symm⟩
        simp only [List.any_eq_true, not_exists, not_and, Bool.not_eq_true] at hs
        exact hs q hq
    · cases h

/-- EXECUTE (R123, R125). -/
theorem executeStep_cases {s t : State} (h : executeStep s = some t) :
    ∃ m k, s.de = some m ∧ s.em = none ∧ classify m.instructionWord = some k ∧
      t = { s.resolveBranch k m with em := some (executed s.params k m), de := none } := by
  unfold executeStep at h
  split at h
  · cases h
  · next m hm =>
    split at h
    · next he =>
      rw [Option.map_eq_some_iff] at h
      obtain ⟨k, hk, ht⟩ := h
      exact ⟨m, k, hm, Option.isNone_iff_eq_none.mp he, hk, ht.symm⟩
    · cases h

/-- MEMORY (R128): pass through, stop, load or store. -/
theorem memoryStep_cases {s t : State} (h : memoryStep s = some t) :
    ∃ e, s.em = some e ∧ s.mw = none ∧
    ((e.isMemoryOp = false ∧ t = { s with mw := some e, em := none }) ∨
     (e.isMemoryOp = true ∧ inRange s.params e.aluOrAddressResult.toNat = false ∧
        t = s.stopByMemory e) ∨
     (e.isMemoryOp = true ∧ inRange s.params e.aluOrAddressResult.toNat = true ∧
        e.destinationLockAdded = true ∧
        t = { s with
          mauAddr := truncWord e.aluOrAddressResult
          mauData := Memory.read s.mem (truncWord e.aluOrAddressResult).toNat
          mw := some { e with
            aluOrAddressResult :=
              zextWord (Memory.read s.mem (truncWord e.aluOrAddressResult).toNat) }
          em := none }) ∨
     (e.isMemoryOp = true ∧ inRange s.params e.aluOrAddressResult.toNat = true ∧
        e.destinationLockAdded = false ∧
        t = { s with
          mauAddr := truncWord e.aluOrAddressResult
          mauData := truncWord e.storeData
          mem := Memory.write s.mem (truncWord e.aluOrAddressResult).toNat (truncWord e.storeData)
          mw := some e
          em := none })) := by
  unfold memoryStep at h
  split at h
  · cases h
  · next e he =>
    split at h
    · next hw =>
      refine ⟨e, he, Option.isNone_iff_eq_none.mp hw, ?_⟩
      cases hm : e.isMemoryOp
      · simp only [hm, Bool.false_eq_true, if_false, Option.some.injEq] at h
        exact .inl ⟨rfl, h.symm⟩
      · cases hr : inRange s.params e.aluOrAddressResult.toNat
        · simp only [hm, hr, if_true, Bool.false_eq_true, if_false, Option.some.injEq] at h
          exact .inr (.inl ⟨rfl, rfl, h.symm⟩)
        · have hr' := inRange_truncWord hr
          cases hl : e.destinationLockAdded
          · simp only [hm, hr, hl, if_true, Bool.false_eq_true, if_false, memoryStore,
              writeTransaction_eq, hr', Option.map_some, Option.some.injEq] at h
            exact .inr (.inr (.inr ⟨rfl, rfl, rfl, h.symm⟩))
          · simp only [hm, hr, hl, if_true, memoryLoad, readTransaction_eq, hr', Option.map_some,
              Option.some.injEq, State.getData] at h
            exact .inr (.inr (.inl ⟨rfl, rfl, rfl, h.symm⟩))
    · cases h

/-- WRITEBACK (R134 to R136). -/
theorem writebackStep_cases {s t : State} (h : writebackStep s = some t) :
    ∃ w, s.mw = some w ∧
    ((w.destinationLockAdded = false ∧ t = { s with mw := none }) ∨
     (w.destinationLockAdded = true ∧ ∃ ht, htRelease w.destinationRegister s.ht = some ht ∧
        t = { s.writeReg w.destinationRegister w.aluOrAddressResult with ht := ht, mw := none })) := by
  unfold writebackStep at h
  split at h
  · cases h
  · next w hw =>
    refine ⟨w, hw, ?_⟩
    split at h
    · next hl =>
      rw [Option.map_eq_some_iff] at h
      obtain ⟨ht, hr, hx⟩ := h
      exact .inr ⟨hl, ht, hr, hx.symm⟩
    · next hl => exact .inl ⟨by simpa using hl, (Option.some.inj h).symm⟩

/-- The head of the tracker is released as the oldest entry (R136). -/
@[simp] theorem htRelease_head (r : RegIx) (ht : List RegIx) : htRelease r (r :: ht) = some ht := by
  simp [htRelease]

/-- What the fault check of Decode answers, case by case, in the order of R114. -/
theorem decodeFault_eq_none_iff (r : FetchDecode) :
    decodeFault r = none ↔
      r.fetchFault = false ∧ ∃ k, classify r.instructionWord = some k ∧
        ¬ (k.hasDest = true ∧ fieldRd r.instructionWord = xzr) := by
  unfold decodeFault
  cases hf : r.fetchFault
  · cases hc : classify r.instructionWord with
    | none => simp
    | some k =>
      by_cases hd : k.hasDest = true ∧ fieldRd r.instructionWord = xzr
      · simp [hd]
      · simp only [if_neg hd, Bool.false_eq_true, if_false, true_iff]
        exact ⟨trivial, k, rfl, hd⟩
  · simp

/-- A schedule that starts with `k`. -/
theorem pipeRun_cons (k : PipeStep) (ks : List PipeStep) (s : State) :
    pipeRun (k :: ks) s = (pipeStep k s).bind (pipeRun ks) := by
  cases h : pipeStep k s <;> simp [pipeRun, h]

/-- A run over two schedules, one after the other. -/
theorem pipeRun_append (ks ls : List PipeStep) (s : State) :
    pipeRun (ks ++ ls) s = (pipeRun ks s).bind (pipeRun ls) := by
  induction ks generalizing s with
  | nil => rfl
  | cons k ks ih =>
    rw [List.cons_append, pipeRun_cons, pipeRun_cons]
    cases pipeStep k s with
    | none => rfl
    | some t => exact ih t

/-- An invariant that every pipeline step keeps holds along every run. -/
theorem pipeRun_induction {P : State → Prop} (hstep : ∀ k s t, pipeStep k s = some t → P s → P t)
    {ks : List PipeStep} {s t : State} (h : pipeRun ks s = some t) (hs : P s) : P t := by
  induction ks generalizing s with
  | nil => cases h; exact hs
  | cons k ks ih =>
    rw [pipeRun_cons, Option.bind_eq_some_iff] at h
    obtain ⟨u, hu, hr⟩ := h
    exact ih hr (hstep k s u hu hs)

end Sys2Proof.Machine
end

