-- ==== Sys2Proof/Laws/Runs.lean ====
section
/-! SUPPORT. Runs of the two levels taken in pieces: sequential runs compose and are unique, and what is
seen in a run is what is seen in its pieces. -/

namespace Sys2Proof.Machine

open Sys2Proof

theorem runsTo_add (n m : Nat) (s u : State) :
    RunsTo (n + m) s u ↔ ∃ v, RunsTo n s v ∧ RunsTo m v u := by
  induction n generalizing s with
  | zero => rw [Nat.zero_add]; exact ⟨fun h => ⟨s, rfl, h⟩, fun ⟨v, hv, h⟩ => hv ▸ h⟩
  | succ n ih =>
    rw [Nat.succ_add]
    constructor
    · rintro ⟨a, ha, h⟩
      obtain ⟨v, hv, hu⟩ := (ih a).1 h
      exact ⟨v, ⟨a, ha, hv⟩, hu⟩
    · rintro ⟨v, ⟨a, ha, hv⟩, hu⟩
      exact ⟨a, ha, (ih a).2 ⟨v, hv, hu⟩⟩

/-- A sequential run of a given length has one end. -/
theorem runsTo_unique {n : Nat} {s u v : State} (hu : RunsTo n s u) (hv : RunsTo n s v) : u = v := by
  induction n generalizing s with
  | zero => exact hu.symm.trans hv
  | succ n ih =>
    obtain ⟨a, ha, hu⟩ := hu
    obtain ⟨b, hb, hv⟩ := hv
    obtain rfl := Host.Outcome.next.inj (ha.symm.trans hb)
    exact ih hu hv

/-- A halted core has no sequential run but the empty one. -/
theorem not_runsTo_succ_of_halted {n : Nat} {s u : State} (h : s.halted = true) :
    ¬ RunsTo (n + 1) s u := by
  rintro ⟨v, hv, -⟩
  simp only [State.halted, Bool.and_eq_true, Option.isSome_iff_exists] at h
  obtain ⟨⟨f, hf⟩, hs⟩ := h
  have hs' : s.inOrder.slotsEmpty = true := hs
  have hf' : s.inOrder.fault = some f := hf
  simp [step, hs', hf'] at hv

/-- R164 holds of the rest of a run. -/
theorem storeDistanceKept_of_runsTo {n : Nat} {s u : State} (h : StoreDistanceKept s)
    (hu : RunsTo n s u) : StoreDistanceKept u := fun k m v w ea hv =>
  h (n + k) m v w ea ((runsTo_add n k s v).2 ⟨u, hu, hv⟩)

theorem collect_append {α : Type} (f : PipeStep → State → Option α) {ks : List PipeStep} {s t : State}
    (h : pipeRun ks s = some t) (ls : List PipeStep) :
    collect f (ks ++ ls) s = collect f ks s ++ collect f ls t := by
  induction ks generalizing s with
  | nil => cases h; rfl
  | cons k ks ih =>
    rw [pipeRun_cons, Option.bind_eq_some_iff] at h
    obtain ⟨v, hv, hr⟩ := h
    simp [collect, hv, ih hr]

theorem collectSeq_add {α : Type} (f : State → Option α) {n : Nat} {s u : State} (h : RunsTo n s u)
    (m : Nat) : collectSeq f (n + m) s = collectSeq f n s ++ collectSeq f m u := by
  induction n generalizing s with
  | zero => rw [Nat.zero_add, show s = u from h]; rfl
  | succ n ih =>
    obtain ⟨v, hv, hr⟩ := h
    rw [Nat.succ_add]
    simp [collectSeq, hv, ih hr]

end Sys2Proof.Machine
end

