-- ==== Sys2Proof/Tests/Slice0.lean ====
section
/-! SUPPORT. Tests: every expected result is from spec/95_test_vectors.md (the row is named), from another
rule of spec/, or worked out by hand from one. After them, for each statement with hypotheses, a
theorem `witness_<statement>` that shows concrete values meeting the hypotheses of each clause. -/

namespace Sys2Proof.Tests

open Sys2Proof Sys2Proof.Machine

/-! ### Well-formedness: the one check refuses each family with destination 31 (R68) -/

theorem test_wellFormed_refuses_destination_31 :
    [Instr.movz 31 1 0, .movk 31 1 0, .add 31 1 2, .adds 31 1 2, .sub 31 1 2, .subs 31 1 2,
      .addi 31 1 7, .addis 31 1 7, .subi 31 1 7, .subis 31 2 7, .ldur 31 0 0, .ldurb 31 0 0,
      .ldurh 31 0 0, .ldursw 31 0 0].all (fun i => !i.wellFormed) = true := by decide

theorem test_wellFormed_admits_source_31 :
    [Instr.stur 31 0 0, .sturb 31 0 0, .sturh 31 0 0, .sturw 31 0 0, .cbz 31 1, .cbnz 31 1, .b 1,
      .add 30 31 31].all (fun i => i.wellFormed) = true := by decide

/-! ### Decoding: the words of section 2, one of each instruction (E1 to E21) -/

theorem test_decode_E1_movz :
    decode 0b11010010101000100100011010000011 = .ok (.movz 3 0x1234 1) ∧
      encode (.movz 3 0x1234 1) = 0xD2A24683 := by decide

theorem test_decode_E2_movk :
    decode 0b11110010101110111101010110100001 = .ok (.movk 1 0xDEAD 1) ∧
      encode (.movk 1 0xDEAD 1) = 0xF2BBD5A1 := by decide

theorem test_decode_E3_add :
    decode 0b10001011000000010000000000000010 = .ok (.add 2 0 1) ∧
      encode (.add 2 0 1) = 0x8B010002 := by decide

theorem test_decode_E4_adds :
    decode 0b10101011000000100000000000100011 = .ok (.adds 3 1 2) ∧
      encode (.adds 3 1 2) = 0xAB020023 := by decide

theorem test_decode_E5_sub :
    decode 0b11001011000000100000001111100011 = .ok (.sub 3 31 2) ∧
      encode (.sub 3 31 2) = 0xCB0203E3 := by decide

theorem test_decode_E6_subs :
    decode 0b11101011000111000000001110111110 = .ok (.subs 30 29 28) ∧
      encode (.subs 30 29 28) = 0xEB1C03BE := by decide

theorem test_decode_E7_addi :
    decode 0b10010001001111111111110000100001 = .ok (.addi 1 1 0xFFF) ∧
      encode (.addi 1 1 0xFFF) = 0x913FFC21 := by decide

theorem test_decode_E8_addis :
    decode 0b10110001000000000001110001000001 = .ok (.addis 1 2 7) ∧
      encode (.addis 1 2 7) = 0xB1001C41 := by decide

theorem test_decode_E9_subi :
    decode 0b11010001000000000001010000001001 = .ok (.subi 9 0 5) ∧
      encode (.subi 9 0 5) = 0xD1001409 := by decide

theorem test_decode_E10_subis :
    decode 0b11110001000111111111110001000001 = .ok (.subis 1 2 0x7FF) ∧
      encode (.subis 1 2 0x7FF) = 0xF11FFC41 := by decide

theorem test_decode_E11_ldur :
    decode 0b11111000010111111111000000000010 = .ok (.ldur 2 0 0x1FF) ∧
      encode (.ldur 2 0 0x1FF) = 0xF85FF002 := by decide

theorem test_decode_E12_ldurb :
    decode 0b00111000010000000001000000000010 = .ok (.ldurb 2 0 1) ∧
      encode (.ldurb 2 0 1) = 0x38401002 := by decide

theorem test_decode_E13_ldurh :
    decode 0b01111000010000000001000000000010 = .ok (.ldurh 2 0 1) ∧
      encode (.ldurh 2 0 1) = 0x78401002 := by decide

theorem test_decode_E14_ldursw :
    decode 0b10111000100000000001000000000010 = .ok (.ldursw 2 0 1) ∧
      encode (.ldursw 2 0 1) = 0xB8801002 := by decide

theorem test_decode_E15_stur :
    decode 0b11111000000000001001001111100001 = .ok (.stur 1 31 9) ∧
      encode (.stur 1 31 9) = 0xF80093E1 := by decide

theorem test_decode_E16_sturb :
    decode 0b00111000000000000001000000000001 = .ok (.sturb 1 0 1) ∧
      encode (.sturb 1 0 1) = 0x38001001 := by decide

theorem test_decode_E17_sturh :
    decode 0b01111000000000000001000000000001 = .ok (.sturh 1 0 1) ∧
      encode (.sturh 1 0 1) = 0x78001001 := by decide

theorem test_decode_E18_sturw :
    decode 0b10111000000100000000000000000001 = .ok (.sturw 1 0 0x100) ∧
      encode (.sturw 1 0 0x100) = 0xB8100001 := by decide

theorem test_decode_E19_b :
    decode 0b00010111111111111111111111111101 = .ok (.b 0x3FFFFFD) ∧
      encode (.b 0x3FFFFFD) = 0x17FFFFFD := by decide

theorem test_decode_E20_cbz :
    decode 0b10110100000000000000000001000001 = .ok (.cbz 1 2) ∧
      encode (.cbz 1 2) = 0xB4000041 := by decide

theorem test_decode_E21_cbnz :
    decode 0b10110101111111111111111111001001 = .ok (.cbnz 9 0x7FFFE) ∧
      encode (.cbnz 9 0x7FFFE) = 0xB5FFFFC9 := by decide

/-- The words just outside the ranges of section 2 are unknown opcodes. -/
theorem test_decode_refuses_words_between_ranges :
    [0x13FFFFFF, 0x18000000, 0x90FFFFFF, 0x91400000, 0xB3FFFFFF, 0xB6000000, 0xD27FFFFF, 0xD3000000,
      0xF27FFFFF, 0xF3000000, 0x8AFFFFFF, 0x8B200000, 0xF83FFFFF, 0xF8600000, 0, 0xFFFFFFFF, 0x94000000,
      0xD61F0000].all (fun w : Word => (classify w).isNone) = true := by decide

/-- R63: the ranges do not overlap and cover 76 of the 2048 values. -/
theorem test_opcode_ranges :
    opcodeMap.Pairwise (fun a b => a.hi < b.lo) ∧
      (opcodeMap.map fun r => r.hi + 1 - r.lo).sum = 76 := by decide

theorem test_table_word :
    decodeTableWord 32 0x8B010002 = some (.add 2 0 1) ∧ decodeTableWord 32 0 = none := by decide

/-! ### One instruction from a small state (section 3) -/

/-- A state of 65536 words with the given registers, and the word `w` at address `pc`. -/
def vec (xl : XLen) (pc : Word) (mem : Memory) (regs : List (RegIx × XVal)) (w : Word) : State :=
  (regs.foldl (fun (s : State) p => s.writeReg p.1 p.2)
    { State.reset with params := { xlen := xl, memWords := 65536 }, pc := pc, mem := mem }).placeWord w

/-- What `f` says of the next state; none when there is none. -/
def after {α : Type} (f : State → α) (s : State) : Option α :=
  match step s with
  | .next t => some (f t)
  | _ => none

/-- Register `r` in the next state. -/
def reg (r : RegIx) (s : State) : Option XVal := after (fun t => t.readReg r) s

/-- Memory word `a` in the next state. -/
def word (a : Nat) (s : State) : Option Word := after (fun t => Memory.read t.mem a) s

/-- The fault record of the next state. -/
def fault (s : State) : Option FaultRecord := (after (fun t => t.fault) s).join

/-- The memory content `M0` of section 3. -/
def m0 : Memory := [(0xFF, 0x0BADF00D), (0x100, 0xA1B2C3D4), (0x101, 0x80000000)]

theorem test_movz_V4b :
    reg 3 (vec .x32 0 [] [(3, 0xAAAAAAAA)] 0xD2C24683) = some 0 := by decide

theorem test_movz_V5a :
    reg 30 (vec .x64 0 [] [(30, 1)] 0xD2FFFFFE) = some 0xFFFF000000000000 := by decide

theorem test_movk_V9a :
    reg 1 (vec .x64 0 [] [(1, 0x1111222233334444)] 0xF2CACF01) = some 0x1111567833334444 := by decide

theorem test_movk_V7b :
    reg 1 (vec .x32 0 [] [(1, 0x33334444)] 0xF2F579A1) = some 0x33334444 := by decide

theorem test_add_V22b :
    reg 3 (vec .x32 0 [] [(1, 0xFFFFFFFF), (2, 1), (3, 0x55)] 0x8B020023) = some 0 := by decide

theorem test_add_V24 :
    reg 3 (vec .x64 0 [] [(1, 7), (2, 8), (3, 0x55)] 0x8B02FC23) = some 0xF := by decide

theorem test_adds_V25 :
    reg 3 (vec .x64 0 [] [(1, 0x7FFFFFFFFFFFFFFF), (2, 1), (3, 0x55)] 0xAB020023) = some 0x8000000000000000 := by decide

theorem test_sub_V26b :
    reg 3 (vec .x32 0 [] [(1, 3), (2, 5), (3, 0x55)] 0xCB020023) = some 0xFFFFFFFE := by decide

theorem test_sub_V28a :
    reg 3 (vec .x64 0 [] [(2, 1), (3, 0x55)] 0xCB0203E3) = some 0xFFFFFFFFFFFFFFFF := by decide

theorem test_subs_V30 :
    reg 3 (vec .x64 0 [] [(1, 0), (2, 0x8000000000000000), (3, 0x55)] 0xEB020023) = some 0x8000000000000000 := by decide

theorem test_addi_V41b :
    reg 1 (vec .x32 0 [] [(1, 0)] 0x913FFC21) = some 0xFFFFFFFF := by decide

theorem test_addi_V43a :
    reg 1 (vec .x64 0 [] [(1, 0x55), (2, 0)] 0x91200041) = some 0xFFFFFFFFFFFFF800 := by decide

theorem test_addis_V47 :
    reg 1 (vec .x64 0 [] [(1, 0x55), (2, 1)] 0xB13FFC41) = some 0 := by decide

theorem test_subi_V49 :
    reg 1 (vec .x64 0 [] [(1, 0x55), (2, 0)] 0xD1200041) = some 0x800 := by decide

theorem test_subi_V50b :
    reg 1 (vec .x32 0 [] [(1, 0x55), (2, 0)] 0xD1000441) = some 0xFFFFFFFF := by decide

theorem test_subis_V51a :
    reg 1 (vec .x64 0 [] [(1, 0x55), (2, 1)] 0xF1001C41) = some 0xFFFFFFFFFFFFFFFA := by decide

theorem test_ldur_V61 :
    reg 2 (vec .x64 0 m0 [(0, 0x100), (2, 0x55)] 0xF85FF002) = some 0xBADF00D := by decide

theorem test_ldur_V72b :
    fault (vec .x32 0 [] [(0, 0), (2, 0x55)] 0xF85FF002) = some ⟨.memoryRange, 0⟩ := by decide

theorem test_ldur_V73 :
    fault (vec .x64 0 [] [(0, 0x100000005)] 0xF8400002) = some ⟨.memoryRange, 0⟩ := by decide

theorem test_ldurb_V66 :
    reg 2 (vec .x64 0 m0 [(0, 0x100), (2, 0x55)] 0x38400002) = some 0xA1B2C3D4 := by decide

theorem test_ldurh_V67 :
    reg 2 (vec .x64 0 m0 [(0, 0x100), (2, 0x55)] 0x78400002) = some 0xA1B2C3D4 := by decide

theorem test_ldursw_V68a :
    reg 2 (vec .x64 0 m0 [(0, 0x100), (2, 0x55)] 0xB8801002) = some 0x80000000 := by decide

theorem test_stur_V74a :
    word 0x100 (vec .x64 0 [] [(0, 0x100), (1, 0x1122334455667788)] 0xF8000001) = some 0x55667788 := by decide

theorem test_stur_V83 :
    fault (vec .x64 0 [] [(0, 0x10000), (1, 1)] 0xF8000001) = some ⟨.memoryRange, 0⟩ := by decide

theorem test_sturb_V78 :
    word 0x101 (vec .x64 0 m0 [(0, 0x100), (1, 0x12345678)] 0x38001001) = some 0x12345678 := by decide

theorem test_sturh_V79 :
    word 0x101 (vec .x64 0 m0 [(0, 0x100), (1, 0x12345678)] 0x78001001) = some 0x12345678 := by decide

theorem test_sturw_V80 :
    word 0x101 (vec .x64 0 m0 [(0, 0x100), (1, 0x12345678)] 0xB8001001) = some 0x12345678 := by decide

theorem test_b_V90 :
    after State.pc (vec .x64 10 [] [] 0x17FFFFFD) = some 7 := by decide

theorem test_b_V95 :
    after State.pc (vec .x64 10 [] [] 0x16000000) = some 4261412874 := by decide

theorem test_cbz_V99 :
    after State.pc (vec .x64 4 [] [(1, 0x100000000)] 0xB4000041) = some 5 := by decide

theorem test_cbz_V102 :
    after State.pc (vec .x64 4 [] [(1, 0)] 0xB4800001) = some 4294705156 := by decide

theorem test_cbnz_V103 :
    after State.pc (vec .x64 3 [] [(9, 3)] 0xB5FFFFC9) = some 1 := by decide

theorem test_cbnz_V104 :
    after State.pc (vec .x64 3 [] [(9, 0)] 0xB5FFFFC9) = some 4 := by decide

/-! ### Faults (section 4) and the fetch -/

theorem test_unknown_opcode_V121 :
    fault (vec .x64 7 [] [] 0xFFFFFFFF) = some ⟨.unknownOpcode, 7⟩ := by decide

theorem test_illegal_destination_V127 :
    fault (vec .x64 2 [] [] 0xD280003F) = some ⟨.illegalDestination, 2⟩ := by decide

theorem test_decode_error_wins_V131 :
    fault (vec .x64 0 [] [(0, 0x10000)] 0xF840001F) = some ⟨.illegalDestination, 0⟩ := by decide

theorem test_store_of_xzr_V132 :
    fault (vec .x64 0 [] [(0, 0x10000)] 0xF800001F) = some ⟨.memoryRange, 0⟩ := by decide

theorem test_fetch_outside_V142 :
    fault { State.reset with pc := 65536 } = some ⟨.memoryRange, 65536⟩ := by decide

/-- R140. -/
theorem test_fault_codes :
    [FaultKind.unknownOpcode, .illegalDestination, .memoryRange].map FaultKind.code = [1, 2, 3] := by
  decide

/-- R16. -/
theorem test_register_roles :
    [16, 17, 28, 29, 30, 31].map registerRole =
      [some .temporary, some .temporary, some .stackPointer, some .framePointer, some .linkRegister,
        none] := by decide

/-- R166, V120: from `State.reset`, whose memory is all zeros, the first step ends the program. -/
theorem test_reset_meets_the_zero_word : fault State.reset = some ⟨.unknownOpcode, 0⟩ := by decide

/-! ### The pipeline (section 6) -/

/-- Program P7, at address 0. -/
def p7 : State := { State.reset with mem := [(0, 0xD2BFFFE0), (1, 0xF8400001)] }

/-- Section 6.4, steps 1 to 15: the older fault of Memory-Access replaces the one of Decode. -/
theorem test_trace_6_4 :
    ((pipeRun [.fetch, .decAccept, .fetch, .decIssue, .execute, .decAccept, .fetch, .memory, .writeback,
        .decIssue, .execute, .decAccept, .fetch, .decIssue] p7).map fun t => (t.fault, t.ht, t.pc)) =
      some (some ⟨.unknownOpcode, 2⟩, [1], 4) ∧
    ((pipeRun [.fetch, .decAccept, .fetch, .decIssue, .execute, .decAccept, .fetch, .memory, .writeback,
        .decIssue, .execute, .decAccept, .fetch, .decIssue, .memory] p7).map fun t =>
          (t.fault, t.ht, t.halted)) =
      some (some ⟨.memoryRange, 1⟩, [], true) := by decide

/-- Program P6, at address 0, up to the CBZ. -/
def p6 : State := { State.reset with mem := [(0, 0xD2800020), (1, 0xB400005F), (2, 0xFFFFFFFF)] }

/-- Section 6.3, steps 1 to 10: the fence holds back the word behind the branch, and the branch flushes
it. -/
theorem test_trace_6_3 :
    ((pipeRun [.fetch, .decAccept, .fetch, .decIssue, .execute, .decAccept, .fetch, .decIssue] p6).map
        fun t => (t.branchPending, t.fd.isSome, t.enabled .decAccept)) = some (true, true, false) ∧
    ((pipeRun [.fetch, .decAccept, .fetch, .decIssue, .execute, .decAccept, .fetch, .decIssue, .memory,
        .execute] p6).map fun t => (t.branchPending, t.fd.isSome, t.pc, t.ht)) =
      some (false, false, 3, [0]) := by decide

/-! ### The assembler (section 7) -/

theorem test_assembler_A1_A9 :
    assembleLine "MOVZ X0, #65535, LSL #0".toList = .ok 0xD29FFFE0 ∧
    assembleLine "MOVZ X0, #65536, LSL #0".toList = .error (.rangeError (.immediate .dec)) ∧
    assembleLine "MOVZ X0, #5, LSL #8".toList = .error .badShift ∧
    assembleLine "MOVZ XZR, #1, LSL #0".toList = .error .illegalDestination ∧
    assembleLine "MOVZ X0, #0x10000, LSL #0".toList = .error (.rangeError (.immediate .hex)) ∧
    assembleLine "MOVZ X0, #0xFFFF, LSL #48".toList = .ok 0xD2FFFFE0 ∧
    assembleLine "MOVZ X0, #5".toList = .error .syntaxError ∧
    assembleLine "MOVZ X0, #5, LSL #64".toList = .error (.rangeError .shift) ∧
    assembleLine "MOVZ X31, #1, LSL #0".toList = .error .illegalDestination := by decide

theorem test_assembler_A10_A16 :
    assembleLine "MOVZ X0, #abc, LSL #0".toList = .error .syntaxError ∧
    assembleLine "ADD X2, X0, X1".toList = .ok 0x8B010002 ∧
    assembleLine "ADD XZR, X0, X1".toList = .error .illegalDestination ∧
    assembleLine "ADDI X0, X0, #1".toList = .ok 0x91000400 ∧
    assembleLine "ADDI X0, X0, #-2048".toList = .ok 0x91200000 ∧
    assembleLine "ADDI X0, X0, #2048".toList = .error (.rangeError (.immediate .dec)) ∧
    assembleLine "LDUR X2, [X0, #-256]".toList = .ok 0xF8500002 := by decide

theorem test_assembler_A17_A23 :
    assembleLine "LDUR X2, [X0, #256]".toList = .error (.rangeError (.immediate .dec)) ∧
    assembleLine "LDUR XZR, [X0, #0]".toList = .error .illegalDestination ∧
    assembleLine "STUR XZR, [X0, #0]".toList = .ok 0xF800001F ∧
    assembleLine "CBZ XZR, #-4".toList = .ok 0xB4FFFF9F ∧
    assembleLine "B #33554431".toList = .ok 0x15FFFFFF ∧
    assembleLine "B #33554432".toList = .error (.rangeError (.immediate .dec)) ∧
    assembleLine "MUL X0, X1, X2".toList = .error .unknownOpcode := by decide

/-- A destination with leading zeros, a bare mnemonic (R74), lines with no mnemonic and a
hexadecimal branch offset (log 12). -/
theorem test_assembler_choices :
    assembleLine "MOVZ X031, #1, LSL #0".toList = .error .illegalDestination ∧
    assembleLine "NOP".toList = .error .unknownOpcode ∧
    assembleLine "ADD".toList = .error .syntaxError ∧
    assembleLine "".toList = .error .syntaxError ∧
    assembleLine "  ".toList = .error .syntaxError ∧
    assembleLine " ADD X2, X0, X1".toList = .error .syntaxError ∧
    assembleLine "B #0x2".toList = .ok 0x14000002 := by decide

/-- The text column of section 2, one row of each form of R72 (E1 in hexadecimal). -/
theorem test_asmText :
    asmText .hex (.movz 3 0x1234 1) = "MOVZ X3, #0x1234, LSL #16".toList ∧
    asmText .dec (.sub 3 31 2) = "SUB X3, XZR, X2".toList ∧
    asmText .dec (.addi 1 1 0xFFF) = "ADDI X1, X1, #-1".toList ∧
    asmText .dec (.sturw 1 0 0x100) = "STURW X1, [X0, #-256]".toList ∧
    asmText .dec (.b 0x1FFFFFF) = "B #33554431".toList ∧
    asmText .dec (.cbnz 9 0x7FFFE) = "CBNZ X9, #-2".toList := by decide

/-- The image vector, in a memory of six words. -/
theorem test_image :
    assembleProgram 6 ["MOVZ X0, #5, LSL #0".toList, "MOVZ X1, #10, LSL #0".toList,
      "ADD X2, X0, X1".toList] = .ok [0xD28000A0, 0xD2800141, 0x8B010002, 0, 0, 0] := by decide

/-! ### Witnesses: the instructions -/

theorem witness_MovzWritesShiftedImmediate :
    (0xD2FFFFFE : Word).extractLsb' 23 9 = 0b110100101 ∧ (31 : RegIx) = xzr ∧ (30 : RegIx) ≠ xzr := by
  decide

theorem witness_MovkReplacesOneHalfword :
    (0xF2FFFFFE : Word).extractLsb' 23 9 = 0b111100101 ∧ (31 : RegIx) = xzr ∧ (30 : RegIx) ≠ xzr ∧
      31 < XLen.x32.bits ∧ 63 < XLen.x64.bits := by decide

theorem witness_AddWritesSum :
    (0x8B1FFFFE : Word).extractLsb' 21 11 = 0b10001011000 ∧ (31 : RegIx) = xzr ∧ (30 : RegIx) ≠ xzr := by
  decide

theorem witness_SubWritesDifference :
    (0xCB0203E3 : Word).extractLsb' 21 11 = 0b11001011000 ∧ (31 : RegIx) = xzr ∧ (30 : RegIx) ≠ xzr := by
  decide

theorem witness_AddiAddsSignedImmediate :
    (0x913FFFFF : Word).extractLsb' 22 10 = 0b1001000100 ∧ (31 : RegIx) = xzr ∧ (30 : RegIx) ≠ xzr := by
  decide

theorem witness_SubiSubtractsSignedImmediate :
    (0xD13FFFFF : Word).extractLsb' 22 10 = 0b1101000100 ∧ (31 : RegIx) = xzr ∧ (30 : RegIx) ≠ xzr := by
  decide

theorem witness_FlagFormsWriteOnlyTheirDestination :
    (0xAB020023 : Word).extractLsb' 21 11 = 0b10101011000 ∧
    (0xEB1C03BE : Word).extractLsb' 21 11 = 0b11101011000 ∧
    (0xB1001C41 : Word).extractLsb' 22 10 = 0b1011000100 ∧
    (0xF11FFC41 : Word).extractLsb' 22 10 = 0b1111000100 ∧ (31 : RegIx) = xzr ∧ (30 : RegIx) ≠ xzr := by
  decide

/-- A state with the last word of memory and the first address outside it in X0 and X1. -/
def edge : State := (State.reset.writeReg 0 0xFFFF).writeReg 1 0x10000

theorem witness_LdurLoadsWord : (0xF85FFFFE : Word).extractLsb' 21 11 = 0b11111000010 ∧
    edge.params.Valid ∧
    (effectiveAddress edge.params (edge.readReg 1) 0x1FF).toNat < edge.params.memWords ∧
    edge.params.memWords ≤ (effectiveAddress edge.params (edge.readReg 1) 0).toNat := by decide

theorem witness_SizedLoadsLoadTheWholeWord :
    (0x38401002 : Word).extractLsb' 21 11 = 0b00111000010 ∧
    (0x78401002 : Word).extractLsb' 21 11 = 0b01111000010 ∧
    (0xB8801002 : Word).extractLsb' 21 11 = 0b10111000100 ∧ edge.params.Valid ∧
    (effectiveAddress edge.params (edge.readReg 1) 0x1FF).toNat < edge.params.memWords ∧
    edge.params.memWords ≤ (effectiveAddress edge.params (edge.readReg 1) 0).toNat := by decide

theorem witness_SturStoresLowWord : (0xF80093E1 : Word).extractLsb' 21 11 = 0b11111000000 ∧
    edge.params.Valid ∧
    (effectiveAddress edge.params (edge.readReg 1) 0x1FF).toNat < edge.params.memWords ∧
    edge.params.memWords ≤ (effectiveAddress edge.params (edge.readReg 1) 0).toNat := by decide

theorem witness_SizedStoresStoreTheWholeWord :
    (0x38001001 : Word).extractLsb' 21 11 = 0b00111000000 ∧
    (0x78001001 : Word).extractLsb' 21 11 = 0b01111000000 ∧
    (0xB8100001 : Word).extractLsb' 21 11 = 0b10111000000 ∧ edge.params.Valid ∧
    (effectiveAddress edge.params (edge.readReg 1) 0x1FF).toNat < edge.params.memWords ∧
    edge.params.memWords ≤ (effectiveAddress edge.params (edge.readReg 1) 0).toNat := by decide

theorem witness_BranchGoesToTarget : (0x17FFFFFF : Word).extractLsb' 26 6 = 0b000101 := by decide

theorem witness_CbzBranchesOnZero : (0xB4FFFFFF : Word).extractLsb' 24 8 = 0b10110100 ∧
    edge.readReg 2 = 0 ∧ edge.readReg 31 = 0 ∧ edge.readReg 0 ≠ 0 := by decide

theorem witness_CbnzBranchesOnNonZero : (0xB5FFFFFF : Word).extractLsb' 24 8 = 0b10110101 ∧
    edge.readReg 2 = 0 ∧ edge.readReg 31 = 0 ∧ edge.readReg 0 ≠ 0 := by decide

theorem witness_RegisterThirtyOneIsConstantZero :
    (Instr.ldur 31 0 0).dest = some xzr ∧ (Instr.movk 31 1 3).dest = some xzr := by decide

theorem witness_LoadReturnsTheStoredWord :
    Memory.wf edge.mem = true ∧ edge.params.Valid ∧ (0 : RegIx) ≠ xzr ∧
    (effectiveAddress edge.params (edge.readReg 0) 0).toNat < edge.params.memWords ∧
    Instr.sturb 1 0 0 ∈ [Instr.stur 1 0 0, .sturb 1 0 0, .sturh 1 0 0, .sturw 1 0 0] ∧
    Instr.ldursw 0 0 0 ∈ [Instr.ldur 0 0 0, .ldurb 0 0 0, .ldurh 0 0 0, .ldursw 0 0 0] := by decide

/-! ### Witnesses: the step of the sequential level -/

/-- A state with the word `w` at address 65535, the last one, and the program counter there. -/
def atEnd (w : Word) : State := { State.reset with pc := 65535, mem := [(65535, w)] }

/-- The first address outside memory. -/
def outside : State := { State.reset with pc := 65536 }

theorem witness_StepRunsTheDecodedInstruction :
    outside.slotsEmpty = true ∧ outside.fault = none ∧ outside.params.memWords ≤ outside.pc.toNat ∧
    (atEnd 0x8B010002).slotsEmpty = true ∧ (atEnd 0x8B010002).fault = none ∧
    (atEnd 0x8B010002).pc.toNat < (atEnd 0x8B010002).params.memWords ∧
    (atEnd 0x8B010002).settledAt (atEnd 0x8B010002).pc = true ∧
    decode (Memory.read (atEnd 0x8B010002).mem (atEnd 0x8B010002).pc.toNat) = .ok (.add 2 0 1) := by
  decide

theorem witness_UnknownOpcodeStopsTheCore :
    (atEnd 0x18000000).slotsEmpty = true ∧ (atEnd 0x18000000).fault = none ∧
    (atEnd 0x18000000).pc.toNat < (atEnd 0x18000000).params.memWords ∧
    (atEnd 0x18000000).settledAt (atEnd 0x18000000).pc = true ∧
    classify (Memory.read (atEnd 0x18000000).mem (atEnd 0x18000000).pc.toNat) = none := by decide

/-- A load with destination 31 for the first clause, a store of register 31 for the second. -/
theorem witness_DestinationThirtyOneStopsTheCore :
    (∀ w ∈ ([0xF840001F, 0xF800001F] : List Word),
      (atEnd w).slotsEmpty = true ∧ (atEnd w).fault = none ∧
      (atEnd w).pc.toNat < (atEnd w).params.memWords ∧ (atEnd w).settledAt (atEnd w).pc = true ∧
      fieldRd (Memory.read (atEnd w).mem (atEnd w).pc.toNat) = xzr) ∧
    classify 0xF840001F = some .ldur ∧ Mnemonic.ldur.hasDest = true ∧
    classify 0xF800001F = some .stur ∧ Mnemonic.stur.hasDest = false :=
  ⟨by intro w hw; fin_cases hw <;> decide, by decide⟩

/-- A halted core. -/
def haltedCore : State := { State.reset with fault := some ⟨.unknownOpcode, 5⟩ }

theorem witness_HaltedCoreTakesNoStep :
    haltedCore.slotsEmpty = true ∧ haltedCore.fault = some ⟨.unknownOpcode, 5⟩ := by decide

/-- A state whose last instructions stored as `l` says. -/
def stored (l : List (Option StoreUndo)) : State := { State.reset with recentStores := l }

theorem witness_FetchReadsOldOrNewWord :
    (stored [some ⟨0, 7⟩, none]).recentStores = [some ⟨(stored [some ⟨0, 7⟩, none]).pc, 7⟩, none] ∧
    (stored [some ⟨1, 8⟩, some ⟨0, 7⟩]).recentStores =
      [some ⟨1, 8⟩, some ⟨(stored [some ⟨1, 8⟩, some ⟨0, 7⟩]).pc, 7⟩] ∧
    (∀ u, some u ∈ (stored [some ⟨1, 7⟩, none]).recentStores →
      u.addr ≠ (stored [some ⟨1, 7⟩, none]).pc) := by
  refine ⟨by decide, by decide, fun u h => ?_⟩
  have h' : some u ∈ [some (⟨1, 7⟩ : StoreUndo), none] := h
  simp only [List.mem_cons, Option.some.injEq, List.not_mem_nil, or_false, reduceCtorEq] at h'
  subst h'
  decide

/-- After a store to word 2, `STUR X0, [XZR, #1]` and `B #1` come to the word 2 itself. -/
theorem witness_FetchIsCertainAtDistanceThree :
    (stored [some ⟨2, 7⟩]).params.Valid ∧
    ∃ t u, exec (.stur 0 31 1) (stored [some ⟨2, 7⟩]) = .next t ∧ exec (.b 1) t = .next u ∧
      u.fault = none ∧ u.pc = 2 ∧ storeAddress (stored [some ⟨2, 7⟩]) (.stur 0 31 1) = some 1 ∧
      storeAddress t (.b 1) = none ∧ (1 : XVal).toNat ≠ (2 : Word).toNat :=
  ⟨by decide, _, _, rfl, rfl, rfl, by decide, by decide, rfl, by decide⟩

/-! ### Witnesses: encoding -/

theorem witness_EncodeDecodeRoundTrip : decode 0x8B02FC23 = .ok (.add 3 1 2) := by decide

theorem witness_IgnoredBitsDoNotMatter :
    classify 0x8B02FC23 = some .add ∧ Mnemonic.add.format = .r ∧
    classify 0xF8400C02 = some .ldur ∧ Mnemonic.ldur.format = .d := by decide

theorem witness_ImmediateLatchHoldsTheFieldsValue :
    Mnemonic.movk.format = .im ∧ Mnemonic.subs.format = .r ∧ Mnemonic.addis.format = .i ∧
    Mnemonic.sturw.format = .d ∧ Mnemonic.b.format = .b ∧ Mnemonic.cbnz.format = .cb := by decide

theorem witness_AssembledWordsAreLegal :
    assembleLine "STUR XZR, [X0, #-256]".toList = .ok 0xF810001F ∧
    (Instr.stur 31 0 0x100).WellFormed ∧ (Instr.movz 30 0xFFFF 3).WellFormed := by decide

theorem witness_ImageHoldsTheProgramAndZeros :
    (["B #0".toList] : List Text).length ≤ 1 ∧ assembleLine "B #0".toList = .ok 0x14000000 ∧
    assembleProgram 1 ["B #0".toList] = .ok [0x14000000] ∧
    assembleProgram 2 ["B #0".toList] = .ok [0x14000000, 0] := by decide

/-! ### Witnesses: memory, tracker, reset -/

theorem witness_MauOperations :
    ({ State.reset with mauAddr := 65535 } : State).mauAddr.toNat <
      ({ State.reset with mauAddr := 65535 } : State).params.memWords ∧
    Memory.wf State.reset.mem = true := by decide

theorem witness_TransactionsLeaveTheirLatches :
    (65535 : Word).toNat < State.reset.params.memWords ∧ Memory.wf State.reset.mem = true := by decide

theorem witness_TrackerOperations :
    htRelease 1 [0, 1, 2, 1] = some [0, 2, 1] ∧ htRelease 3 [0, 1] = none ∧
    htContains 1 [0, 1] = true := by decide

theorem witness_ResetWithLoadsTheImage :
    Params.Valid { xlen := .x32, memWords := 2 } ∧ ([0, 7] : List Word).length ≤ 2 ∧
    (State.resetWith { xlen := .x32, memWords := 2 } [0, 7] (Vector.replicate 31 0x1FFFFFFFF)).isSome =
      true ∧
    State.resetWith { xlen := .x32, memWords := 2 } [0, 7, 8] (Vector.replicate 31 0) = none := by decide

/-! ### Witnesses: the steps of the pipeline -/

theorem witness_FetchStep :
    (atEnd 0).fd = none ∧ (atEnd 0).fault = none ∧ (atEnd 0).pc.toNat < (atEnd 0).params.memWords ∧
    outside.fd = none ∧ outside.fault = none ∧ outside.params.memWords ≤ outside.pc.toNat := by decide

/-- The word `w`, fetched from address 3. -/
def fetched (w : Word) : FetchDecode := { instructionWord := w, nextPC := 4, fetchFault := false }

/-- The register of a fetch outside memory. -/
def poisoned : FetchDecode := { instructionWord := 0, nextPC := 65537, fetchFault := true }

/-- A state with the register `r` in FD. -/
def inFD (r : FetchDecode) : State := { State.reset with pc := r.nextPC, fd := some r }

/-- A state with the register `r` in DIN and the tracker `ht`. -/
def inDIN (r : FetchDecode) (ht : List RegIx) : State :=
  { State.reset with pc := r.nextPC, din := some r, ht := ht }

theorem witness_DecodeAcceptStep : (inFD (fetched 0)).enabled .decAccept = true := by decide

theorem witness_DecodeWaitsForHazards :
    (inDIN (fetched 0) [0]).din = some (fetched 0) ∧
    decodeFault (fetched 0) = some .unknownOpcode ∧
    (inDIN (fetched 0xF8000001) [1]).din = some (fetched 0xF8000001) ∧
    decodeFault (fetched 0xF8000001) = none ∧ classify 0xF8000001 = some .stur ∧
    (inDIN (fetched 0xF8000001) [1]).enabled .decIssue = false ∧
    (inDIN (fetched 0xF8000001) [2]).enabled .decIssue = true := by decide

theorem witness_DecodeRaisesTheFirstFault :
    (inDIN poisoned []).din = some poisoned ∧ poisoned.fetchFault = true ∧
    (fetched 0).fetchFault = false ∧ classify (fetched 0).instructionWord = none ∧
    (fetched 0xD280003F).fetchFault = false ∧
    classify (fetched 0xD280003F).instructionWord = some .movz ∧ Mnemonic.movz.hasDest = true ∧
    fieldRd (fetched 0xD280003F).instructionWord = xzr := by decide

/-- One word for each clause: MOVZ, MOVK, ADD, ADDI, LDUR, STUR, B, CBZ. -/
theorem witness_DecodeIssuesTheMicroOp :
    ∀ w ∈ ([0xD2A24683, 0xF2BBD5A1, 0x8B010002, 0x913FFC21, 0xF85FF002, 0xF80093E1, 0x17FFFFFD,
      0xB4000041] : List Word),
      (inDIN (fetched w) []).din = some (fetched w) ∧ decodeFault (fetched w) = none ∧
      (classify w).isSome = true ∧ (pipeStep .decIssue (inDIN (fetched w) [])).isSome = true := by
  intro w hw; fin_cases hw <;> decide

/-- A state with the micro-op of `w` in DE, its second operand being `v`. -/
def inDE (w : Word) (v : XVal) : State :=
  { State.reset with
    pc := 9
    de := some { instructionWord := w, nextPC := 4, operand1Value := 0, operand2Value := v
                 signExtendedImmediate := 2, destinationLockAdded := false }
    branchPending := true }

/-- ADDI, which is no branch; then B, and CBZ and CBNZ taken and not taken. -/
theorem witness_ExecuteResolvesBranches :
    ((inDE 0x91000400 0).enabled .execute = true ∧ classify 0x91000400 = some .addi ∧
      Mnemonic.addi.isBranch = false) ∧
    ∀ p ∈ ([(0x14000002, 0), (0xB4000041, 0), (0xB4000041, 1), (0xB5000041, 0), (0xB5000041, 1)] :
        List (Word × XVal)),
      (inDE p.1 p.2).de.isSome = true ∧ (inDE p.1 p.2).em = none ∧
      ((classify p.1).map Mnemonic.isBranch) = some true := by
  refine ⟨by decide, ?_⟩
  intro p hp; fin_cases hp <;> decide

/-- A register of EM or MW of the instruction at address 3, with destination 1. -/
def executed1 (a : XVal) (mem lock : Bool) : ExecuteMemory :=
  { destinationRegister := 1, aluOrAddressResult := a, storeData := 9, isMemoryOp := mem
    branchTargetIfTaken := none, destinationLockAdded := lock, instrAddr := 3 }

/-- A state with `e` in EM. -/
def inEM (e : ExecuteMemory) : State :=
  { State.reset with pc := 4, em := some e, ht := if e.destinationLockAdded then [1] else [] }

/-- A result that passes through, a load and a store at the last address, a load and a store at the
first address outside. -/
theorem witness_MemoryStep :
    ∀ e ∈ [executed1 7 false true, executed1 65535 true true, executed1 65535 true false,
        executed1 65536 true true, executed1 65536 true false],
      (inEM e).em = some e ∧ (inEM e).mw = none ∧ (inEM e).params.Valid ∧
      (pipeStep .memory (inEM e)).isSome = true ∧ Memory.wf (inEM e).mem = true := by decide

/-- A state with `e` in MW. -/
def inMW (e : ExecuteMemory) : State :=
  { State.reset with pc := 4, mw := some e, ht := if e.destinationLockAdded then [1] else [] }

theorem witness_WritebackCommitsAndReleases :
    (inMW (executed1 7 false true)).mw = some (executed1 7 false true) ∧
    htRelease 1 (inMW (executed1 7 false true)).ht = some [] ∧
    (inMW (executed1 7 false false)).mw = some (executed1 7 false false) ∧
    (pipeStep .writeback (inMW (executed1 7 false true))).map
      (fun t => decide (t.x ≠ (inMW (executed1 7 false true)).x)) = some true := by decide

theorem witness_SnapshotShowsEveryRegister : (30 : RegIx) ≠ xzr := by decide

/-! ### Witnesses: whole-machine rules -/

theorem witness_OnlyStoresWriteMemory :
    (pipeStep .memory (inEM (executed1 65535 true false))).map
      (fun t => decide (t.mem ≠ (inEM (executed1 65535 true false)).mem)) = some true ∧
    (inEM (executed1 65535 true false)).params.Valid := by decide

theorem witness_OnlyFetchAndTakenBranchesWritePc :
    (pipeStep .fetch State.reset).map (fun t => decide (t.pc ≠ State.reset.pc)) = some true ∧
    (pipeStep .execute (inDE 0x14000002 0)).map (fun t => decide (t.pc ≠ (inDE 0x14000002 0).pc)) =
      some true := by decide

theorem witness_ParametersNeverChange :
    (pipeStep .fetch State.reset).isSome = true ∧ after (fun _ => true) State.reset = some true := by
  decide

/-! ### Witnesses: good states

Four states of a run, in each of which the invariant holds. -/

/-- Every value fits in 64 bits. -/
theorem fits64 {s : State} (h : s.params.xlen = .x64) (v : XVal) : fitsX s.params v := by
  unfold fitsX truncX; rw [h]

/-- The branch of `witness_ExecuteResolvesBranches` that the invariant speaks of. -/
theorem inDE_inv : Inv (inDE 0x14000002 0) where
  params := by decide
  memWf := by decide
  memWithin := by decide
  regsFit := fun _ => fits64 rfl _
  tracker := by decide
  oneInDecode := by decide
  fence := by decide
  fdOk := fun r h => nomatch (show (none : Option FetchDecode) = some r from h)
  dinOk := fun r h => nomatch (show (none : Option FetchDecode) = some r from h)
  fdNext := fun r h => nomatch (show (none : Option FetchDecode) = some r from h)
  dinNext := fun r h => nomatch (show (none : Option FetchDecode) = some r from h)
  deOk := fun m h => by
    obtain rfl := Option.some.inj h
    exact ⟨fits64 rfl _, fits64 rfl _, .b, by decide, by decide, by decide⟩
  emOk := fun e h => nomatch (show (none : Option ExecuteMemory) = some e from h)
  mwOk := fun e h => nomatch (show (none : Option ExecuteMemory) = some e from h)
  stopped := by decide
  recent := by decide

/-- Three locked instructions in flight: results for X0 in MW and X1 in EM, `ADDI X2, XZR, #7` in DE, the
zero word of address 3 in FD. -/
def flying : State :=
  { State.reset with
    pc := 4
    ht := [0, 1, 2]
    mw := some { executed1 5 false true with destinationRegister := 0, instrAddr := 0 }
    em := some { executed1 10 false true with instrAddr := 1 }
    de := some { instructionWord := 0x91001FE2, nextPC := 3, operand1Value := 0, operand2Value := 0
                 signExtendedImmediate := 7, destinationLockAdded := true }
    fd := some (fetched 0) }

theorem flying_inv : Inv flying where
  params := by decide
  memWf := by decide
  memWithin := by decide
  regsFit := fun _ => fits64 rfl _
  tracker := by decide
  oneInDecode := by decide
  fence := by decide
  fdOk := fun r h => by obtain rfl := Option.some.inj h; unfold FetchOk; decide
  dinOk := fun r h => nomatch (show (none : Option FetchDecode) = some r from h)
  fdNext := fun r h => by obtain rfl := Option.some.inj h; decide
  dinNext := fun r h => nomatch (show (none : Option FetchDecode) = some r from h)
  deOk := fun m h => by
    obtain rfl := Option.some.inj h
    exact ⟨fits64 rfl _, fits64 rfl _, .addi, by decide, by decide, by decide⟩
  emOk := fun e h => by
    obtain rfl := Option.some.inj h
    exact ⟨fits64 rfl _, fits64 rfl _, by decide⟩
  mwOk := fun e h => by
    obtain rfl := Option.some.inj h
    exact ⟨fits64 rfl _, fits64 rfl _, by decide⟩
  stopped := by decide
  recent := by decide

/-- A fault recorded by Decode, with a load in EM and a result in MW still to drain. -/
def draining : State :=
  { State.reset with
    pc := 4
    ht := [0, 1]
    mw := some { executed1 5 false true with destinationRegister := 0, instrAddr := 0 }
    em := some (executed1 10 true true)
    fault := some ⟨.unknownOpcode, 4⟩ }

theorem draining_inv : Inv draining where
  params := by decide
  memWf := by decide
  memWithin := by decide
  regsFit := fun _ => fits64 rfl _
  tracker := by decide
  oneInDecode := by decide
  fence := by decide
  fdOk := fun r h => nomatch (show (none : Option FetchDecode) = some r from h)
  dinOk := fun r h => nomatch (show (none : Option FetchDecode) = some r from h)
  fdNext := fun r h => nomatch (show (none : Option FetchDecode) = some r from h)
  dinNext := fun r h => nomatch (show (none : Option FetchDecode) = some r from h)
  deOk := fun m h => nomatch (show (none : Option DecodeExecute) = some m from h)
  emOk := fun e h => by
    obtain rfl := Option.some.inj h
    exact ⟨fits64 rfl _, fits64 rfl _, by decide⟩
  mwOk := fun e h => by
    obtain rfl := Option.some.inj h
    exact ⟨fits64 rfl _, fits64 rfl _, by decide⟩
  stopped := by decide
  recent := by decide

theorem haltedCore_inv : Inv haltedCore where
  params := by decide
  memWf := by decide
  memWithin := by decide
  regsFit := fun _ => fits64 rfl _
  tracker := by decide
  oneInDecode := by decide
  fence := by decide
  fdOk := fun r h => nomatch (show (none : Option FetchDecode) = some r from h)
  dinOk := fun r h => nomatch (show (none : Option FetchDecode) = some r from h)
  fdNext := fun r h => nomatch (show (none : Option FetchDecode) = some r from h)
  dinNext := fun r h => nomatch (show (none : Option FetchDecode) = some r from h)
  deOk := fun m h => nomatch (show (none : Option DecodeExecute) = some m from h)
  emOk := fun e h => nomatch (show (none : Option ExecuteMemory) = some e from h)
  mwOk := fun e h => nomatch (show (none : Option ExecuteMemory) = some e from h)
  stopped := by decide
  recent := by decide

/-- `ADDI X2, XZR, #7` of address 3 in DIN, and in EM a load of X1 from the address `a`. -/
def issuing (a : XVal) : State :=
  { State.reset with
    pc := 4
    mem := [(3, 0x91001FE2)]
    ht := [1]
    em := some { executed1 a true true with instrAddr := 2 }
    din := some (fetched 0x91001FE2) }

theorem issuing_inv (a : XVal) : Inv (issuing a) where
  params := (by decide : Params.default.Valid)
  memWf := rfl
  memWithin := rfl
  regsFit := fun _ => fits64 rfl _
  tracker := rfl
  oneInDecode := fun _ => rfl
  fence := rfl
  fdOk := fun r h => nomatch (show (none : Option FetchDecode) = some r from h)
  dinOk := fun r h => by obtain rfl := Option.some.inj h; rfl
  fdNext := fun r h => nomatch (show (none : Option FetchDecode) = some r from h)
  dinNext := fun r h => by obtain rfl := Option.some.inj h; rfl
  deOk := fun m h => nomatch (show (none : Option DecodeExecute) = some m from h)
  emOk := fun e h => by
    obtain rfl := Option.some.inj h
    exact ⟨fits64 rfl _, fits64 rfl _, fun _ => (by decide : (1 : RegIx) ≠ xzr)⟩
  mwOk := fun e h => nomatch (show (none : Option ExecuteMemory) = some e from h)
  stopped := fun h => absurd rfl h
  recent := Nat.zero_le _

theorem witness_FaultRecordStays : Inv draining ∧ draining.fault ≠ none ∧
    (pipeStep .writeback draining).isSome = true := ⟨draining_inv, by decide, by decide⟩

theorem witness_TrackerHoldsAtMostThree : Inv flying ∧ flying.ht.length = 3 :=
  ⟨flying_inv, by decide⟩

theorem witness_NoDeadlock : Inv flying ∧ flying.fault = none := ⟨flying_inv, by decide⟩

/-- A good halted state, a good state that is not halted, and a run of three steps after a fault. -/
theorem witness_HaltedExactlyWhenNothingIsEnabled :
    (Inv haltedCore ∧ haltedCore.halted = true) ∧ (Inv flying ∧ flying.halted = false) ∧
    Inv draining ∧ draining.fault ≠ none ∧
    (pipeRun [.writeback, .memory, .writeback] draining).isSome = true :=
  ⟨⟨haltedCore_inv, by decide⟩, ⟨flying_inv, by decide⟩, draining_inv, by decide, by decide⟩

theorem witness_StepIsNeverStuck :
    (Inv flying ∧ flying.halted = false) ∧ (Inv haltedCore ∧ haltedCore.halted = true) :=
  ⟨⟨flying_inv, by decide⟩, haltedCore_inv, by decide⟩

/-- Each of the six steps is taken in one of the good states. -/
theorem witness_PipelineKeepsTheInvariant :
    Inv flying ∧ (pipeStep .writeback flying).isSome = true ∧
    Inv draining ∧ (pipeStep .writeback draining).isSome = true ∧
    Inv (issuing 10) ∧ (pipeStep .decIssue (issuing 10)).isSome = true ∧
    (pipeStep .memory (issuing 10)).isSome = true ∧ (pipeStep .fetch (issuing 10)).isSome = true :=
  ⟨flying_inv, by decide, draining_inv, by decide, issuing_inv 10, by decide, by decide, by decide⟩

theorem witness_StepKeepsTheInvariant :
    Inv flying ∧ after (fun _ => true) flying = some true := ⟨flying_inv, by decide⟩

/-! ### Witnesses: headline results -/

/-- An instruction that completes, one that Memory-Access stops, one that Decode stops. -/
theorem witness_SixStepsAreOneInstruction :
    ∀ w ∈ ([0x91000400, 0xF8401002, 0] : List Word),
      (vec .x64 0 [] [(0, 65535)] w).slotsEmpty = true ∧ (vec .x64 0 [] [(0, 65535)] w).ht = [] ∧
      (vec .x64 0 [] [(0, 65535)] w).branchPending = false ∧
      (vec .x64 0 [] [(0, 65535)] w).fault = none ∧
      (vec .x64 0 [] [(0, 65535)] w).settledAt (vec .x64 0 [] [(0, 65535)] w).pc = true ∧
      after (fun _ => true) (vec .x64 0 [] [(0, 65535)] w) = some true := by
  intro w hw; fin_cases hw <;> decide

/-- A step other than DEC_ISSUE; DEC_ISSUE behind a load that will stop the core; DEC_ISSUE behind one
that will not. -/
theorem witness_PipelineRefinesTheSequentialSemantics :
    (Inv (issuing 65536) ∧ (pipeStep .fetch (issuing 65536)).isSome = true ∧
      (pipeStep .decIssue (issuing 65536)).isSome = true ∧ (issuing 65536).sequential.fault ≠ none) ∧
    Inv (issuing 65535) ∧ (pipeStep .decIssue (issuing 65535)).isSome = true ∧
      (issuing 65535).sequential.fault = none ∧ (issuing 65535).IssueCoherent := by
  refine ⟨⟨issuing_inv _, by decide, by decide, by decide⟩, issuing_inv _, by decide, by decide, ?_⟩
  intro r h _
  obtain rfl := Option.some.inj h
  decide

/-- A memory of two words that holds `ADDI X0, XZR, #7`. -/
def small : State :=
  { State.reset with params := { xlen := .x64, memWords := 2 }, mem := [(0, 0x91001FE0)] }

/-- A run that fetches ahead: the zero word behind the instruction stops the core while the instruction
is in flight. -/
def smallRun : List PipeStep :=
  [.fetch, .decAccept, .fetch, .decIssue, .execute, .decAccept, .decIssue, .memory, .writeback]

theorem small_reset :
    State.resetWith { xlen := .x64, memWords := 2 } [0x91001FE0] (Vector.replicate 31 0) = some small := by
  simp [State.resetWith, small, State.reset, imageMemory, Memory.unlisted, truncX]

theorem small_run : ∃ t, pipeRun smallRun small = some t ∧ t.halted = true :=
  ⟨_, rfl, by decide⟩

/-- The sequential run of `small` has three states, the last one halted. -/
theorem small_runsTo {n : Nat} {u : State} (h : RunsTo n small u) :
    u.nextStore = none ∧ (n = 2 → u.halted = true) ∧ n ≤ 2 := by
  match n, h with
  | 0, h => cases h; exact ⟨by decide, by omega, by omega⟩
  | 1, ⟨a, ha, h⟩ => cases ha; cases h; exact ⟨by decide, by omega, by omega⟩
  | 2, ⟨a, ha, b, hb, h⟩ => cases ha; cases hb; cases h; exact ⟨by decide, by decide, by omega⟩
  | n + 3, ⟨a, ha, b, hb, c, hc, _⟩ => cases ha; cases hb; cases hc

theorem small_kept : StoreDistanceKept small := fun n _ u _ ea hu h => by
  rw [(small_runsTo hu).1] at h; cases h

theorem witness_HaltedPipelineAgreesWithSequentialRun :
    State.resetWith { xlen := .x64, memWords := 2 } [0x91001FE0] (Vector.replicate 31 0) = some small ∧
    (∃ t, pipeRun smallRun small = some t ∧ t.halted = true) ∧ CoherentRun smallRun small ∧
    StoreDistanceKept small := by
  refine ⟨small_reset, small_run, ?_, small_kept⟩
  refine ⟨nofun, nofun, nofun, ?_, nofun, nofun, ?_, nofun, nofun, trivial⟩
  · intro _ _ r h _
    obtain rfl := Option.some.inj h
    decide
  · intro _ _ r h _
    obtain rfl := Option.some.inj h
    decide

theorem witness_PipelineRunIsAPrefixOfTheSequentialRun :
    State.resetWith { xlen := .x64, memWords := 2 } [0x91001FE0] (Vector.replicate 31 0) = some small ∧
    StoreDistanceKept small ∧ ∃ t, pipeRun smallRun small = some t ∧ t.halted = true :=
  ⟨small_reset, small_kept, small_run⟩

/-- A memory of one word that holds `B #0`, with the content of the data latch and of the record of
recent stores. -/
def loop (data : Word) (l : List (Option StoreUndo)) : State :=
  { State.reset with
    params := { xlen := .x64, memWords := 1 }, mem := [(0, 0x14000000)], mauData := data
    recentStores := l }

theorem loop_step (data : Word) (l : List (Option StoreUndo)) :
    step (loop data l).inOrder = .next (loop 0x14000000 [none]) := by
  have hd : decode 0x14000000#32 = .ok (.b 0#26) := by decide
  simp [step, State.instrStep, State.inOrder, loop, State.reset, State.slotsEmpty, inRange,
    State.fetchedWord, State.afterFetch, State.settledAt, Memory.read, hd, exec, execB, State.branch,
    State.retire, branchTarget]

theorem loop_runs (n : Nat) (data : Word) (l : List (Option StoreUndo)) :
    ∃ u, RunsTo n (loop data l) u := by
  induction n generalizing data l with
  | zero => exact ⟨_, rfl⟩
  | succ n ih =>
    obtain ⟨u, hu⟩ := ih 0x14000000 [none]
    exact ⟨u, _, loop_step data l, hu⟩

theorem loop_runsTo {n : Nat} {data : Word} {l : List (Option StoreUndo)} {u : State}
    (h : RunsTo n (loop data l) u) : ∃ d k, u = loop d k := by
  induction n generalizing data l with
  | zero => exact ⟨data, l, h.symm⟩
  | succ n ih =>
    obtain ⟨a, ha, h⟩ := h
    obtain rfl := Host.Outcome.next.inj ((loop_step data l).symm.trans ha)
    exact ih h

theorem loop_kept : StoreDistanceKept (loop 0 []) := fun n _ u _ ea hu h => by
  obtain ⟨d, k, rfl⟩ := loop_runsTo hu
  have hd : decode 0x14000000#32 = .ok (.b 0#26) := by decide
  simp [State.nextStore, State.nextInstr, loop, State.reset, inRange, Memory.read, hd,
    storeAddress] at h

/-- A finite sequential run and an infinite one. -/
theorem witness_PipelineEndsExactlyWhenTheSequentialRunEnds :
    (State.resetWith { xlen := .x64, memWords := 2 } [0x91001FE0] (Vector.replicate 31 0) = some small ∧
      StoreDistanceKept small ∧ ∃ u, RunsTo 2 small u ∧ u.halted = true) ∧
    State.resetWith { xlen := .x64, memWords := 1 } [0x14000000] (Vector.replicate 31 0) =
      some (loop 0 []) ∧
    StoreDistanceKept (loop 0 []) ∧ ∀ n, ∃ u, RunsTo n (loop 0 []) u := by
  have h : RunsTo 2 small _ := ⟨_, rfl, _, rfl, rfl⟩
  exact ⟨⟨small_reset, small_kept, _, h, (small_runsTo h).2.1 rfl⟩,
    by simp [State.resetWith, loop, State.reset, imageMemory, Memory.unlisted, truncX], loop_kept,
    fun n => loop_runs n 0 []⟩

/-- `STUR X0, [XZR, #2]`, a load that is going to stop the core, and the stale word 2, `ADDI X1, XZR, #1`. -/
def stale : State :=
  { State.reset with mem := [(0, 0xF80023E0), (1, 0xF85FF3E2), (2, 0x910007E1)] }

/-- A schedule that fetches the word 2 before the store writes it, up to where Decode holds it. -/
def staleRun : List PipeStep :=
  [.fetch, .decAccept, .decIssue, .fetch, .execute, .decAccept, .fetch, .decIssue, .memory, .execute,
    .decAccept]

/-- R164 is kept there, since the sequential run never comes to the word 2. Its stale word is issued behind
the load that stops the core, which `CoherentRun` allows, and has no effect. -/
theorem test_stale_word_behind_a_stop :
    ((pipeRun staleRun stale).map fun t =>
      (t.din.map (·.instructionWord), Memory.read t.mem 2, t.enabled .decIssue,
        t.sequential.fault)) =
      some (some 0x910007E1, 0, true, some ⟨.memoryRange, 1⟩) ∧
    ((pipeRun (staleRun ++ [.decIssue, .writeback, .memory]) stale).map fun t =>
      (t.halted, t.fault, t.readReg 1)) = some (true, some ⟨.memoryRange, 1⟩, 0) := by decide

end Sys2Proof.Tests
end

section
/-! PROOFS. The architectural state (10_state.md): which step writes which part of it, at both levels,
and the statements about registers, reset, memory, program counter, fault record and parameters. -/

namespace Sys2Proof.Machine

open Sys2Proof

/-! ### Register 31, a fatal error, the address of a data access -/

/-- R14: register 31 has no storage. -/
@[simp] theorem readReg_xzr (s : State) : s.readReg xzr = 0 := by
  unfold State.readReg; rw [dif_neg (by decide)]

/-- The operation `raise` is a fatal error in the sense of the statements (R11, R145). -/
theorem raised_raise (kind : FaultKind) (s : State) : Raised s (s.raise kind) kind where
  params := rfl
  fault := rfl
  x := rfl
  mem := rfl
  mauAddr := rfl
  mauData := rfl
  pipeline := ⟨rfl, rfl, rfl, rfl, rfl, rfl, rfl⟩
  recentStores := rfl

/-- An address inside memory loses nothing when it is staged in the 32-bit latch (R40), since
`MEM_WORDS` is at most `2^32` (R7). -/
theorem truncWord_toNat_of_inRange {p : Params} (hp : p.Valid) {v : XVal}
    (h : inRange p v.toNat = true) : (truncWord v).toNat = v.toNat := by
  have hlt : v.toNat < p.memWords := (inRange_iff p _).1 h
  have hle : p.memWords ≤ 4294967296 := hp.2
  rw [truncWord, BitVec.toNat_setWidth]
  exact Nat.mod_eq_of_lt (by omega)

/-! ### The meaning of an instruction has one of four shapes -/

/-- `t` is what one of the four shared operations gives for `i` at `s`; the destination of `i` (R66)
goes with the operation. -/
inductive ExecShape (i : Instr) (s : State) : State → Prop where
  | writeDest (rd : RegIx) (v : XVal) (h : i.dest = some rd) : ExecShape i s (s.writeDest rd v)
  | load (rt rn : RegIx) (off9 : BitVec 9) (h : i.dest = some rt) :
      ExecShape i s (s.load rt rn off9)
  | store (rt rn : RegIx) (off9 : BitVec 9) (h : i.dest = none) :
      ExecShape i s (s.store rt rn off9)
  | branch (taken : Bool) {w : Nat} (off : BitVec w) (h : i.dest = none) :
      ExecShape i s (s.branch taken off)

/-- Every instruction has a next state, of one of the four shapes. -/
theorem exec_shape (i : Instr) (s : State) : ∃ t, exec i s = .next t ∧ ExecShape i s t := by
  cases i with
  | b off => exact ⟨_, rfl, .branch _ off rfl⟩
  | cbz rt off => exact ⟨_, rfl, .branch _ off rfl⟩
  | cbnz rt off => exact ⟨_, rfl, .branch _ off rfl⟩
  | stur rt rn off => exact ⟨_, rfl, .store rt rn off rfl⟩
  | sturb rt rn off => exact ⟨_, rfl, .store rt rn off rfl⟩
  | sturh rt rn off => exact ⟨_, rfl, .store rt rn off rfl⟩
  | sturw rt rn off => exact ⟨_, rfl, .store rt rn off rfl⟩
  | ldur rt rn off => exact ⟨_, rfl, .load rt rn off rfl⟩
  | ldurb rt rn off => exact ⟨_, rfl, .load rt rn off rfl⟩
  | ldurh rt rn off => exact ⟨_, rfl, .load rt rn off rfl⟩
  | ldursw rt rn off => exact ⟨_, rfl, .load rt rn off rfl⟩
  | add rd rn rm => exact ⟨_, rfl, .writeDest rd _ rfl⟩
  | adds rd rn rm => exact ⟨_, rfl, .writeDest rd _ rfl⟩
  | sub rd rn rm => exact ⟨_, rfl, .writeDest rd _ rfl⟩
  | subs rd rn rm => exact ⟨_, rfl, .writeDest rd _ rfl⟩
  | addi rd rn imm => exact ⟨_, rfl, .writeDest rd _ rfl⟩
  | addis rd rn imm => exact ⟨_, rfl, .writeDest rd _ rfl⟩
  | subi rd rn imm => exact ⟨_, rfl, .writeDest rd _ rfl⟩
  | subis rd rn imm => exact ⟨_, rfl, .writeDest rd _ rfl⟩
  | movz rd imm hw => exact ⟨_, rfl, .writeDest rd _ rfl⟩
  | movk rd imm hw => exact ⟨_, rfl, .writeDest rd _ rfl⟩

/-- R68, R142: of an instruction whose destination is 31 nothing is done but raising the error. -/
theorem exec_of_dest_xzr {i : Instr} (h : i.dest = some xzr) (s : State) :
    exec i s = .next (s.raise .illegalDestination) := by
  obtain ⟨t, ht, hshape⟩ := exec_shape i s
  rw [ht]
  cases hshape with
  | writeDest rd v hd =>
    obtain rfl : rd = xzr := Option.some.inj (hd.symm.trans h)
    exact congrArg _ (if_pos rfl)
  | load rt rn off hd =>
    obtain rfl : rt = xzr := Option.some.inj (hd.symm.trans h)
    exact congrArg _ (if_pos rfl)
  | store rt rn off hd => cases hd.symm.trans h
  | branch taken off hd => cases hd.symm.trans h

/-! ### The parameters at the sequential level -/

@[simp] theorem writeDest_params (rd : RegIx) (v : XVal) (s : State) :
    (s.writeDest rd v).params = s.params := by
  obtain ⟨-, h⟩ | ⟨-, h⟩ := writeDest_cases rd v s <;> simp [h]

@[simp] theorem load_params (rt rn : RegIx) (off : BitVec 9) (s : State) :
    (s.load rt rn off).params = s.params := by
  obtain ⟨-, h⟩ | ⟨-, -, h⟩ | ⟨-, -, h⟩ := load_cases rt rn off s <;> simp [h]

@[simp] theorem store_params (rt rn : RegIx) (off : BitVec 9) (s : State) :
    (s.store rt rn off).params = s.params := by
  obtain ⟨-, h⟩ | ⟨-, h⟩ := store_cases rt rn off s <;> simp [h]

theorem exec_params {i : Instr} {s t : State} (h : exec i s = .next t) : t.params = s.params := by
  obtain ⟨u, hu, hshape⟩ := exec_shape i s
  obtain rfl : u = t := Host.Outcome.next.inj (hu.symm.trans h)
  cases hshape with
  | writeDest rd v => exact writeDest_params rd v s
  | load rt rn off => exact load_params rt rn off s
  | store rt rn off => exact store_params rt rn off s
  | branch taken off => rfl

/-- What one instruction of the sequential level can do (R156): the fetch outside memory, the unknown
word, or the meaning of the decoded instruction after its fetch. -/
theorem instrStep_cases {s t : State} (h : s.instrStep = .next t) :
    (inRange s.params s.pc.toNat = false ∧ t = s.raise .memoryRange) ∨
    (inRange s.params s.pc.toNat = true ∧
      ((∃ e, decode s.fetchedWord = .error e ∧ t = s.afterFetch.raise .unknownOpcode) ∨
        ∃ i, decode s.fetchedWord = .ok i ∧ exec i s.afterFetch = .next t)) := by
  unfold State.instrStep at h
  cases hr : inRange s.params s.pc.toNat
  · rw [hr] at h
    exact .inl ⟨rfl, (Host.Outcome.next.inj h).symm⟩
  · rw [hr] at h
    cases hd : decode s.fetchedWord with
    | error e =>
      rw [hd] at h
      exact .inr ⟨rfl, .inl ⟨e, rfl, (Host.Outcome.next.inj h).symm⟩⟩
    | ok i =>
      rw [hd] at h
      exact .inr ⟨rfl, .inr ⟨i, rfl, h⟩⟩

theorem instrStep_params {s t : State} (h : s.instrStep = .next t) : t.params = s.params := by
  obtain ⟨-, rfl⟩ | ⟨-, ⟨e, -, rfl⟩ | ⟨i, -, hi⟩⟩ := instrStep_cases h
  · rfl
  · rfl
  · exact (exec_params hi).trans (afterFetch_params s)

/-! ### What each pipeline step leaves unchanged -/

/-- The architectural parts that the step `k` from `s` to `t` leaves unchanged: WRITEBACK alone writes
registers, FETCH and EXECUTE the program counter, MEMORY memory, DEC_ISSUE and MEMORY the fault record,
and none the parameters. -/
structure PipeFrame (k : PipeStep) (s t : State) : Prop where
  params : t.params = s.params
  x : k ≠ .writeback → t.x = s.x
  pc : k ≠ .fetch → k ≠ .execute → t.pc = s.pc
  mem : k ≠ .memory → t.mem = s.mem
  fault : k ≠ .decIssue → k ≠ .memory → t.fault = s.fault

theorem pipeStep_frame {k : PipeStep} {s t : State} (h : pipeStep k s = some t) :
    PipeFrame k s t := by
  cases k with
  | fetch =>
    obtain ⟨-, -, ⟨-, rfl⟩ | ⟨-, rfl⟩⟩ := fetchStep_cases h <;>
      exact ⟨rfl, fun _ => rfl, fun hk => absurd rfl hk, fun _ => rfl, fun _ _ => rfl⟩
  | decAccept =>
    obtain ⟨r, -, -, -, -, -, rfl⟩ := decAcceptStep_cases h
    exact ⟨rfl, fun _ => rfl, fun _ _ => rfl, fun _ => rfl, fun _ _ => rfl⟩
  | decIssue =>
    obtain ⟨r, -, ⟨kind, -, rfl⟩ | ⟨j, -, -, -, rfl⟩⟩ := decIssueStep_cases h <;>
      exact ⟨rfl, fun _ => rfl, fun _ _ => rfl, fun _ => rfl, fun hk => absurd rfl hk⟩
  | execute =>
    obtain ⟨m, j, -, -, -, rfl⟩ := executeStep_cases h
    exact ⟨resolveBranch_params j m s, fun _ => resolveBranch_x j m s, fun _ hk => absurd rfl hk,
      fun _ => resolveBranch_mem j m s, fun _ _ => resolveBranch_fault j m s⟩
  | memory =>
    obtain ⟨e, -, -, ⟨-, rfl⟩ | ⟨-, -, rfl⟩ | ⟨-, -, -, rfl⟩ | ⟨-, -, -, rfl⟩⟩ :=
      memoryStep_cases h <;>
      exact ⟨rfl, fun _ => rfl, fun _ _ => rfl, fun hk => absurd rfl hk, fun _ hk => absurd rfl hk⟩
  | writeback =>
    obtain ⟨w, -, ⟨-, rfl⟩ | ⟨-, ht, -, rfl⟩⟩ := writebackStep_cases h
    · exact ⟨rfl, fun _ => rfl, fun _ _ => rfl, fun _ => rfl, fun _ _ => rfl⟩
    · exact ⟨writeReg_params _ _ s, fun hk => absurd rfl hk, fun _ _ => writeReg_pc _ _ s,
        fun _ => writeReg_mem _ _ s, fun _ _ => writeReg_fault _ _ s⟩

/-! ### What the writing steps write -/

/-- FETCH adds 1 to the program counter, inside memory and outside (R104, R105). -/
theorem fetchStep_pc {s t : State} (h : fetchStep s = some t) : t.pc = s.pc + 1 := by
  obtain ⟨-, -, ⟨-, rfl⟩ | ⟨-, rfl⟩⟩ := fetchStep_cases h <;> rfl

/-- EXECUTE writes the program counter for a branch that is taken, and then the target (R125). -/
theorem executeStep_pc {s t : State} (h : executeStep s = some t) :
    t.pc = s.pc ∨ ∃ m j, s.de = some m ∧ classify m.instructionWord = some j ∧
      j.isBranch = true ∧ branchTaken j m = true ∧ t.pc = microOpTarget m := by
  obtain ⟨m, j, hde, -, hj, rfl⟩ := executeStep_cases h
  have hpc := resolveBranch_pc j m s
  by_cases htaken : (j.isBranch && branchTaken j m) = true
  · obtain ⟨hb, ht⟩ := Bool.and_eq_true_iff.1 htaken
    exact .inr ⟨m, j, hde, hj, hb, ht, hpc.trans (if_pos htaken)⟩
  · exact .inl (hpc.trans (if_neg htaken))

/-- MEMORY writes memory for a store whose address exists, and then the one word (R130). -/
theorem memoryStep_mem {s t : State} (h : memoryStep s = some t) :
    t.mem = s.mem ∨ ∃ e, s.em = some e ∧ e.isMemoryOp = true ∧ e.destinationLockAdded = false ∧
      inRange s.params e.aluOrAddressResult.toNat = true ∧
      t.mem = Memory.write s.mem (truncWord e.aluOrAddressResult).toNat (truncWord e.storeData) := by
  obtain ⟨e, he, -, ⟨-, rfl⟩ | ⟨-, -, rfl⟩ | ⟨-, -, -, rfl⟩ | ⟨hop, hr, hl, rfl⟩⟩ :=
    memoryStep_cases h
  · exact .inl rfl
  · exact .inl rfl
  · exact .inl rfl
  · exact .inr ⟨e, he, hop, hl, hr, rfl⟩

/-- MEMORY leaves the fault record or replaces it by one of its own (R132, R142). -/
theorem memoryStep_fault {s t : State} (h : memoryStep s = some t) :
    t.fault = s.fault ∨
      ∃ e, s.em = some e ∧ t.fault = some { kind := .memoryRange, addr := e.instrAddr } := by
  obtain ⟨e, he, -, ⟨-, rfl⟩ | ⟨-, -, rfl⟩ | ⟨-, -, -, rfl⟩ | ⟨-, -, -, rfl⟩⟩ :=
    memoryStep_cases h
  · exact .inl rfl
  · exact .inr ⟨e, he, rfl⟩
  · exact .inl rfl
  · exact .inl rfl

/-- After a fault only the two oldest stages go on: FETCH and DEC_ACCEPT ask for an empty record (R104,
R111), and DEC_ISSUE and EXECUTE find their slots empty, by the invariant. -/
theorem pipeStep_after_fault {k : PipeStep} {s t : State} (hs : Inv s)
    (h : pipeStep k s = some t) (hf : s.fault ≠ none) : k = .memory ∨ k = .writeback := by
  obtain ⟨-, hdin, hde⟩ := hs.stopped hf
  cases k with
  | fetch =>
    obtain ⟨-, hnone, -⟩ := fetchStep_cases h
    exact absurd hnone hf
  | decAccept =>
    obtain ⟨r, -, -, -, -, hnone, -⟩ := decAcceptStep_cases h
    exact absurd hnone hf
  | decIssue =>
    obtain ⟨r, hr, -⟩ := decIssueStep_cases h
    cases hdin.symm.trans hr
  | execute =>
    obtain ⟨m, j, hm, -⟩ := executeStep_cases h
    cases hde.symm.trans hm
  | memory => exact .inl rfl
  | writeback => exact .inr rfl

/-! ### The step of the core -/

/-- A step that `firstEnabled` takes is a step of its list. -/
theorem firstEnabled_eq_some {ks : List PipeStep} {s t : State} (h : firstEnabled ks s = some t) :
    ∃ k ∈ ks, pipeStep k s = some t := by
  induction ks with
  | nil => cases h
  | cons k ks ih =>
    cases hk : pipeStep k s with
    | some u =>
      simp only [firstEnabled, hk] at h
      exact ⟨k, .head _, hk.trans h⟩
    | none =>
      simp only [firstEnabled, hk] at h
      obtain ⟨l, hl, hu⟩ := ih h
      exact ⟨l, .tail _ hl, hu⟩

/-- A step of the core that goes on is an instruction of the sequential level when nothing is in flight,
else a step of the pipeline (log 1). -/
theorem step_cases {s t : State} (h : step s = .next t) :
    (s.slotsEmpty = true ∧ s.fault = none ∧ s.instrStep = .next t) ∨
    (s.slotsEmpty = false ∧ ∃ k, pipeStep k s = some t) := by
  unfold step at h
  cases he : s.slotsEmpty
  · cases hk : firstEnabled oldestFirst s with
    | none => simp [he, hk] at h
    | some u =>
      obtain ⟨k, -, hu⟩ := firstEnabled_eq_some hk
      obtain rfl : u = t := by simpa [he, hk] using h
      exact .inr ⟨rfl, k, hu⟩
  · cases hf : s.fault with
    | some f => simp [he, hf] at h
    | none => exact .inl ⟨rfl, rfl, by simpa [he, hf] using h⟩

theorem step_params {s t : State} (h : step s = .next t) : t.params = s.params := by
  obtain ⟨-, -, hi⟩ | ⟨-, k, hk⟩ := step_cases h
  · exact instrStep_params hi
  · exact (pipeStep_frame hk).params

/-! ### The obligations -/

/-- Settles O46: by the frame only MEMORY writes memory, and what it writes is the word of a store. -/
theorem onlyStoresWriteMemory : Obligations.OnlyStoresWriteMemory := by
  intro k s t h hp hne
  obtain rfl : k = .memory := by
    by_contra hk
    exact hne ((pipeStep_frame h).mem hk)
  obtain hmem | ⟨e, he, hop, hl, hr, hmem⟩ := memoryStep_mem h
  · exact absurd hmem hne
  · refine ⟨rfl, e, he, hop, hl, (inRange_iff _ _).1 hr, fun b hb => ?_⟩
    rw [hmem, truncWord_toNat_of_inRange hp hr]
    exact Memory.read_write_ne s.mem _ hb

/-- Settles O48: after a fault only MEMORY and WRITEBACK go on, and only MEMORY makes a record. -/
theorem faultRecordStays : Obligations.FaultRecordStays := by
  intro k s t hs h hf
  obtain rfl | rfl := pipeStep_after_fault hs h hf
  · refine ⟨?_, .inl rfl, fun _ => rfl⟩
    obtain hkept | ⟨e, -, hnew⟩ := memoryStep_fault h
    · rwa [hkept]
    · simp [hnew]
  · have hkept : t.fault = s.fault := (pipeStep_frame h).fault nofun nofun
    exact ⟨by rwa [hkept], .inr rfl, fun hne => absurd hkept hne⟩

/-- Settles O16: every shape of a meaning that has a destination checks it for 31 first. -/
theorem registerThirtyOneIsConstantZero : Obligations.RegisterThirtyOneIsConstantZero :=
  ⟨readReg_xzr, fun s v => writeReg_eq_self_of_xzr v s,
    fun _ s h => ⟨_, exec_of_dest_xzr h s, raised_raise .illegalDestination s⟩⟩

/-- Settles O34: the fields of `State.reset`, each as the rule gives it. -/
theorem resetValues : Obligations.ResetValues := by
  have hdrained : State.reset.Drained := ⟨rfl, rfl, rfl⟩
  have hmem : ∀ a, Memory.read State.reset.mem a = 0 := fun _ => rfl
  exact ⟨rfl, hmem, hdrained, rfl, readReg_xzr _, rfl⟩

/-- Settles O47: by the frame only FETCH and EXECUTE can write the program counter, and each writes what
its rule says. -/
theorem onlyFetchAndTakenBranchesWritePc : Obligations.OnlyFetchAndTakenBranchesWritePc := by
  intro k s t h hne
  by_cases hfetch : k = .fetch
  · subst hfetch
    exact .inl ⟨rfl, fetchStep_pc h⟩
  · by_cases hexecute : k = .execute
    · subst hexecute
      obtain hkept | htaken := executeStep_pc h
      · exact absurd hkept hne
      · exact .inr ⟨rfl, htaken⟩
    · exact absurd ((pipeStep_frame h).pc hfetch hexecute) hne

/-- Settles O49: no pipeline step and no instruction writes the parameters. -/
theorem parametersNeverChange : Obligations.ParametersNeverChange :=
  ⟨fun _ _ _ h => (pipeStep_frame h).params, fun _ _ h => step_params h⟩

end Sys2Proof.Machine
end

section
/-! PROOFS. Memory (20_memory.md): the operations and transactions of the Memory Access Unit, the load
that follows a store, and which of the recorded stores a fetch can miss (R52). -/

namespace Sys2Proof.Machine

open Sys2Proof

/-! ### The Memory Access Unit inside memory -/

/-- R37: `read` copies the word at the address latch into the data latch. -/
theorem mauRead_of_inRange {s : State} (h : inRange s.params s.mauAddr.toNat = true) :
    s.mauRead = some { s with mauData := Memory.read s.mem s.mauAddr.toNat } := if_pos h

/-- R37: `write` copies the data latch into the word at the address latch. -/
theorem mauWrite_of_inRange {s : State} (h : inRange s.params s.mauAddr.toNat = true) :
    s.mauWrite = some { s with mem := Memory.write s.mem s.mauAddr.toNat s.mauData } := if_pos h

/-! ### A store and the load after it -/

/-- R45, R94 to R97: the four stores are one operation. -/
theorem exec_of_mem_stores {st : Instr} {rt rn : RegIx} {off9 : BitVec 9}
    (h : st ∈ [Instr.stur rt rn off9, .sturb rt rn off9, .sturh rt rn off9, .sturw rt rn off9])
    (s : State) : exec st s = .next (s.store rt rn off9) := by
  fin_cases h <;> rfl

/-- R45, R90 to R93: the four loads are one operation. -/
theorem exec_of_mem_loads {ld : Instr} {rd rn : RegIx} {off9 : BitVec 9}
    (h : ld ∈ [Instr.ldur rd rn off9, .ldurb rd rn off9, .ldurh rd rn off9, .ldursw rd rn off9])
    (s : State) : exec ld s = .next (s.load rd rn off9) := by
  fin_cases h <;> rfl

/-- A store leaves the registers alone, whether it stores or raises. -/
@[simp] theorem readReg_store (rt rn : RegIx) (off9 : BitVec 9) (s : State) (r : RegIx) :
    (s.store rt rn off9).readReg r = s.readReg r := by
  obtain ⟨-, h⟩ | ⟨-, h⟩ := store_cases rt rn off9 s <;> rw [h] <;> rfl

/-- R94, D15: a store inside memory puts the low 32 bits of its register into the word. -/
theorem read_store_mem {rt rn : RegIx} {off9 : BitVec 9} {s : State} (hwf : Memory.wf s.mem = true)
    (hr : inRange s.params (effectiveAddress s.params (s.readReg rn) off9).toNat = true) :
    Memory.read (s.store rt rn off9).mem
      (truncWord (effectiveAddress s.params (s.readReg rn) off9)).toNat =
        truncWord (s.readReg rt) := by
  obtain ⟨hout, -⟩ | ⟨-, h⟩ := store_cases rt rn off9 s
  · cases hout.symm.trans hr
  · rw [h]
    exact Memory.read_write_of_wf hwf _ _

/-- R90: a load inside memory puts the word into its destination, zero-extended. -/
theorem readReg_load {rd rn : RegIx} {off9 : BitVec 9} {s : State} (hrd : rd ≠ xzr)
    (hr : inRange s.params (effectiveAddress s.params (s.readReg rn) off9).toNat = true) :
    (s.load rd rn off9).readReg rd =
      zextWord (Memory.read s.mem
        (truncWord (effectiveAddress s.params (s.readReg rn) off9)).toNat) := by
  obtain ⟨hx, -⟩ | ⟨-, hout, -⟩ | ⟨-, -, h⟩ := load_cases rd rn off9 s
  · exact absurd hx hrd
  · cases hout.symm.trans hr
  · rw [h, readReg_advance, readReg_writeReg_self hrd]

theorem zextWord_truncWord_toNat (v : XVal) : (zextWord (truncWord v)).toNat = v.toNat % 2 ^ 32 := by
  simp only [zextWord, truncWord, BitVec.toNat_setWidth]
  omega

/-! ### The record of the last two stores and the fetch -/

/-- A word is settled exactly when no recorded instruction stored to it (R52). -/
theorem settledAt_iff (a : Word) (s : State) :
    s.settledAt a = true ↔ ∀ u, some u ∈ s.recentStores → u.addr ≠ a := by
  unfold State.settledAt
  rw [List.all_eq_true]
  constructor
  · intro h u hu
    exact of_decide_eq_true (h _ hu)
  · intro h x hx
    cases x with
    | none => rfl
    | some u => exact decide_eq_true (h u hx)

/-- Undoing the newest instruction leaves some word, from which the older ones are undone. -/
theorem undoStores_cons (x : Option StoreUndo) (a w : Word) :
    ∃ v, ∀ n l, undoStores (n + 1) (x :: l) a w = undoStores n l a v := by
  cases x with
  | none => exact ⟨w, fun _ _ => rfl⟩
  | some u => exact ⟨if u.addr = a then u.old else w, fun _ _ => rfl⟩

/-- Undoing a store to the address gives back what it stored over. -/
theorem undoStores_cons_of_eq {u : StoreUndo} {a : Word} (h : u.addr = a) (n : Nat)
    (l : List (Option StoreUndo)) (w : Word) :
    undoStores (n + 1) (some u :: l) a w = undoStores n l a u.old := by
  rw [undoStores, if_pos h]

/-- Undoing an instruction that did not store to the address changes nothing there. -/
theorem undoStores_cons_of_ne {x : Option StoreUndo} {a : Word} (h : ∀ u, x = some u → u.addr ≠ a)
    (n : Nat) (l : List (Option StoreUndo)) (w : Word) :
    undoStores (n + 1) (x :: l) a w = undoStores n l a w := by
  cases x with
  | none => rfl
  | some u => rw [undoStores, if_neg (h u rfl)]

/-- A fetch overtakes none, one or two of the recorded instructions (log 7). -/
theorem exists_fetchedWord_eq_wordWithLag (s : State) :
    ∃ n < 3, s.fetchedWord = s.wordWithLag n := by
  by_cases h : s.settledAt s.pc = true
  · exact ⟨0, by omega, fetchedWord_of_settled h⟩
  · exact ⟨Config.fetchLag s.draws % 3, Nat.mod_lt _ (by omega), if_neg h⟩

/-! ### An instruction that retires and does not store to a word -/

/-- The instruction from `s` to `t` retired: it raised nothing, left the word at `a` as it was, and
joined the record of the last two as one that did not store to `a`. -/
structure RetiredBeside (a : Word) (s t : State) : Prop where
  fault : s.fault = none
  read : Memory.read t.mem a.toNat = Memory.read s.mem a.toNat
  recentStores : ∃ x, t.recentStores = (x :: s.recentStores).take 2 ∧
    ∀ u, x = some u → u.addr ≠ a

theorem writeDest_retiredBeside {rd : RegIx} {v : XVal} {s : State} (a : Word)
    (hf : (s.writeDest rd v).fault = none) : RetiredBeside a s (s.writeDest rd v) := by
  obtain ⟨-, h⟩ | ⟨-, h⟩ := writeDest_cases rd v s <;> rw [h] at hf ⊢
  · cases hf
  · exact ⟨by simpa using hf, by simp, none, by simp, nofun⟩

theorem load_retiredBeside {rt rn : RegIx} {off9 : BitVec 9} {s : State} (a : Word)
    (hf : (s.load rt rn off9).fault = none) : RetiredBeside a s (s.load rt rn off9) := by
  obtain ⟨-, h⟩ | ⟨-, -, h⟩ | ⟨-, -, h⟩ := load_cases rt rn off9 s <;> rw [h] at hf ⊢
  · cases hf
  · cases hf
  · exact ⟨by simpa using hf, by simp, none, by simp, nofun⟩

theorem branch_retiredBeside {taken : Bool} {w : Nat} {off : BitVec w} {s : State} (a : Word)
    (hf : (s.branch taken off).fault = none) : RetiredBeside a s (s.branch taken off) :=
  ⟨hf, rfl, none, rfl, nofun⟩

/-- A store that retires wrote the one word it names; any other word `a` it left alone. The address in
the record is the one at all `XLEN` bits, since that one is inside memory. -/
theorem store_retiredBeside {rt rn : RegIx} {off9 : BitVec 9} {s : State} {a : Word}
    (hp : s.params.Valid) (hf : (s.store rt rn off9).fault = none)
    (ha : (effectiveAddress s.params (s.readReg rn) off9).toNat ≠ a.toNat) :
    RetiredBeside a s (s.store rt rn off9) := by
  obtain ⟨-, h⟩ | ⟨hr, h⟩ := store_cases rt rn off9 s <;> rw [h] at hf ⊢
  · cases hf
  · rw [← truncWord_toNat_of_inRange hp hr] at ha
    refine ⟨hf, Memory.read_write_ne s.mem _ ha.symm, _, rfl, fun u hu hua => ha ?_⟩
    obtain rfl := Option.some.inj hu
    exact congrArg BitVec.toNat hua

/-- An instruction that retires without storing to `a` leaves `a` alone: one with a destination writes or
loads, one without stores or branches. -/
theorem exec_retiredBeside {i : Instr} {s t : State} {a : Word} (hp : s.params.Valid)
    (h : exec i s = .next t) (hf : t.fault = none)
    (ha : ∀ ea, storeAddress s i = some ea → ea.toNat ≠ a.toNat) : RetiredBeside a s t := by
  cases hd : i.dest with
  | some rd =>
    obtain ⟨t', ht, hshape⟩ := exec_shape i s
    obtain rfl : t' = t := Host.Outcome.next.inj (ht.symm.trans h)
    cases hshape with
    | writeDest => exact writeDest_retiredBeside a hf
    | load => exact load_retiredBeside a hf
    | store _ _ _ hnone => cases hd.symm.trans hnone
    | branch _ _ hnone => cases hd.symm.trans hnone
  | none =>
    cases i with
    | stur | sturb | sturh | sturw =>
      obtain rfl := Host.Outcome.next.inj h
      exact store_retiredBeside hp hf (ha _ rfl)
    | b | cbz | cbnz =>
      obtain rfl := Host.Outcome.next.inj h
      exact branch_retiredBeside a hf
    | _ => cases hd

/-- After two such instructions the record holds nothing about `a`. -/
theorem settledAt_of_retiredBeside_twice {a : Word} {s t u : State} (hst : RetiredBeside a s t)
    (htu : RetiredBeside a t u) : u.settledAt a = true := by
  obtain ⟨x, hx, hxa⟩ := hst.recentStores
  obtain ⟨y, hy, hya⟩ := htu.recentStores
  have hrecord : u.recentStores = [y, x] := by rw [hy, hx]; simp
  rw [settledAt_iff, hrecord]
  intro v hv
  obtain rfl | hv := List.mem_cons.1 hv
  · exact hya v rfl
  · exact hxa v (List.mem_singleton.1 hv).symm

/-! ### The obligations -/

/-- Settles O31: each operation is its update, and a write is seen at its own word only. -/
theorem mauOperations : Obligations.MauOperations := by
  intro s v
  refine ⟨rfl, rfl, rfl, fun h => ?_⟩
  have hr := (inRange_iff s.params _).2 h
  exact ⟨mauRead_of_inRange hr, _, mauWrite_of_inRange hr,
    fun hwf => Memory.read_write_of_wf hwf _ _, fun _ hb => Memory.read_write_ne s.mem _ hb, rfl⟩

/-- Settles O32: the two transactions inside memory. -/
theorem transactionsLeaveTheirLatches : Obligations.TransactionsLeaveTheirLatches := by
  intro s a d h
  have hr := (inRange_iff s.params _).2 h
  constructor
  · exact ⟨_, (readTransaction_eq a s).trans (if_pos hr), rfl, rfl, rfl, rfl⟩
  · exact ⟨_, (writeTransaction_eq a d s).trans (if_pos hr), rfl, rfl,
      fun hwf => Memory.read_write_of_wf hwf _ _, fun _ hb => Memory.read_write_ne s.mem _ hb, rfl⟩

/-- Settles O22: the word fetched is memory's with the stores of at most two instructions undone. -/
theorem fetchReadsOldOrNewWord : Obligations.FetchReadsOldOrNewWord := by
  refine ⟨fun s => ?_, fun s h => ?_, fun s => ?_, fun s => rfl, fun s x l hl => ?_,
    fun s x y l hl => ?_⟩
  · obtain ⟨n, -, h⟩ := exists_fetchedWord_eq_wordWithLag s
    rw [h]
    exact undoStores_cases n s.recentStores s.pc _
  · exact fetchedWord_of_settled ((settledAt_iff s.pc s).2 h)
  · obtain ⟨n, hn, h⟩ := exists_fetchedWord_eq_wordWithLag s
    obtain rfl | rfl | rfl : n = 0 ∨ n = 1 ∨ n = 2 := by omega
    exacts [.inl h, .inr (.inl h), .inr (.inr h)]
  · unfold State.wordWithLag
    rw [hl]
    refine ⟨?_, fun h => undoStores_cons_of_ne h 0 l _⟩
    rintro u rfl h
    exact undoStores_cons_of_eq h 0 l _
  · unfold State.wordWithLag
    rw [hl]
    obtain ⟨v, hv⟩ := undoStores_cons x s.pc (Memory.read s.mem s.pc.toNat)
    rw [hv, hv]
    refine ⟨?_, fun h => undoStores_cons_of_ne h 0 l v⟩
    rintro u rfl h
    exact undoStores_cons_of_eq h 0 l v

/-- Settles O17: the store leaves the base register and the parameters alone, so the load goes to the
same address, which is inside memory and holds the word stored. -/
theorem loadReturnsTheStoredWord : Obligations.LoadReturnsTheStoredWord := by
  intro s rt rd rn off9 st ld hwf _ hrd hlt hst hld
  have hr := (inRange_iff s.params _).2 hlt
  refine ⟨_, _, exec_of_mem_stores hst s, exec_of_mem_loads hld _, ?_⟩
  rw [readReg_load hrd (by simpa using hr), store_params, readReg_store, read_store_mem hwf hr,
    zextWord_truncWord_toNat]

/-- Settles O23: both instructions retired beside `a`, and the record holds no more than two. -/
theorem fetchIsCertainAtDistanceThree : Obligations.FetchIsCertainAtDistanceThree := by
  intro i j s t u a hp hi hj hf hia hja
  have hpt : t.params.Valid := by rwa [exec_params hi]
  have htu : RetiredBeside a t u := exec_retiredBeside hpt hj hf hja
  have hst : RetiredBeside a s t := exec_retiredBeside hp hi htu.fault hia
  have hsettled : u.settledAt a = true := settledAt_of_retiredBeside_twice hst htu
  have hread : Memory.read u.mem a.toNat = Memory.read s.mem a.toNat := htu.read.trans hst.read
  refine ⟨hsettled, hread, ?_⟩
  rintro rfl
  exact (fetchedWord_of_settled hsettled).trans hread

end Sys2Proof.Machine
end

section
/-! PROOFS. The encoding (30_encoding.md): the word of an instruction and the fields of a word in both
directions, the ignored bits, the immediate latch, and what the core does with a word that is no legal
instruction. -/

namespace Sys2Proof

/-! ### The fields of an encoded word -/

section Fields

variable (op6 : BitVec 6) (op8 : BitVec 8) (op9 : BitVec 9) (op10 : BitVec 10) (op11 : BitVec 11)
variable (rd rn rm : RegIx) (hw : BitVec 2) (imm16 : BitVec 16) (imm12 : BitVec 12)
variable (off9 : BitVec 9) (off19 : BitVec 19) (off26 : BitVec 26)

@[simp] theorem fieldRd_encodeIM : fieldRd (encodeIM op9 hw imm16 rd) = rd := by
  apply BitVec.eq_of_toNat_eq
  rw [toNat_fieldRd, toNat_encodeIM]
  omega

@[simp] theorem fieldImm16_encodeIM : fieldImm16 (encodeIM op9 hw imm16 rd) = imm16 := by
  apply BitVec.eq_of_toNat_eq
  rw [toNat_fieldImm16, toNat_encodeIM]
  omega

@[simp] theorem fieldHw_encodeIM : fieldHw (encodeIM op9 hw imm16 rd) = hw := by
  apply BitVec.eq_of_toNat_eq
  rw [toNat_fieldHw, toNat_encodeIM]
  omega

@[simp] theorem fieldRd_encodeR : fieldRd (encodeR op11 rm rn rd) = rd := by
  apply BitVec.eq_of_toNat_eq
  rw [toNat_fieldRd, toNat_encodeR]
  omega

@[simp] theorem fieldRn_encodeR : fieldRn (encodeR op11 rm rn rd) = rn := by
  apply BitVec.eq_of_toNat_eq
  rw [toNat_fieldRn, toNat_encodeR]
  omega

@[simp] theorem fieldRm_encodeR : fieldRm (encodeR op11 rm rn rd) = rm := by
  apply BitVec.eq_of_toNat_eq
  rw [toNat_fieldRm, toNat_encodeR]
  omega

@[simp] theorem fieldRd_encodeI : fieldRd (encodeI op10 imm12 rn rd) = rd := by
  apply BitVec.eq_of_toNat_eq
  rw [toNat_fieldRd, toNat_encodeI]
  omega

@[simp] theorem fieldRn_encodeI : fieldRn (encodeI op10 imm12 rn rd) = rn := by
  apply BitVec.eq_of_toNat_eq
  rw [toNat_fieldRn, toNat_encodeI]
  omega

@[simp] theorem fieldImm12_encodeI : fieldImm12 (encodeI op10 imm12 rn rd) = imm12 := by
  apply BitVec.eq_of_toNat_eq
  rw [toNat_fieldImm12, toNat_encodeI]
  omega

@[simp] theorem fieldRd_encodeD : fieldRd (encodeD op11 off9 rn rd) = rd := by
  apply BitVec.eq_of_toNat_eq
  rw [toNat_fieldRd, toNat_encodeD]
  omega

@[simp] theorem fieldRn_encodeD : fieldRn (encodeD op11 off9 rn rd) = rn := by
  apply BitVec.eq_of_toNat_eq
  rw [toNat_fieldRn, toNat_encodeD]
  omega

@[simp] theorem fieldOff9_encodeD : fieldOff9 (encodeD op11 off9 rn rd) = off9 := by
  apply BitVec.eq_of_toNat_eq
  rw [toNat_fieldOff9, toNat_encodeD]
  omega

@[simp] theorem fieldOff26_encodeB : fieldOff26 (encodeB op6 off26) = off26 := by
  apply BitVec.eq_of_toNat_eq
  rw [toNat_fieldOff26, toNat_encodeB]
  omega

@[simp] theorem fieldRd_encodeCB : fieldRd (encodeCB op8 off19 rd) = rd := by
  apply BitVec.eq_of_toNat_eq
  rw [toNat_fieldRd, toNat_encodeCB]
  omega

@[simp] theorem fieldOff19_encodeCB : fieldOff19 (encodeCB op8 off19 rd) = off19 := by
  apply BitVec.eq_of_toNat_eq
  rw [toNat_fieldOff19, toNat_encodeCB]
  omega

end Fields

/-! ### Decoding the word of an instruction -/

/-- The word of an instruction lies in the range of the instruction's own row (R63). -/
theorem classify_encode (i : Instr) : classify (encode i) = some i.mnemonic := by
  cases i with
  | b off => exact Laws.ClassifyEncode.b off
  | sturb rt rn off => exact Laws.ClassifyEncode.sturb rt rn off
  | ldurb rt rn off => exact Laws.ClassifyEncode.ldurb rt rn off
  | sturh rt rn off => exact Laws.ClassifyEncode.sturh rt rn off
  | ldurh rt rn off => exact Laws.ClassifyEncode.ldurh rt rn off
  | add rd rn rm => exact Laws.ClassifyEncode.add rd rn rm
  | addi rd rn imm => exact Laws.ClassifyEncode.addi rd rn imm
  | adds rd rn rm => exact Laws.ClassifyEncode.adds rd rn rm
  | addis rd rn imm => exact Laws.ClassifyEncode.addis rd rn imm
  | cbz rt off => exact Laws.ClassifyEncode.cbz rt off
  | cbnz rt off => exact Laws.ClassifyEncode.cbnz rt off
  | sturw rt rn off => exact Laws.ClassifyEncode.sturw rt rn off
  | ldursw rt rn off => exact Laws.ClassifyEncode.ldursw rt rn off
  | sub rd rn rm => exact Laws.ClassifyEncode.sub rd rn rm
  | subi rd rn imm => exact Laws.ClassifyEncode.subi rd rn imm
  | movz rd imm hw => exact Laws.ClassifyEncode.movz rd imm hw
  | subs rd rn rm => exact Laws.ClassifyEncode.subs rd rn rm
  | subis rd rn imm => exact Laws.ClassifyEncode.subis rd rn imm
  | movk rd imm hw => exact Laws.ClassifyEncode.movk rd imm hw
  | stur rt rn off => exact Laws.ClassifyEncode.stur rt rn off
  | ldur rt rn off => exact Laws.ClassifyEncode.ldur rt rn off

/-- The operands of an instruction are read back from the fields of its word. -/
theorem instrOf_encode (i : Instr) : instrOf i.mnemonic (encode i) = i := by
  cases i with
  | movz | movk => simp [instrOf, encode, Instr.mnemonic]
  | add | adds | sub | subs => simp [instrOf, encode, Instr.mnemonic]
  | addi | addis | subi | subis => simp [instrOf, encode, Instr.mnemonic]
  | ldur | ldurb | ldurh | ldursw => simp [instrOf, encode, Instr.mnemonic]
  | stur | sturb | sturh | sturw => simp [instrOf, encode, Instr.mnemonic]
  | b => simp [instrOf, encode, Instr.mnemonic]
  | cbz | cbnz => simp [instrOf, encode, Instr.mnemonic]

theorem decode_of_classify {w : Word} {k : Mnemonic} (h : classify w = some k) :
    decode w = .ok (instrOf k w) := by
  unfold decode; rw [h]

theorem decode_of_classify_none {w : Word} (h : classify w = none) :
    decode w = .error (.unknownOpcode (opcode11 w)) := by
  unfold decode; rw [h]

/-- A word decodes to the instruction of its row that stands in its fields. -/
theorem decode_eq_ok_iff {w : Word} {i : Instr} :
    decode w = .ok i ↔ ∃ k, classify w = some k ∧ instrOf k w = i := by
  cases hk : classify w with
  | none => simp [decode_of_classify_none hk]
  | some k => simp [decode_of_classify hk]

theorem decode_encode (i : Instr) : decode (encode i) = .ok i :=
  decode_eq_ok_iff.2 ⟨i.mnemonic, classify_encode i, instrOf_encode i⟩

@[simp] theorem mnemonic_instrOf (k : Mnemonic) (w : Word) : (instrOf k w).mnemonic = k := by
  cases k <;> rfl

/-- R66: the destination, where the mnemonic has one, stands in bits 4:0. -/
theorem dest_instrOf (k : Mnemonic) (w : Word) :
    (instrOf k w).dest = if k.hasDest then some (fieldRd w) else none := by
  cases k <;> rfl

/-! ### Encoding the fields of a word -/

/-- The row of the opcode map that belongs to a mnemonic. -/
def Mnemonic.row (k : Mnemonic) : Option OpcodeRow := opcodeMap.find? fun r => r.mnemonic = k

/-- The range of a word's mnemonic bounds its `opcode11` (R63, R64): each mnemonic has one row. -/
theorem opcode11_of_classify {w : Word} {k : Mnemonic} (h : classify w = some k) {r : OpcodeRow}
    (hr : k.row = some r) : r.lo ≤ (opcode11 w).toNat ∧ (opcode11 w).toNat ≤ r.hi := by
  have hunique : ∀ q ∈ opcodeMap, q.mnemonic.row = some q := by decide
  obtain ⟨q, hq, rfl, hlo, hhi⟩ := findRow_some h
  obtain rfl : q = r := Option.some.inj ((hunique q hq).symm.trans hr)
  exact ⟨hlo, hhi⟩

/-- Bits 15:10 of a word set to 0, as a number. -/
theorem toNat_and_clearR (w : Word) :
    (w &&& 0xFFFF03FF).toNat = w.toNat / 2 ^ 16 * 2 ^ 16 + w.toNat % 2 ^ 10 := by
  have h : w &&& 0xFFFF03FF = w.extractLsb' 16 16 ++ 0#6 ++ w.extractLsb' 0 10 := by
    refine BitVec.eq_of_getLsbD_eq fun i hi => ?_
    rw [BitVec.getLsbD_append, BitVec.getLsbD_append]
    interval_cases i <;> simp
  rw [h, toNat_append_add, toNat_append_add, toNat_extract, toNat_extract, BitVec.toNat_ofNat]
  omega

/-- Bits 11:10 of a word set to 0, as a number. -/
theorem toNat_and_clearD (w : Word) :
    (w &&& 0xFFFFF3FF).toNat = w.toNat / 2 ^ 12 * 2 ^ 12 + w.toNat % 2 ^ 10 := by
  have h : w &&& 0xFFFFF3FF = w.extractLsb' 12 20 ++ 0#2 ++ w.extractLsb' 0 10 := by
    refine BitVec.eq_of_getLsbD_eq fun i hi => ?_
    rw [BitVec.getLsbD_append, BitVec.getLsbD_append]
    interval_cases i <;> simp
  rw [h, toNat_append_add, toNat_append_add, toNat_extract, toNat_extract, BitVec.toNat_ofNat]
  omega

/-! Each format: when the word's `opcode11` begins with the fixed bits `op`, encoding its fields with `op`
gives the word, with 0 for the bits that no field covers. -/

theorem encodeIM_fields {w : Word} {op : BitVec 9} (hlo : op.toNat * 4 ≤ (opcode11 w).toNat)
    (hhi : (opcode11 w).toNat ≤ op.toNat * 4 + 3) :
    encodeIM op (fieldHw w) (fieldImm16 w) (fieldRd w) = w := by
  apply BitVec.eq_of_toNat_eq
  rw [toNat_opcode11] at hlo hhi
  rw [toNat_encodeIM, toNat_fieldHw, toNat_fieldImm16, toNat_fieldRd]
  omega

theorem encodeR_fields {w : Word} {op : BitVec 11} (hlo : op.toNat ≤ (opcode11 w).toNat)
    (hhi : (opcode11 w).toNat ≤ op.toNat) :
    encodeR op (fieldRm w) (fieldRn w) (fieldRd w) = w &&& 0xFFFF03FF := by
  apply BitVec.eq_of_toNat_eq
  rw [toNat_opcode11] at hlo hhi
  rw [toNat_encodeR, toNat_fieldRm, toNat_fieldRn, toNat_fieldRd, toNat_and_clearR]
  omega

theorem encodeI_fields {w : Word} {op : BitVec 10} (hlo : op.toNat * 2 ≤ (opcode11 w).toNat)
    (hhi : (opcode11 w).toNat ≤ op.toNat * 2 + 1) :
    encodeI op (fieldImm12 w) (fieldRn w) (fieldRd w) = w := by
  apply BitVec.eq_of_toNat_eq
  rw [toNat_opcode11] at hlo hhi
  rw [toNat_encodeI, toNat_fieldImm12, toNat_fieldRn, toNat_fieldRd]
  omega

theorem encodeD_fields {w : Word} {op : BitVec 11} (hlo : op.toNat ≤ (opcode11 w).toNat)
    (hhi : (opcode11 w).toNat ≤ op.toNat) :
    encodeD op (fieldOff9 w) (fieldRn w) (fieldRd w) = w &&& 0xFFFFF3FF := by
  apply BitVec.eq_of_toNat_eq
  rw [toNat_opcode11] at hlo hhi
  rw [toNat_encodeD, toNat_fieldOff9, toNat_fieldRn, toNat_fieldRd, toNat_and_clearD]
  omega

theorem encodeB_fields {w : Word} {op : BitVec 6} (hlo : op.toNat * 32 ≤ (opcode11 w).toNat)
    (hhi : (opcode11 w).toNat ≤ op.toNat * 32 + 31) : encodeB op (fieldOff26 w) = w := by
  apply BitVec.eq_of_toNat_eq
  rw [toNat_opcode11] at hlo hhi
  rw [toNat_encodeB, toNat_fieldOff26]
  omega

theorem encodeCB_fields {w : Word} {op : BitVec 8} (hlo : op.toNat * 8 ≤ (opcode11 w).toNat)
    (hhi : (opcode11 w).toNat ≤ op.toNat * 8 + 7) :
    encodeCB op (fieldOff19 w) (fieldRd w) = w := by
  apply BitVec.eq_of_toNat_eq
  rw [toNat_opcode11] at hlo hhi
  rw [toNat_encodeCB, toNat_fieldOff19, toNat_fieldRd]
  omega

/-- The instruction that stands in a word's fields has that word, its ignored bits cleared (R69). -/
theorem encode_instrOf {w : Word} {k : Mnemonic} (h : classify w = some k) :
    encode (instrOf k w) = clearIgnored k w := by
  cases k with
  | movz | movk =>
    obtain ⟨hlo, hhi⟩ := opcode11_of_classify h rfl
    exact encodeIM_fields hlo hhi
  | add | adds | sub | subs =>
    obtain ⟨hlo, hhi⟩ := opcode11_of_classify h rfl
    exact encodeR_fields hlo hhi
  | addi | addis | subi | subis =>
    obtain ⟨hlo, hhi⟩ := opcode11_of_classify h rfl
    exact encodeI_fields hlo hhi
  | ldur | ldurb | ldurh | ldursw | stur | sturb | sturh | sturw =>
    obtain ⟨hlo, hhi⟩ := opcode11_of_classify h rfl
    exact encodeD_fields hlo hhi
  | b =>
    obtain ⟨hlo, hhi⟩ := opcode11_of_classify h rfl
    exact encodeB_fields hlo hhi
  | cbz | cbnz =>
    obtain ⟨hlo, hhi⟩ := opcode11_of_classify h rfl
    exact encodeCB_fields hlo hhi

/-! ### The ignored bits -/

/-- A change of the `n` bits from bit 10 on is not seen in a field that lies below or above them. -/
theorem extract_xor_shift {n : Nat} (w : Word) (m : BitVec n) {lo len : Nat}
    (h : lo + len ≤ 10 ∨ 10 + n ≤ lo) :
    (w ^^^ (m.setWidth 32 <<< 10)).extractLsb' lo len = w.extractLsb' lo len := by
  ext i hi
  have hm : (m.setWidth 32 <<< 10).getLsbD (lo + i) = false := by
    rw [BitVec.getLsbD_shiftLeft, BitVec.getLsbD_setWidth]
    by_cases hlow : lo + i < 10
    · simp [hlow]
    · simp [BitVec.getLsbD_of_ge m (lo + i - 10) (by omega)]
  rw [BitVec.getElem_extractLsb', BitVec.getElem_extractLsb', BitVec.getLsbD_xor, hm, Bool.xor_false]

/-- Decoding sees the opcode and the fields of the instruction of that opcode, and nothing else. -/
theorem decode_congr {v w : Word} (hop : opcode11 v = opcode11 w)
    (hfields : ∀ k, classify w = some k → instrOf k v = instrOf k w) : decode v = decode w := by
  have hv : classify v = classify w := by unfold classify; rw [hop]
  cases hw : classify w with
  | none => rw [decode_of_classify_none hw, decode_of_classify_none (hv.trans hw), hop]
  | some k => rw [decode_of_classify hw, decode_of_classify (hv.trans hw), hfields k hw]

theorem instrOf_congr_formatR {k : Mnemonic} {v w : Word} (hk : k.format = .r)
    (hd : fieldRd v = fieldRd w) (hn : fieldRn v = fieldRn w) (hm : fieldRm v = fieldRm w) :
    instrOf k v = instrOf k w := by
  cases k with
  | add | adds | sub | subs => simp only [instrOf, hd, hn, hm]
  | _ => cases hk

theorem instrOf_congr_formatD {k : Mnemonic} {v w : Word} (hk : k.format = .d)
    (hd : fieldRd v = fieldRd w) (hn : fieldRn v = fieldRn w) (ho : fieldOff9 v = fieldOff9 w) :
    instrOf k v = instrOf k w := by
  cases k with
  | ldur | ldurb | ldurh | ldursw | stur | sturb | sturh | sturw => simp only [instrOf, hd, hn, ho]
  | _ => cases hk

/-! ### The obligations on words -/

/-- Settles O24: the word lies in the row of its instruction, and its fields hold the operands. -/
theorem decodeEncodeRoundTrip : Obligations.DecodeEncodeRoundTrip := decode_encode

/-- Settles O25: the row of the word fixes the bits that are no field. -/
theorem encodeDecodeRoundTrip : Obligations.EncodeDecodeRoundTrip := by
  intro w i h
  obtain ⟨k, hk, rfl⟩ := decode_eq_ok_iff.1 h
  rw [mnemonic_instrOf]
  exact encode_instrOf hk

/-- Settles O26: the ignored bits lie between the fields of their format. -/
theorem ignoredBitsDoNotMatter : Obligations.IgnoredBitsDoNotMatter := by
  intro w k hk
  refine ⟨fun hr m => ?_, fun hd m => ?_⟩
  · refine decode_congr (extract_xor_shift w m (by omega)) fun j hj => ?_
    obtain rfl : k = j := Option.some.inj (hk.symm.trans hj)
    exact instrOf_congr_formatR hr (extract_xor_shift w m (by omega))
      (extract_xor_shift w m (by omega)) (extract_xor_shift w m (by omega))
  · refine decode_congr (extract_xor_shift w m (by omega)) fun j hj => ?_
    obtain rfl : k = j := Option.some.inj (hk.symm.trans hj)
    exact instrOf_congr_formatD hd (extract_xor_shift w m (by omega))
      (extract_xor_shift w m (by omega)) (extract_xor_shift w m (by omega))

/-- Settles O28: each word is the encoding of its instruction. -/
theorem sampleWordsDecode : Obligations.SampleWordsDecode :=
  ⟨decode_encode (.movz 3 0x1234 1), decode_encode (.sub 3 31 2), decode_encode (.addi 1 1 0xFFF),
    decode_encode (.ldur 2 0 0x1FF), decode_encode (.sturw 1 0 0x100), decode_encode (.b 0x3FFFFFD),
    decode_encode (.cbnz 9 0x7FFFE)⟩

end Sys2Proof

namespace Sys2Proof.Machine

open Sys2Proof

/-! ### The immediate latch -/

/-- R65, in the form of R57: the latch of format IM is the field zero-extended. -/
theorem toNat_immediateLatch_of_im {k : Mnemonic} (h : k.format = .im) (w : Word) :
    (immediateLatch k w).toNat = (w.toNat / 2 ^ 5) % 2 ^ 16 := by
  simp only [immediateLatch, h, BitVec.toNat_setWidth, toNat_fieldImm16]
  omega

/-- Settles O27: the latch is widened by sign, except in format IM, and holds the field's value. -/
theorem immediateLatchHoldsTheFieldsValue : Obligations.ImmediateLatchHoldsTheFieldsValue := by
  intro k w
  refine ⟨fun h => toNat_immediateLatch_of_im h w, fun h => ?_, fun h => ?_, fun h => ?_,
    fun h => ?_, fun h => ?_⟩ <;> simp only [immediateLatch, h]
  all_goals exact BitVec.toInt_signExtend_of_le (by decide)

/-! ### The step on a settled word that is no legal instruction -/

theorem step_eq_instrStep {s : State} (he : s.slotsEmpty = true) (hf : s.fault = none) :
    step s = s.instrStep := by
  unfold step; rw [if_pos he, hf]

theorem instrStep_of_decode_ok {s : State} {i : Instr} (hpc : s.pc.toNat < s.params.memWords)
    (hs : s.settledAt s.pc = true) (hd : decode (Memory.read s.mem s.pc.toNat) = .ok i) :
    s.instrStep = exec i s.afterFetch := by
  unfold State.instrStep
  rw [if_pos ((inRange_iff _ _).2 hpc), fetchedWord_of_settled hs, hd]

theorem instrStep_of_decode_error {s : State} {e : DecodeError}
    (hpc : s.pc.toNat < s.params.memWords) (hs : s.settledAt s.pc = true)
    (hd : decode (Memory.read s.mem s.pc.toNat) = .error e) :
    s.instrStep = .next (s.afterFetch.raise .unknownOpcode) := by
  unfold State.instrStep
  rw [if_pos ((inRange_iff _ _).2 hpc), fetchedWord_of_settled hs, hd]

/-- A fatal error right after the fetch leaves the pipeline as it was before the fetch. -/
theorem samePipeline_raise_afterFetch (kind : FaultKind) (s : State) :
    SamePipeline (s.afterFetch.raise kind) s := ⟨rfl, rfl, rfl, rfl, rfl, rfl, rfl⟩

/-- An instruction without a destination can raise `MemoryRange` and nothing else (R94, R98). -/
theorem fault_exec_of_dest_none {i : Instr} (h : i.dest = none) (s : State) :
    ∃ t, exec i s = .next t ∧
      (t.fault = s.fault ∨ t.fault = some { kind := .memoryRange, addr := s.pc }) := by
  obtain ⟨t, ht, hshape⟩ := exec_shape i s
  refine ⟨t, ht, ?_⟩
  cases hshape with
  | writeDest rd v hd => cases hd.symm.trans h
  | load rt rn off hd => cases hd.symm.trans h
  | store rt rn off =>
    obtain ⟨-, hs⟩ | ⟨-, hs⟩ := store_cases rt rn off s <;> rw [hs]
    · exact .inr rfl
    · exact .inl rfl
  | branch taken off => exact .inl rfl

/-- Settles O19: the decoder's only error is the unknown opcode. -/
theorem unknownOpcodeStopsTheCore : Obligations.UnknownOpcodeStopsTheCore := by
  refine ⟨fun s he hf hpc hs hc => ?_, rfl⟩
  have hstep : step s = .next (s.afterFetch.raise .unknownOpcode) :=
    (step_eq_instrStep he hf).trans
      (instrStep_of_decode_error hpc hs (decode_of_classify_none hc))
  exact ⟨_, hstep, rfl, rfl, rfl, rfl, samePipeline_raise_afterFetch .unknownOpcode s⟩

/-- Settles O20: the destination of the decoded instruction is the field 31 where the mnemonic has one;
where it has none the instruction is a store or a branch. -/
theorem destinationThirtyOneStopsTheCore : Obligations.DestinationThirtyOneStopsTheCore := by
  intro s k he hf hpc hs hc hrd
  have hstep : step s = exec (instrOf k (Memory.read s.mem s.pc.toNat)) s.afterFetch :=
    (step_eq_instrStep he hf).trans (instrStep_of_decode_ok hpc hs (decode_of_classify hc))
  have hdest := dest_instrOf k (Memory.read s.mem s.pc.toNat)
  rw [hrd] at hdest
  refine ⟨fun hk => ?_, fun hk => ?_⟩ <;> rw [hk] at hdest
  · exact ⟨_, hstep.trans (exec_of_dest_xzr hdest _), rfl, rfl, rfl, rfl,
      samePipeline_raise_afterFetch .illegalDestination s⟩
  · obtain ⟨t, ht, hfault⟩ := fault_exec_of_dest_none hdest s.afterFetch
    refine ⟨t, hstep.trans ht, fun f hsome => ?_⟩
    obtain hnone | hrange := hfault
    · cases hsome.symm.trans (hnone.trans hf)
    · rw [← Option.some.inj (hrange.symm.trans hsome)]

end Sys2Proof.Machine
end

section
/-! PROOFS. The assembler at its boundary (30_encoding.md R70 to R77): the line of a legal instruction
assembles, what assembles is legal, and the image of a program. -/

namespace Sys2Proof.Machine

open Sys2Proof

/-! ### Legal instructions (R68) -/

theorem wellFormed_iff (i : Instr) : i.WellFormed ↔ i.dest ≠ some xzr := by
  unfold Instr.WellFormed Instr.wellFormed
  cases i.dest <;> simp

theorem wellFormed_of_dest_none {i : Instr} (h : i.dest = none) : i.WellFormed := by
  simp [wellFormed_iff, h]

theorem wellFormed_iff_of_dest_some {i : Instr} {rd : RegIx} (h : i.dest = some rd) :
    i.WellFormed ↔ rd ≠ xzr := by
  simp [wellFormed_iff, h]

/-! ### Numbers -/

theorem digitsText_ne_nil (b fuel n : Nat) : digitsText b (fuel + 1) n ≠ [] := by
  unfold digitsText
  split <;> simp

/-- A text of digits with room for `n` is read back as `n`. -/
theorem number_digitsText {digit : Char → Option Nat} {b : Nat} (hb : 1 < b)
    (hd : ∀ d, d < b → digit (digitChar d) = some d) {fuel n : Nat} (hn : n < b ^ (fuel + 1)) :
    number digit b (digitsText b (fuel + 1) n) = some n := by
  have hne : ¬ (digitsText b (fuel + 1) n).isEmpty = true := by
    simpa using digitsText_ne_nil b fuel n
  unfold number
  rw [if_neg hne, digitsFrom_digitsText hb hd _ n hn]

theorem decimal_digitsText {n : Nat} (hn : n < 10 ^ 8) : decimal (digitsText 10 8 n) = some n :=
  number_digitsText (by omega) (fun _ => decDigit_digitChar) hn

theorem hexadecimal_digitsText {n : Nat} (hn : n < 16 ^ 8) :
    hexadecimal (digitsText 16 8 n) = some n :=
  number_digitsText (by omega) (fun _ => hexDigit_digitChar) hn

theorem exists_digit_of_mem_digitsText {b fuel n : Nat} {c : Char} (hb : 0 < b)
    (h : c ∈ digitsText b fuel n) : ∃ d < b, c = digitChar d := by
  induction fuel generalizing n with
  | zero => cases h
  | succ fuel ih =>
    unfold digitsText at h
    split at h
    · next hn => exact ⟨n, hn, List.mem_singleton.1 h⟩
    · obtain h | h := List.mem_append.1 h
      · exact ih h
      · exact ⟨n % b, Nat.mod_lt _ hb, List.mem_singleton.1 h⟩

theorem comma_not_mem_digitsText {b : Nat} (hb : 0 < b) (hb' : b ≤ 16) (fuel n : Nat) :
    ',' ∉ digitsText b fuel n := by
  intro h
  obtain ⟨d, hd, hc⟩ := exists_digit_of_mem_digitsText hb h
  have hno : ∀ e < 16, ',' ≠ digitChar e := by decide
  exact hno d (by omega) hc

/-! ### Immediates (R71) -/

theorem parseNumber_hex (signed : Bool) {t : Text} {n : Nat} (h : hexadecimal t = some n) :
    parseNumber signed ('#' :: '0' :: 'x' :: t) = .ok (n, .hex) := by
  simp only [parseNumber, h]

theorem parseNumber_neg {t : Text} {n : Nat} (h : decimal t = some n) :
    parseNumber true ('#' :: '-' :: t) = .ok (-(n : Int), .dec) := by
  simp only [parseNumber, h]

/-- A decimal number begins neither with `0x` nor with `-`. -/
theorem parseNumber_dec (signed : Bool) {t : Text} {n : Nat} (h : decimal t = some n) :
    parseNumber signed ('#' :: t) = .ok (n, .dec) := by
  unfold parseNumber
  split
  next heq =>
    obtain rfl := (List.cons.inj heq).2
    cases h
  next heq =>
    obtain rfl := (List.cons.inj heq).2
    cases h
  next heq =>
    obtain rfl := (List.cons.inj heq).2
    rw [h]
  next hno => exact absurd rfl (hno t)

/-- The text of an immediate is read back; a negative one only where the field is signed. -/
theorem parseNumber_immText (base : NumBase) {signed : Bool} {v : Int} (hv : v.natAbs < 10 ^ 8)
    (hs : v < 0 → signed = true) : ∃ b, parseNumber signed (immText base v) = .ok (v, b) := by
  unfold immText
  by_cases hneg : v < 0
  · obtain rfl := hs hneg
    rw [if_pos hneg, parseNumber_neg (decimal_digitsText hv)]
    exact ⟨.dec, by rw [show -(v.natAbs : Int) = v by omega]⟩
  · have hnat : (v.toNat : Int) = v := by omega
    rw [if_neg hneg]
    cases base with
    | dec =>
      rw [parseNumber_dec signed (decimal_digitsText (by omega)), hnat]
      exact ⟨.dec, rfl⟩
    | hex =>
      rw [parseNumber_hex signed (hexadecimal_digitsText (by omega)), hnat]
      exact ⟨.hex, rfl⟩

theorem parseImm_immText (base : NumBase) {lo hi v : Int} (w : Nat) (hlo : lo ≤ v) (hhi : v ≤ hi)
    (hv : v.natAbs < 10 ^ 8) : parseImm lo hi w (immText base v) = .ok (BitVec.ofInt w v) := by
  obtain ⟨b, hb⟩ := parseNumber_immText base (signed := decide (lo < 0)) hv
    fun hneg => decide_eq_true (by omega)
  simp only [parseImm, hb]
  exact if_pos ⟨hlo, hhi⟩

/-- A signed field is read back from the text of its value; 26 bits is the widest field (R61). -/
theorem parseSigned_immText (base : NumBase) {w : Nat} (hw : w ≤ 25) (v : BitVec (w + 1)) :
    parseSigned w (immText base v.toInt) = .ok v := by
  have hlo := BitVec.le_toInt v
  have hhi := BitVec.toInt_lt (x := v)
  have hpow : (2 : Int) ^ w ≤ 2 ^ 25 := pow_le_pow_right₀ (by decide) hw
  rw [Nat.add_sub_cancel] at hlo hhi
  simp only [parseSigned, Nat.cast_pow, Nat.cast_ofNat]
  rw [parseImm_immText base (w + 1) hlo (by omega) (by omega), BitVec.ofInt_toInt]

theorem parseImm16_immText (base : NumBase) (v : BitVec 16) :
    parseImm 0 65535 16 (immText base v.toNat) = .ok v := by
  rw [parseImm_immText base 16 (by omega) (by omega) (by omega), BitVec.ofInt_natCast,
    BitVec.ofNat_toNat, BitVec.setWidth_eq]

/-! ### The brackets of a memory operand -/

theorem dropBracket_append (t : Text) : dropBracket (t ++ [']']) = some t := by
  induction t with
  | nil => rfl
  | cons c t ih =>
    have hcons : dropBracket (c :: (t ++ [']'])) = (dropBracket (t ++ [']'])).map (c :: ·) :=
      dropBracket.eq_3 c (t ++ [']']) fun _ h => by simp at h
    rw [List.cons_append, hcons, ih]
    rfl

/-! ### The operands of each format, read from their texts (R72) -/

theorem asmIM_texts (mk : RegIx → BitVec 16 → BitVec 2 → Instr) (base : NumBase) {rd : RegIx}
    (hrd : rd ≠ xzr) (imm : BitVec 16) (hw : BitVec 2) :
    asmIM mk [regText rd, immText base imm.toNat, shiftText hw] = .ok (mk rd imm hw) := by
  simp only [asmIM, parseDest_regText hrd, parseImm16_immText, parseShift_shiftText]
  rfl

theorem asmR_texts (mk : RegIx → RegIx → RegIx → Instr) {rd : RegIx} (hrd : rd ≠ xzr)
    (rn rm : RegIx) : asmR mk [regText rd, regText rn, regText rm] = .ok (mk rd rn rm) := by
  simp only [asmR, parseDest_regText hrd, parseReg_regText]
  rfl

theorem asmI_texts (mk : RegIx → RegIx → BitVec 12 → Instr) (base : NumBase) {rd : RegIx}
    (hrd : rd ≠ xzr) (rn : RegIx) (imm : BitVec 12) :
    asmI mk [regText rd, regText rn, immText base imm.toInt] = .ok (mk rd rn imm) := by
  simp only [asmI, parseDest_regText hrd, parseReg_regText,
    parseSigned_immText base (w := 11) (by omega)]
  rfl

theorem asmD_memText {reg : Text → Except AsmError RegIx} {rt : RegIx}
    (hreg : reg (regText rt) = .ok rt) (mk : RegIx → RegIx → BitVec 9 → Instr) (base : NumBase)
    (rn : RegIx) (off : BitVec 9) : asmD reg mk (memText base rt rn off) = .ok (mk rt rn off) := by
  simp only [asmD, memText, dropBracket_append, hreg, parseReg_regText,
    parseSigned_immText base (w := 8) (by omega)]
  rfl

theorem asmB_texts (base : NumBase) (off : BitVec 26) :
    asmB [immText base off.toInt] = .ok (.b off) := by
  simp only [asmB, parseSigned_immText base (w := 25) (by omega)]
  rfl

theorem asmCB_texts (mk : RegIx → BitVec 19 → Instr) (base : NumBase) (rt : RegIx)
    (off : BitVec 19) : asmCB mk [regText rt, immText base off.toInt] = .ok (mk rt off) := by
  simp only [asmCB, parseReg_regText, parseSigned_immText base (w := 18) (by omega)]
  rfl

/-- The operands of a legal instruction are read back from their texts. -/
theorem asmOperands_operandTexts (base : NumBase) {i : Instr} (h : i.WellFormed) :
    asmOperands i.mnemonic (operandTexts base i) = .ok i := by
  cases i with
  | movz rd imm hw | movk rd imm hw =>
    exact asmIM_texts _ base ((wellFormed_iff_of_dest_some rfl).1 h) imm hw
  | add rd rn rm | adds rd rn rm | sub rd rn rm | subs rd rn rm =>
    exact asmR_texts _ ((wellFormed_iff_of_dest_some rfl).1 h) rn rm
  | addi rd rn imm | addis rd rn imm | subi rd rn imm | subis rd rn imm =>
    exact asmI_texts _ base ((wellFormed_iff_of_dest_some rfl).1 h) rn imm
  | ldur rt rn off | ldurb rt rn off | ldurh rt rn off | ldursw rt rn off =>
    exact asmD_memText (parseDest_regText ((wellFormed_iff_of_dest_some rfl).1 h)) _ base rn off
  | stur rt rn off | sturb rt rn off | sturh rt rn off | sturw rt rn off =>
    exact asmD_memText (parseReg_regText rt) _ base rn off
  | b off => exact asmB_texts base off
  | cbz rt off | cbnz rt off => exact asmCB_texts _ base rt off

/-! ### Cutting a line at its spaces and commas (R70) -/

theorem splitSpace_append {name : Text} (h : ' ' ∉ name) (t : Text) :
    splitSpace (name ++ ' ' :: t) = some (name, t) := by
  induction name with
  | nil => rfl
  | cons c name ih =>
    have hc : c ≠ ' ' := fun hc => h (hc ▸ List.mem_cons_self)
    rw [List.cons_append, splitSpace.eq_3 _ _ hc, ih fun hmem => h (List.mem_cons_of_mem _ hmem)]
    rfl

/-- Text without a comma joins the first operand of what follows it. -/
theorem splitOperands_append {o : Text} (ho : ',' ∉ o) {t p : Text} {ps : List Text}
    (h : splitOperands t = p :: ps) : splitOperands (o ++ t) = (o ++ p) :: ps := by
  induction o with
  | nil => exact h
  | cons c o ih =>
    have hc : c ≠ ',' := fun hc => ho (hc ▸ List.mem_cons_self)
    rw [List.cons_append, splitOperands.eq_3 _ _ fun _ hcomma => absurd hcomma hc,
      ih fun hmem => ho (List.mem_cons_of_mem _ hmem)]
    rfl

theorem splitOperands_joinOperands {ops : List Text} (hne : ops ≠ [])
    (hcomma : ∀ o ∈ ops, ',' ∉ o) : splitOperands (joinOperands ops) = ops := by
  induction ops with
  | nil => exact absurd rfl hne
  | cons o ops ih =>
    have ho : ',' ∉ o := hcomma o List.mem_cons_self
    cases ops with
    | nil => simpa [joinOperands] using splitOperands_append ho (t := []) rfl
    | cons p ps =>
      have hrest := ih (by simp) fun q hq => hcomma q (List.mem_cons_of_mem _ hq)
      have hsep : splitOperands (',' :: ' ' :: joinOperands (p :: ps)) = [] :: p :: ps :=
        congrArg ([] :: ·) hrest
      simpa [joinOperands] using splitOperands_append ho hsep

theorem comma_not_mem_regText (r : RegIx) : ',' ∉ regText r := by
  revert r; decide

theorem comma_not_mem_shiftText (hw : BitVec 2) : ',' ∉ shiftText hw := by
  revert hw; decide

theorem comma_not_mem_immText (base : NumBase) (v : Int) : ',' ∉ immText base v := by
  have hdec := comma_not_mem_digitsText (b := 10) (by omega) (by omega) 8
  have hhex := comma_not_mem_digitsText (b := 16) (by omega) (by omega) 8
  unfold immText
  by_cases hneg : v < 0
  · simp [hneg, hdec]
  · cases base <;> simp [hneg, hdec, hhex]

theorem comma_not_mem_memText (base : NumBase) (rt rn : RegIx) (off : BitVec 9) :
    ∀ o ∈ memText base rt rn off, ',' ∉ o := by
  simp [memText, comma_not_mem_regText, comma_not_mem_immText]

/-- No operand's text holds a comma. -/
theorem comma_not_mem_operandTexts (base : NumBase) (i : Instr) :
    ∀ o ∈ operandTexts base i, ',' ∉ o := by
  cases i with
  | movz | movk =>
    simp [operandTexts, comma_not_mem_regText, comma_not_mem_immText, comma_not_mem_shiftText]
  | add | adds | sub | subs => simp [operandTexts, comma_not_mem_regText]
  | addi | addis | subi | subis =>
    simp [operandTexts, comma_not_mem_regText, comma_not_mem_immText]
  | ldur rt rn off | ldurb rt rn off | ldurh rt rn off | ldursw rt rn off
  | stur rt rn off | sturb rt rn off | sturh rt rn off | sturw rt rn off =>
    exact comma_not_mem_memText base rt rn off
  | b => simp [operandTexts, comma_not_mem_immText]
  | cbz | cbnz => simp [operandTexts, comma_not_mem_regText, comma_not_mem_immText]

theorem operandTexts_ne_nil (base : NumBase) (i : Instr) : operandTexts base i ≠ [] := by
  cases i <;> exact List.cons_ne_nil _ _

theorem space_not_mem_mnemonicName (k : Mnemonic) : ' ' ∉ (mnemonicName k).toList := by
  cases k <;> decide

/-- Each mnemonic is found by its spelling: no two are spelled alike (R63). -/
theorem findName_mnemonicName (k : Mnemonic) :
    findName opcodeMap (mnemonicName k).toList = some k := by
  cases k <;> decide

/-! ### What assembles -/

/-- A line that assembles has a known mnemonic and operands in its form. -/
theorem assembleInstr_eq_ok {line : Text} {i : Instr} (h : assembleInstr line = .ok i) :
    ∃ k ops, asmOperands k ops = .ok i := by
  unfold assembleInstr at h
  split at h
  · cases h
  · split at h
    · cases h
    · next k _ => exact ⟨k, _, h⟩

theorem assembleLine_eq_ok_iff {line : Text} {w : Word} :
    assembleLine line = .ok w ↔ ∃ i, assembleInstr line = .ok i ∧ encode i = w := by
  unfold assembleLine
  cases assembleInstr line <;> simp

/-- The line of a legal instruction stands for it. -/
theorem assembleInstr_asmText (base : NumBase) {i : Instr} (h : i.WellFormed) :
    assembleInstr (asmText base i) = .ok i := by
  unfold assembleInstr asmText
  simp only [splitSpace_append (space_not_mem_mnemonicName _), findName_mnemonicName]
  rw [splitOperands_joinOperands (operandTexts_ne_nil base i) (comma_not_mem_operandTexts base i)]
  exact asmOperands_operandTexts base h

/-! ### What assembles is legal (R73, R74) -/

/-- A bind that answers had an answer from its first part. -/
theorem except_bind_eq_ok {ε α β : Type} {x : Except ε α} {f : α → Except ε β} {b : β}
    (h : x >>= f = .ok b) : ∃ a, x = .ok a ∧ f a = .ok b := by
  cases x with
  | error e => cases h
  | ok a => exact ⟨a, rfl, h⟩

/-- A register is spelled `XZR`, or with a number up to 30 (R71). -/
theorem parseReg_eq_ok {t : Text} {r : RegIx} (h : parseReg t = .ok r) :
    t = ['X', 'Z', 'R'] ∨ ∃ n ≤ 30, r = BitVec.ofNat 5 n := by
  unfold parseReg at h
  split at h
  · exact .inl rfl
  · split at h
    · next n _ =>
      split at h
      · next hn => exact .inr ⟨n, hn, (Except.ok.inj h).symm⟩
      · cases h
    · cases h
  · cases h

/-- A destination is a register that is not spelled `XZR`. -/
theorem parseDest_eq_ok {t : Text} {r : RegIx} (h : parseDest t = .ok r) :
    t ≠ ['X', 'Z', 'R'] ∧ parseReg t = .ok r := by
  unfold parseDest at h
  split at h
  · cases h
  · next hne =>
    split at h
    · cases h
    · exact ⟨fun heq => hne (List.cons.inj heq).2, h⟩
  · next hne _ => exact ⟨hne, h⟩

/-- A register that is read as a destination is not 31 (R73). -/
theorem ne_xzr_of_parseDest {t : Text} {r : RegIx} (h : parseDest t = .ok r) : r ≠ xzr := by
  obtain ⟨hne, hreg⟩ := parseDest_eq_ok h
  obtain heq | ⟨n, hn, rfl⟩ := parseReg_eq_ok hreg
  · exact absurd heq hne
  · intro hx
    have hmod : n % 2 ^ 5 = 31 := (BitVec.toNat_ofNat n 5).symm.trans (congrArg BitVec.toNat hx)
    omega

theorem asmIM_wellFormed {mk : RegIx → BitVec 16 → BitVec 2 → Instr}
    (hmk : ∀ rd imm hw, (mk rd imm hw).dest = some rd) {ops : List Text} {i : Instr}
    (h : asmIM mk ops = .ok i) : i.WellFormed := by
  unfold asmIM at h
  split at h
  · obtain ⟨rd, hrd, h⟩ := except_bind_eq_ok h
    obtain ⟨imm, -, h⟩ := except_bind_eq_ok h
    obtain ⟨hw, -, h⟩ := except_bind_eq_ok h
    obtain rfl := Except.ok.inj h
    exact (wellFormed_iff_of_dest_some (hmk rd imm hw)).2 (ne_xzr_of_parseDest hrd)
  · cases h

theorem asmR_wellFormed {mk : RegIx → RegIx → RegIx → Instr}
    (hmk : ∀ rd rn rm, (mk rd rn rm).dest = some rd) {ops : List Text} {i : Instr}
    (h : asmR mk ops = .ok i) : i.WellFormed := by
  unfold asmR at h
  split at h
  · obtain ⟨rd, hrd, h⟩ := except_bind_eq_ok h
    obtain ⟨rn, -, h⟩ := except_bind_eq_ok h
    obtain ⟨rm, -, h⟩ := except_bind_eq_ok h
    obtain rfl := Except.ok.inj h
    exact (wellFormed_iff_of_dest_some (hmk rd rn rm)).2 (ne_xzr_of_parseDest hrd)
  · cases h

theorem asmI_wellFormed {mk : RegIx → RegIx → BitVec 12 → Instr}
    (hmk : ∀ rd rn imm, (mk rd rn imm).dest = some rd) {ops : List Text} {i : Instr}
    (h : asmI mk ops = .ok i) : i.WellFormed := by
  unfold asmI at h
  split at h
  · obtain ⟨rd, hrd, h⟩ := except_bind_eq_ok h
    obtain ⟨rn, -, h⟩ := except_bind_eq_ok h
    obtain ⟨imm, -, h⟩ := except_bind_eq_ok h
    obtain rfl := Except.ok.inj h
    exact (wellFormed_iff_of_dest_some (hmk rd rn imm)).2 (ne_xzr_of_parseDest hrd)
  · cases h

/-- Format D, for loads and stores: `reg` reads a register with which the instruction is legal. -/
theorem asmD_wellFormed {reg : Text → Except AsmError RegIx}
    {mk : RegIx → RegIx → BitVec 9 → Instr}
    (hmk : ∀ t rt rn off, reg t = .ok rt → (mk rt rn off).WellFormed) {ops : List Text} {i : Instr}
    (h : asmD reg mk ops = .ok i) : i.WellFormed := by
  unfold asmD at h
  split at h
  · split at h
    · obtain ⟨rt, hrt, h⟩ := except_bind_eq_ok h
      obtain ⟨rn, -, h⟩ := except_bind_eq_ok h
      obtain ⟨off, -, h⟩ := except_bind_eq_ok h
      obtain rfl := Except.ok.inj h
      exact hmk _ rt rn off hrt
    · cases h
  · cases h

theorem asmB_wellFormed {ops : List Text} {i : Instr} (h : asmB ops = .ok i) : i.WellFormed := by
  unfold asmB at h
  split at h
  · obtain ⟨off, -, h⟩ := except_bind_eq_ok h
    obtain rfl := Except.ok.inj h
    exact wellFormed_of_dest_none rfl
  · cases h

theorem asmCB_wellFormed {mk : RegIx → BitVec 19 → Instr} (hmk : ∀ rt off, (mk rt off).dest = none)
    {ops : List Text} {i : Instr} (h : asmCB mk ops = .ok i) : i.WellFormed := by
  unfold asmCB at h
  split at h
  · obtain ⟨rt, -, h⟩ := except_bind_eq_ok h
    obtain ⟨off, -, h⟩ := except_bind_eq_ok h
    obtain rfl := Except.ok.inj h
    exact wellFormed_of_dest_none (hmk rt off)
  · cases h

theorem asmOperands_wellFormed {k : Mnemonic} {ops : List Text} {i : Instr}
    (h : asmOperands k ops = .ok i) : i.WellFormed := by
  cases k with
  | movz | movk => exact asmIM_wellFormed (fun _ _ _ => rfl) h
  | add | adds | sub | subs => exact asmR_wellFormed (fun _ _ _ => rfl) h
  | addi | addis | subi | subis => exact asmI_wellFormed (fun _ _ _ => rfl) h
  | ldur | ldurb | ldurh | ldursw =>
    exact asmD_wellFormed (fun _ _ _ _ hrt =>
      (wellFormed_iff_of_dest_some rfl).2 (ne_xzr_of_parseDest hrt)) h
  | stur | sturb | sturh | sturw =>
    exact asmD_wellFormed (fun _ _ _ _ _ => wellFormed_of_dest_none rfl) h
  | b => exact asmB_wellFormed h
  | cbz | cbnz => exact asmCB_wellFormed (fun _ _ => rfl) h

/-! ### The image of a program (R75) -/

/-- The words of a program are those of its lines, one by one. -/
theorem assembleLines_eq_ok_iff (n : Nat) (lines : List Text) (ws : List Word) :
    assembleLines n lines = .ok ws ↔ List.Forall₂ (fun l w => assembleLine l = .ok w) lines ws := by
  induction lines generalizing n ws with
  | nil => simp [assembleLines, eq_comm]
  | cons l ls ih =>
    simp only [List.forall₂_cons_left_iff, ← ih (n + 1)]
    cases hl : assembleLine l with
    | error e => simp [assembleLines, hl]
    | ok w =>
      cases hls : assembleLines (n + 1) ls with
      | error e => simp [assembleLines, hl, hls]
      | ok vs => simp [assembleLines, hl, hls, eq_comm]

/-- When every line assembles, so does the program, whatever the number of its first line. -/
theorem exists_assembleLines_eq_ok {lines : List Text}
    (h : ∀ l ∈ lines, ∃ w, assembleLine l = .ok w) (n : Nat) :
    ∃ ws, assembleLines n lines = .ok ws := by
  induction lines generalizing n with
  | nil => exact ⟨[], rfl⟩
  | cons l ls ih =>
    obtain ⟨w, hw⟩ := h l List.mem_cons_self
    obtain ⟨ws, hws⟩ := ih (fun m hm => h m (List.mem_cons_of_mem _ hm)) (n + 1)
    exact ⟨w :: ws, by simp only [assembleLines, hw, hws]⟩

/-- A program has an image exactly when it fits and its lines assemble; the image is their words with
zeros after them. -/
theorem assembleProgram_eq_ok_iff {n : Nat} {lines : List Text} {image : List Word} :
    assembleProgram n lines = .ok image ↔
      lines.length ≤ n ∧ ∃ ws, assembleLines 0 lines = .ok ws ∧
        image = ws ++ List.replicate (n - ws.length) 0 := by
  unfold assembleProgram
  by_cases hn : n < lines.length
  · simp [hn]
  · cases assembleLines 0 lines <;> simp [hn, Nat.le_of_not_lt hn, eq_comm]

/-! ### The obligations on the assembler -/

/-- Settles O29: the line of an instruction is cut where it was joined and its operands are read back;
and every form checks its destination for 31. -/
theorem assembledWordsAreLegal : Obligations.AssembledWordsAreLegal := by
  refine ⟨fun base i h => ?_, fun line w h => ?_⟩
  · have hi := assembleInstr_asmText base h
    exact ⟨hi, assembleLine_eq_ok_iff.2 ⟨i, hi, rfl⟩⟩
  · obtain ⟨i, hi, rfl⟩ := assembleLine_eq_ok_iff.1 h
    obtain ⟨k, ops, hops⟩ := assembleInstr_eq_ok hi
    exact ⟨i, hi, decode_encode i, asmOperands_wellFormed hops⟩

/-- Settles O30: the image is the words of the lines, as many as lines, and zeros after them. -/
theorem imageHoldsTheProgramAndZeros : Obligations.ImageHoldsTheProgramAndZeros := by
  refine ⟨fun n lines hn h => ?_, fun n lines image h => ?_⟩
  · obtain ⟨ws, hws⟩ := exists_assembleLines_eq_ok h 0
    exact ⟨_, assembleProgram_eq_ok_iff.2 ⟨hn, ws, hws, rfl⟩⟩
  · obtain ⟨hn, ws, hws, rfl⟩ := assembleProgram_eq_ok_iff.1 h
    have hall := (assembleLines_eq_ok_iff 0 lines ws).1 hws
    have hlen : lines.length = ws.length := hall.length_eq
    refine ⟨by simp; omega, hn, fun k hk => ?_, fun k hk hkn => ?_⟩
    · have hkw : k < ws.length := hlen ▸ hk
      refine ⟨ws[k], by simpa using hall.get hk hkw, ?_⟩
      rw [List.getElem?_append_left hkw, List.getElem?_eq_getElem hkw]
    · rw [List.getElem?_append_right (by omega), List.getElem?_replicate, if_pos (by omega)]

end Sys2Proof.Machine
end

section
/-! PROOFS. What the instructions that only write their destination share: decoding from the fixed bits
of a word, the frame of `writeDest`, the cut to `XLEN` bits. -/

namespace Sys2Proof

/-- A register has at most the 64 bits that hold its value. -/
theorem XLen.bits_le (l : XLen) : l.bits ≤ 64 := by
  cases l <;> decide

/-! ### Decoding from the fixed bits -/

/-- The fixed bits of a format are the upper end of `opcode11`; the bits of `opcode11` below them are
free. -/
theorem toNat_opcode11_div {lo len : Nat} (hlo : 21 ≤ lo) (hlen : lo + len = 32) (w : Word) :
    (opcode11 w).toNat / 2 ^ (lo - 21) = (w.extractLsb' lo len).toNat := by
  have hw : w.toNat / 2 ^ 21 < 2 ^ 11 := by omega
  have hdiv : w.toNat / 2 ^ 21 / 2 ^ (lo - 21) = w.toNat / 2 ^ lo := by
    rw [Nat.div_div_eq_div_mul, ← pow_add, Nat.add_sub_cancel' hlo]
  have hfits : w.toNat / 2 ^ lo < 2 ^ len :=
    Nat.div_lt_of_lt_mul (by rw [← pow_add, hlen]; exact w.isLt)
  rw [toNat_opcode11, toNat_extract, Nat.mod_eq_of_lt hw, hdiv, Nat.mod_eq_of_lt hfits]

/-- R63, R64: fixed bits `op` down to bit `lo` put a word into every row that holds all the `opcode11`
values beginning with them. -/
theorem decode_of_fixedBits {lo len : Nat} {op : BitVec len} {w : Word}
    (h : w.extractLsb' lo len = op) (r : OpcodeRow) (hr : r ∈ opcodeMap := by decide)
    (hlo : 21 ≤ lo := by decide) (hlen : lo + len = 32 := by decide)
    (hfirst : r.lo ≤ op.toNat * 2 ^ (lo - 21) := by decide)
    (hlast : (op.toNat + 1) * 2 ^ (lo - 21) ≤ r.hi + 1 := by decide) :
    decode w = .ok (instrOf r.mnemonic w) := by
  have hop : (opcode11 w).toNat / 2 ^ (lo - 21) = op.toNat := by rw [toNat_opcode11_div hlo hlen, h]
  have hge : op.toNat * 2 ^ (lo - 21) ≤ (opcode11 w).toNat := hop ▸ Nat.div_mul_le_self _ _
  have hlt : (opcode11 w).toNat < (op.toNat + 1) * 2 ^ (lo - 21) :=
    (Nat.div_lt_iff_lt_mul (Nat.two_pow_pos _)).1 (hop ▸ Nat.lt_succ_self _)
  exact decode_of_classify (Laws.ClassifyEncode.classify_of_range r hr (by omega) (by omega))

end Sys2Proof

namespace Sys2Proof.Machine

open Sys2Proof

/-! ### The frame of an instruction that writes its destination -/

theorem samePipeline_writeReg_advance (rd : RegIx) (v : XVal) (s : State) :
    SamePipeline (s.writeReg rd v).advance s := by
  constructor <;> simp

theorem regFrame_writeReg_advance (rd : RegIx) (v : XVal) (s : State) :
    RegFrame s (s.writeReg rd v).advance (s.pc + 1) where
  params := by simp
  pc := by simp
  mem := by simp
  mauAddr := by simp
  mauData := by simp
  pipeline := samePipeline_writeReg_advance rd v s
  fault := by simp
  recentStores := by simp
  draws := by simp

/-- R11: with a destination other than 31, `writeDest` writes it, goes on, and does nothing else. -/
theorem writesOnly_writeDest {rd : RegIx} (h : rd ≠ xzr) (v : XVal) (s : State) :
    WritesOnly s (s.writeDest rd v) rd v := by
  obtain ⟨hx, -⟩ | ⟨-, hw⟩ := writeDest_cases rd v s
  · exact absurd hx h
  · rw [hw]
    exact ⟨regFrame_writeReg_advance rd v s, readReg_writeReg_self h v s,
      fun r hr => readReg_writeReg_ne hr v s⟩

/-- R68, in the form of the statements: a destination of 31 is fatal. -/
theorem exec_raises_of_dest_xzr {i : Instr} {rd : RegIx} (hi : i.dest = some rd) (hrd : rd = xzr)
    (s : State) : ∃ t, exec i s = .next t ∧ Raised s t .illegalDestination :=
  ⟨_, exec_of_dest_xzr (hrd ▸ hi) s, raised_raise .illegalDestination s⟩

/-! ### The cut to `XLEN` bits -/

theorem toNat_truncX (p : Params) (v : XVal) : (truncX p v).toNat = v.toNat % 2 ^ p.xlen.bits := by
  unfold truncX
  cases p.xlen with
  | x32 =>
    simp only [XLen.bits, BitVec.toNat_setWidth]
    omega
  | x64 => exact (Nat.mod_eq_of_lt v.isLt).symm

/-- The cut keeps the bits below `XLEN` and clears the others. -/
theorem getLsbD_truncX (p : Params) (v : XVal) (j : Nat) :
    (truncX p v).getLsbD j = (decide (j < p.xlen.bits) && v.getLsbD j) := by
  rw [BitVec.getLsbD, toNat_truncX, Nat.testBit_mod_two_pow]
  rfl

end Sys2Proof.Machine
end

section
/-! PROOFS. The move-wide instructions MOVZ and MOVK (40_move_wide.md R78, R79). -/

namespace Sys2Proof.Machine

open Sys2Proof

/-! ### The shifted halfword -/

/-- R78, R124: nothing is lost before the cut. -/
theorem toNat_shifted16 (p : Params) (v : BitVec 16) (hw : BitVec 2) :
    (shifted16 p v hw).toNat = v.toNat * 2 ^ (16 * hw.toNat) % 2 ^ p.xlen.bits := by
  have hbits : 2 ^ p.xlen.bits ∣ 2 ^ 64 := pow_dvd_pow 2 p.xlen.bits_le
  have hwide : v.toNat % 2 ^ 112 = v.toNat := Nat.mod_eq_of_lt (by omega)
  rw [shifted16, toNat_truncX, BitVec.toNat_setWidth, BitVec.toNat_shiftLeft, BitVec.toNat_setWidth,
    hwide, Nat.shiftLeft_eq, shiftAmount, Nat.mod_mod_of_dvd _ (by decide : 2 ^ 64 ∣ 2 ^ 112),
    Nat.mod_mod_of_dvd _ hbits]

/-- Below `XLEN`, the bits of the shifted halfword are its own, `16 * hw` places further up. -/
theorem getLsbD_shifted16 {p : Params} {j : Nat} (hj : j < p.xlen.bits) (v : BitVec 16)
    (hw : BitVec 2) :
    (shifted16 p v hw).getLsbD j =
      (decide (16 * hw.toNat ≤ j) && v.getLsbD (j - 16 * hw.toNat)) := by
  rw [BitVec.getLsbD, toNat_shifted16, Nat.testBit_mod_two_pow, Nat.testBit_mul_two_pow]
  simp [hj, BitVec.getLsbD]

/-! ### The results of MOVZ and MOVK -/

theorem toNat_movzValue (p : Params) (imm16 : BitVec 16) (hw : BitVec 2) :
    (movzValue p imm16 hw).toNat = imm16.toNat * 2 ^ (16 * hw.toNat) % 2 ^ p.xlen.bits :=
  toNat_shifted16 p imm16 hw

/-- R79: the mask clears the sixteen bits from `16 * hw` on, where the immediate is put; every other bit
below `XLEN` is the old one. -/
theorem getLsbD_movkValue {p : Params} {j : Nat} (hj : j < p.xlen.bits) (old : XVal)
    (imm16 : BitVec 16) (hw : BitVec 2) :
    (movkValue p old imm16 hw).getLsbD j =
      if 16 * hw.toNat ≤ j ∧ j < 16 * hw.toNat + 16 then imm16.getLsbD (j - 16 * hw.toNat)
      else old.getLsbD j := by
  have hj64 : j < 64 := hj.trans_le p.xlen.bits_le
  have hmask : (0xFFFF : BitVec 16).getLsbD (j - 16 * hw.toNat) =
      decide (j - 16 * hw.toNat < 16) := BitVec.getLsbD_allOnes
  rw [movkValue, BitVec.getLsbD_or, BitVec.getLsbD_and, BitVec.getLsbD_not,
    getLsbD_shifted16 hj, getLsbD_shifted16 hj, hmask]
  by_cases hbelow : 16 * hw.toNat ≤ j
  · by_cases habove : j < 16 * hw.toNat + 16
    · have hin : j - 16 * hw.toNat < 16 := by omega
      simp [hbelow, habove, hin]
    · have hout : ¬ j - 16 * hw.toNat < 16 := by omega
      simp [hbelow, habove, hout, hj64, BitVec.getLsbD_of_ge imm16 _ (Nat.le_of_not_lt hout)]
  · simp [hbelow, hj64]

/-! ### The obligations on move wide -/

/-- Settles O1: the fixed bits are the row of MOVZ; the result is the shifted immediate, cut. -/
theorem movzWritesShiftedImmediate : Obligations.MovzWritesShiftedImmediate := by
  intro s rd imm16 hw
  refine ⟨fun w h => ?_, fun hrd => exec_raises_of_dest_xzr rfl hrd s, fun hrd => ?_⟩
  · exact decode_of_fixedBits h ⟨.movz, 0x694, 0x697⟩
  · exact ⟨_, _, rfl, writesOnly_writeDest hrd _ s, toNat_movzValue s.params imm16 hw⟩

/-- Settles O2: the fixed bits are the row of MOVK; the result takes one halfword from the immediate. -/
theorem movkReplacesOneHalfword : Obligations.MovkReplacesOneHalfword := by
  intro s rd imm16 hw
  refine ⟨fun w h => ?_, fun hrd => exec_raises_of_dest_xzr rfl hrd s, fun hrd => ?_⟩
  · exact decode_of_fixedBits h ⟨.movk, 0x794, 0x797⟩
  · exact ⟨_, _, rfl, writesOnly_writeDest hrd _ s,
      fun _ hj => getLsbD_movkValue hj (s.readReg rd) imm16 hw⟩

end Sys2Proof.Machine
end

section
/-! PROOFS. The register arithmetic (41_arith_register.md R80 to R84): addition, subtraction and sign
extension modulo `2^XLEN`, and the statements about ADD, SUB and the flag-setting forms. -/

namespace Sys2Proof.Machine

open Sys2Proof

/-! ### Addition, subtraction and sign extension modulo `2^XLEN` -/

/-- R9: an integer held in 64 bits and cut to `XLEN` bits is that integer modulo `2^XLEN`, for `2^XLEN`
divides `2^64`. -/
theorem cast_toNat_truncX_ofInt (p : Params) (x : Int) :
    ((truncX p (BitVec.ofInt 64 x)).toNat : Int) = x % 2 ^ p.xlen.bits := by
  have hbits : (2 : Int) ^ p.xlen.bits ∣ 2 ^ 64 := pow_dvd_pow 2 p.xlen.bits_le
  have hcast : ((BitVec.ofInt 64 x).toNat : Int) = x % 2 ^ 64 := by
    rw [BitVec.toNat_ofInt]; omega
  rw [toNat_truncX]
  push_cast
  rw [hcast, Int.emod_emod_of_dvd x hbits]

/-- R80. -/
theorem toNat_addX (p : Params) (a b : XVal) :
    (addX p a b).toNat = (a.toNat + b.toNat) % 2 ^ p.xlen.bits := by
  rw [addX, toNat_truncX, BitVec.toNat_add,
    Nat.mod_mod_of_dvd _ (pow_dvd_pow 2 p.xlen.bits_le)]

/-- R80. -/
theorem cast_toNat_subX (p : Params) (a b : XVal) :
    ((subX p a b).toNat : Int) = (a.toNat - b.toNat : Int) % 2 ^ p.xlen.bits := by
  have hsub : a - b = BitVec.ofInt 64 (a.toNat - b.toNat : Int) := by
    apply BitVec.eq_of_toNat_eq
    rw [BitVec.toNat_sub, BitVec.toNat_ofInt]
    omega
  rw [subX, hsub, cast_toNat_truncX_ofInt]

/-- R65. -/
theorem cast_toNat_sextX (p : Params) {w : Nat} (v : BitVec w) :
    ((sextX p v).toNat : Int) = v.toInt % 2 ^ p.xlen.bits :=
  cast_toNat_truncX_ofInt p v.toInt

/-- R85, R86: the sum with a sign-extended field is the sum with its signed value. -/
theorem cast_toNat_addX_sextX (p : Params) (a : XVal) {w : Nat} (v : BitVec w) :
    ((addX p a (sextX p v)).toNat : Int) = (a.toNat + v.toInt) % 2 ^ p.xlen.bits := by
  rw [toNat_addX]
  push_cast
  rw [cast_toNat_sextX, Int.add_emod_emod]

/-- R87, R88: the difference to a sign-extended field is the difference to its signed value. -/
theorem cast_toNat_subX_sextX (p : Params) (a : XVal) {w : Nat} (v : BitVec w) :
    ((subX p a (sextX p v)).toNat : Int) = (a.toNat - v.toInt) % 2 ^ p.xlen.bits := by
  rw [cast_toNat_subX, cast_toNat_sextX, Int.sub_emod_emod]

/-! ### The obligations on register arithmetic and the flag-setting forms -/

/-- Settles O3: the fixed bits are the row of ADD; the result is `addX` of the two registers. -/
theorem addWritesSum : Obligations.AddWritesSum := by
  intro s rd rn rm
  refine ⟨fun w h => ?_, fun hrd => exec_raises_of_dest_xzr rfl hrd s, fun hrd => ?_⟩
  · exact decode_of_fixedBits h ⟨.add, 0x458, 0x458⟩
  · exact ⟨_, _, rfl, writesOnly_writeDest hrd _ s, toNat_addX s.params _ _⟩

/-- Settles O4: the fixed bits are the row of SUB; the result is `subX` of the two registers. -/
theorem subWritesDifference : Obligations.SubWritesDifference := by
  intro s rd rn rm
  refine ⟨fun w h => ?_, fun hrd => exec_raises_of_dest_xzr rfl hrd s, fun hrd => ?_⟩
  · exact decode_of_fixedBits h ⟨.sub, 0x658, 0x658⟩
  · exact ⟨_, _, rfl, writesOnly_writeDest hrd _ s, cast_toNat_subX s.params _ _⟩

/-- Settles O7: each form has a row of its own and the result of its plain form, and `writeDest` writes
nothing but the destination (D6). -/
theorem flagFormsWriteOnlyTheirDestination : Obligations.FlagFormsWriteOnlyTheirDestination := by
  intro s rd rn rm imm12
  refine ⟨fun w h => ?adds, fun w h => ?subs, fun w h => ?addis, fun w h => ?subis,
    fun hrd i hi => ?destination31, fun hrd => ⟨?sum, ?difference, ?sumImm, ?differenceImm⟩⟩
  case adds => exact decode_of_fixedBits h ⟨.adds, 0x558, 0x558⟩
  case subs => exact decode_of_fixedBits h ⟨.subs, 0x758, 0x758⟩
  case addis => exact decode_of_fixedBits h ⟨.addis, 0x588, 0x589⟩
  case subis => exact decode_of_fixedBits h ⟨.subis, 0x788, 0x789⟩
  case destination31 =>
    have hdest : i.dest = some rd := by
      simp only [List.mem_cons, List.not_mem_nil, or_false] at hi
      obtain rfl | rfl | rfl | rfl := hi <;> rfl
    exact exec_raises_of_dest_xzr hdest hrd s
  case sum => exact ⟨_, _, rfl, writesOnly_writeDest hrd _ s, toNat_addX s.params _ _⟩
  case difference => exact ⟨_, _, rfl, writesOnly_writeDest hrd _ s, cast_toNat_subX s.params _ _⟩
  case sumImm =>
    exact ⟨_, _, rfl, writesOnly_writeDest hrd _ s, cast_toNat_addX_sextX s.params _ imm12⟩
  case differenceImm =>
    exact ⟨_, _, rfl, writesOnly_writeDest hrd _ s, cast_toNat_subX_sextX s.params _ imm12⟩

end Sys2Proof.Machine
end

section
/-! PROOFS. The immediate arithmetic ADDI and SUBI (42_arith_immediate.md R85, R87). -/

namespace Sys2Proof.Machine

open Sys2Proof

/-- Settles O5: the fixed bits are the row of ADDI, two values of `opcode11`, for bit 21 belongs to the
immediate; the result is `addX` of the register and the sign-extended field. -/
theorem addiAddsSignedImmediate : Obligations.AddiAddsSignedImmediate := by
  intro s rd rn imm12
  refine ⟨fun w h => ?_, fun hrd => exec_raises_of_dest_xzr rfl hrd s, fun hrd => ?_⟩
  · exact decode_of_fixedBits h ⟨.addi, 0x488, 0x489⟩
  · exact ⟨_, _, rfl, writesOnly_writeDest hrd _ s, cast_toNat_addX_sextX s.params _ imm12⟩

/-- Settles O6: the fixed bits are the row of SUBI; the result is `subX` of the register and the
sign-extended field, in this order. -/
theorem subiSubtractsSignedImmediate : Obligations.SubiSubtractsSignedImmediate := by
  intro s rd rn imm12
  refine ⟨fun w h => ?_, fun hrd => exec_raises_of_dest_xzr rfl hrd s, fun hrd => ?_⟩
  · exact decode_of_fixedBits h ⟨.subi, 0x688, 0x689⟩
  · exact ⟨_, _, rfl, writesOnly_writeDest hrd _ s, cast_toNat_subX_sextX s.params _ imm12⟩

end Sys2Proof.Machine
end

section
/-! PROOFS. The loads and stores (43_load_store.md R89 to R97): the effective address, and what the two
shared operations `load` and `store` do in the terms of the statements. -/

namespace Sys2Proof.Machine

open Sys2Proof

/-! ### Words and addresses -/

theorem toNat_zextWord (w : Word) : (zextWord w).toNat = w.toNat :=
  BitVec.toNat_setWidth_of_le (by decide)

theorem toNat_truncWord (v : XVal) : (truncWord v).toNat = v.toNat % 2 ^ 32 :=
  BitVec.toNat_setWidth 32 v

theorem inRange_eq_false_iff (p : Params) (a : Nat) : inRange p a = false ↔ p.memWords ≤ a := by
  simp [inRange]

/-! ### Loads -/

section Load

variable {s : State} {rt rn : RegIx} {off9 : BitVec 9}

/-- R40, R90: a load from outside memory is fatal. -/
theorem raised_load (hrt : rt ≠ xzr)
    (hout : s.params.memWords ≤ (effectiveAddress s.params (s.readReg rn) off9).toNat) :
    Raised s (s.load rt rn off9) .memoryRange := by
  obtain ⟨hx, -⟩ | ⟨-, -, h⟩ | ⟨-, hr, -⟩ := load_cases rt rn off9 s
  · exact absurd hx hrt
  · rw [h]
    exact raised_raise .memoryRange s
  · cases hr.symm.trans ((inRange_eq_false_iff s.params _).2 hout)

/-- R90: a load from inside memory is the read transaction at the effective address, which the address
latch holds whole, and the write of the word to the destination. -/
theorem loadsWord_load (hp : s.params.Valid) (hrt : rt ≠ xzr)
    (hin : (effectiveAddress s.params (s.readReg rn) off9).toNat < s.params.memWords) :
    LoadsWord s (s.load rt rn off9) rt (effectiveAddress s.params (s.readReg rn) off9).toNat
      (Memory.read s.mem (effectiveAddress s.params (s.readReg rn) off9).toNat) := by
  have hr := (inRange_iff s.params _).2 hin
  have hdest := readReg_load hrt hr
  obtain ⟨hx, -⟩ | ⟨-, hout, -⟩ | ⟨-, -, h⟩ := load_cases rt rn off9 s
  · exact absurd hx hrt
  · cases hout.symm.trans hr
  · rw [truncWord_toNat_of_inRange hp hr] at h hdest
    rw [h] at hdest ⊢
    exact {
      params := by simp
      dest := by rw [hdest, toNat_zextWord]
      others := fun r hne => readReg_writeReg_ne hne _ _
      pc := by simp
      mem := by simp
      mauAddr := by simpa using truncWord_toNat_of_inRange hp hr
      mauData := by simp
      pipeline := by constructor <;> simp
      fault := by simp
      recentStores := by simp
      draws := by simp }

end Load

/-! ### Stores -/

section Store

variable {s : State} {rt rn : RegIx} {off9 : BitVec 9}

/-- R40, R94: a store to outside memory is fatal. -/
theorem raised_store
    (hout : s.params.memWords ≤ (effectiveAddress s.params (s.readReg rn) off9).toNat) :
    Raised s (s.store rt rn off9) .memoryRange := by
  obtain ⟨-, h⟩ | ⟨hr, -⟩ := store_cases rt rn off9 s
  · rw [h]
    exact raised_raise .memoryRange s
  · cases hr.symm.trans ((inRange_eq_false_iff s.params _).2 hout)

/-- R94: a store to inside memory is the write transaction at the effective address, which the address
latch holds whole, and touches no other word and no register. -/
theorem storesWord_store (hp : s.params.Valid)
    (hin : (effectiveAddress s.params (s.readReg rn) off9).toNat < s.params.memWords) :
    StoresWord s (s.store rt rn off9) (effectiveAddress s.params (s.readReg rn) off9).toNat
      (truncWord (s.readReg rt)) := by
  have hr := (inRange_iff s.params _).2 hin
  have haddr := truncWord_toNat_of_inRange hp hr
  obtain ⟨hout, -⟩ | ⟨-, h⟩ := store_cases rt rn off9 s
  · cases hout.symm.trans hr
  · rw [haddr] at h
    rw [h]
    exact {
      params := rfl
      x := rfl
      pc := rfl
      stored := fun hwf => Memory.read_write_of_wf hwf _ _
      elsewhere := fun b hne => Memory.read_write_ne s.mem _ hne
      mauAddr := haddr
      mauData := rfl
      pipeline := ⟨rfl, rfl, rfl, rfl, rfl, rfl, rfl⟩
      fault := rfl
      recentStores := ⟨_, haddr, rfl, rfl⟩
      draws := rfl }

end Store

/-! ### The obligations on loads and stores -/

/-- Settles O8: the fixed bits are the row of LDUR; `load` checks the destination, then the address. -/
theorem ldurLoadsWord : Obligations.LdurLoadsWord := by
  intro s rt rn off9 hp
  refine ⟨fun w h => ?_, fun hrt => exec_raises_of_dest_xzr rfl hrt s,
    fun hrt hout => ⟨_, rfl, raised_load hrt hout⟩,
    fun hrt hin => ⟨_, rfl, loadsWord_load hp hrt hin⟩⟩
  exact decode_of_fixedBits h ⟨.ldur, 0x7C2, 0x7C2⟩

/-- Settles O9: each sized load has a row of its own and the operation of LDUR (R45, D7, D15). -/
theorem sizedLoadsLoadTheWholeWord : Obligations.SizedLoadsLoadTheWholeWord := by
  intro s rt rn off9 i hp hi
  have hexec : exec i s = .next (s.load rt rn off9) := exec_of_mem_loads (by simp [hi]) s
  have hdest : i.dest = some rt := by
    obtain rfl | rfl | rfl := hi <;> rfl
  refine ⟨fun w h => ?ldurb, fun w h => ?ldurh, fun w h => ?ldursw,
    fun hrt => exec_raises_of_dest_xzr hdest hrt s,
    fun hrt hout => ⟨_, hexec, raised_load hrt hout⟩,
    fun hrt hin => ⟨_, hexec, loadsWord_load hp hrt hin⟩⟩
  case ldurb => exact decode_of_fixedBits h ⟨.ldurb, 0x1C2, 0x1C2⟩
  case ldurh => exact decode_of_fixedBits h ⟨.ldurh, 0x3C2, 0x3C2⟩
  case ldursw => exact decode_of_fixedBits h ⟨.ldursw, 0x5C4, 0x5C4⟩

/-- Settles O10: the fixed bits are the row of STUR; the word stored is the cut of the register. -/
theorem sturStoresLowWord : Obligations.SturStoresLowWord := by
  intro s rt rn off9 hp
  refine ⟨fun w h => ?_, fun hout => ⟨_, rfl, raised_store hout⟩,
    fun hin => ⟨_, _, rfl, storesWord_store hp hin, toNat_truncWord _⟩⟩
  exact decode_of_fixedBits h ⟨.stur, 0x7C0, 0x7C0⟩

/-- Settles O11: each sized store has a row of its own and the operation of STUR (R45, D7). -/
theorem sizedStoresStoreTheWholeWord : Obligations.SizedStoresStoreTheWholeWord := by
  intro s rt rn off9 i hp hi
  have hexec : exec i s = .next (s.store rt rn off9) := exec_of_mem_stores (by simp [hi]) s
  refine ⟨fun w h => ?sturb, fun w h => ?sturh, fun w h => ?sturw,
    fun hout => ⟨_, hexec, raised_store hout⟩,
    fun hin => ⟨_, _, hexec, storesWord_store hp hin, toNat_truncWord _⟩⟩
  case sturb => exact decode_of_fixedBits h ⟨.sturb, 0x1C0, 0x1C0⟩
  case sturh => exact decode_of_fixedBits h ⟨.sturh, 0x3C0, 0x3C0⟩
  case sturw => exact decode_of_fixedBits h ⟨.sturw, 0x5C0, 0x5C0⟩

/-- Settles O12: the effective address is the sum with the sign-extended offset. -/
theorem effectiveAddressIsBasePlusOffset : Obligations.EffectiveAddressIsBasePlusOffset :=
  fun p base off9 => cast_toNat_addX_sextX p base off9

end Sys2Proof.Machine
end

section
/-! PROOFS. Control transfer (44_branch.md R98 to R102): the target, what a branch leaves unchanged, and
the statements about B, CBZ and CBNZ. -/

namespace Sys2Proof.Machine

open Sys2Proof

/-! ### Where a branch goes and what it leaves unchanged -/

/-- R98: the sum with a sign-extended offset is the sum with its signed value, modulo `2^32`. -/
theorem cast_toNat_branchTarget (a : Word) {w : Nat} (off : BitVec w) :
    ((branchTarget a off).toNat : Int) = (a.toNat + off.toInt) % 2 ^ 32 := by
  have hoff : ((off.signExtend 32).toNat : Int) = off.toInt % 2 ^ 32 := by
    rw [BitVec.signExtend, BitVec.toNat_ofInt]; omega
  rw [branchTarget, BitVec.toNat_add]
  omega

/-- R98: a branch, taken or not, writes the program counter and does nothing else. -/
theorem regFrame_branch (taken : Bool) {w : Nat} (off : BitVec w) (s : State) :
    RegFrame s (s.branch taken off) (s.branch taken off).pc :=
  ⟨rfl, rfl, rfl, rfl, rfl, ⟨rfl, rfl, rfl, rfl, rfl, rfl, rfl⟩, rfl, rfl, rfl⟩

section Condition

variable {p : Prop} [Decidable p] {w : Nat} (off : BitVec w) (s : State)

/-- R98: a branch whose condition holds goes to its target. -/
theorem cast_toNat_branch_pc (h : p) :
    ((s.branch (decide p) off).pc.toNat : Int) = (s.pc.toNat + off.toInt) % 2 ^ 32 := by
  rw [branch_pc, if_pos (decide_eq_true h), cast_toNat_branchTarget]

/-- R98: a branch whose condition fails goes to the next instruction. -/
theorem branch_pc_of_not (h : ¬ p) : (s.branch (decide p) off).pc = s.pc + 1 := by
  rw [branch_pc, if_neg (mt of_decide_eq_true h)]

end Condition

/-! ### The source of a conditional branch -/

/-- R66, R113: register 31 is no source to wait for. -/
theorem sources_of_sourceFields {k : Mnemonic} {iw : Word} {r : RegIx}
    (h : sourceFields k iw = [r]) : sources k iw = if r = xzr then [] else [r] := by
  rw [sources, h, List.filter_singleton]
  by_cases hr : r = xzr <;> simp [hr]

/-! ### The obligations on control transfer -/

/-- Settles O13: the fixed bits are the row of B; the branch is taken whatever the state. -/
theorem branchGoesToTarget : Obligations.BranchGoesToTarget := by
  intro s off26
  refine ⟨fun w h => ?_,
    ⟨_, rfl, rfl, regFrame_branch true off26 s, cast_toNat_branchTarget s.pc off26⟩,
    fun _ => rfl, fun _ => rfl⟩
  exact decode_of_fixedBits h ⟨.b, 0x0A0, 0x0BF⟩

/-- Settles O14: the fixed bits are the row of CBZ; it branches on `x[t] = 0`. -/
theorem cbzBranchesOnZero : Obligations.CbzBranchesOnZero := by
  intro s rt off19
  refine ⟨fun w h => ?_, ⟨_, rfl, rfl, regFrame_branch _ off19 s, fun hzero => ?_, fun hnz => ?_⟩,
    fun _ => sources_of_sourceFields rfl, fun _ _ => rfl, fun _ => rfl⟩
  · exact decode_of_fixedBits h ⟨.cbz, 0x5A0, 0x5A7⟩
  · exact cast_toNat_branch_pc off19 s hzero
  · exact branch_pc_of_not off19 s hnz

/-- Settles O15: the fixed bits are the row of CBNZ; it branches on `x[t] ≠ 0`. -/
theorem cbnzBranchesOnNonZero : Obligations.CbnzBranchesOnNonZero := by
  intro s rt off19
  refine ⟨fun w h => ?_, ⟨_, rfl, rfl, regFrame_branch _ off19 s, fun hnz => ?_, fun hzero => ?_⟩,
    fun _ => sources_of_sourceFields rfl, fun _ _ => rfl, fun _ => rfl⟩
  · exact decode_of_fixedBits h ⟨.cbnz, 0x5A8, 0x5AF⟩
  · exact cast_toNat_branch_pc off19 s hnz
  · exact branch_pc_of_not off19 s (not_not_intro hzero)

end Sys2Proof.Machine
end

section
/-! PROOFS. The Fetch stage (45_fetch_stage.md R104, R105): when FETCH is enabled, its answer inside and
outside memory, and the statement about the step. -/

namespace Sys2Proof.Machine

open Sys2Proof

theorem fetchReady_iff (s : State) : s.fetchReady = true ↔ s.fd = none ∧ s.fault = none := by
  simp only [State.fetchReady, Bool.and_eq_true, Option.isNone_iff_eq_none]

/-- R104: the step inside memory, where the read transaction succeeds. -/
theorem fetchStep_of_inRange {s : State} (hready : s.fetchReady = true)
    (hr : inRange s.params s.pc.toNat = true) :
    fetchStep s = some { s with
      mauAddr := s.pc
      mauData := Memory.read s.mem s.pc.toNat
      pc := s.pc + 1
      fd := some { instructionWord := Memory.read s.mem s.pc.toNat
                   nextPC := s.pc + 1
                   fetchFault := false } } := by
  rw [fetchStep, if_pos hready, if_pos hr, readTransaction_eq, if_pos hr]
  rfl

/-- R105, D13: the step outside memory, without a transaction. -/
theorem fetchStep_of_not_inRange {s : State} (hready : s.fetchReady = true)
    (hr : inRange s.params s.pc.toNat = false) :
    fetchStep s = some { s with
      pc := s.pc + 1
      fd := some { instructionWord := 0, nextPC := s.pc + 1, fetchFault := true } } := by
  rw [fetchStep, if_pos hready, hr]
  rfl

/-- R104, R105: the guard alone decides, since FETCH has an answer inside memory and outside. -/
theorem enabled_fetch_iff (s : State) : s.enabled .fetch = true ↔ s.fd = none ∧ s.fault = none := by
  constructor
  · intro h
    obtain ⟨t, ht⟩ := Option.isSome_iff_exists.1 h
    obtain ⟨hfd, hfault, -⟩ := fetchStep_cases ht
    exact ⟨hfd, hfault⟩
  · intro h
    have hready := (fetchReady_iff s).2 h
    apply Option.isSome_iff_exists.2
    cases hr : inRange s.params s.pc.toNat with
    | true => exact ⟨_, fetchStep_of_inRange hready hr⟩
    | false => exact ⟨_, fetchStep_of_not_inRange hready hr⟩

/-- Settles O37: the guard, and the two answers of the step, by whether PC is inside memory. -/
theorem fetchStep_spec : Obligations.FetchStep := by
  intro s
  have hready (hfd : s.fd = none) (hfault : s.fault = none) : s.fetchReady = true :=
    (fetchReady_iff s).2 ⟨hfd, hfault⟩
  refine ⟨enabled_fetch_iff s, fun hfd hfault hin => ?_, fun hfd hfault hout => ?_⟩
  · exact fetchStep_of_inRange (hready hfd hfault) ((inRange_iff _ _).2 hin)
  · exact fetchStep_of_not_inRange (hready hfd hfault) ((inRange_eq_false_iff _ _).2 hout)

end Sys2Proof.Machine
end

section
/-! PROOFS. The Hazard Tracker (46_decode_stage.md R117 to R120): its operations in terms of list
membership, and what a tracker that lists the locked destinations can hold. -/

namespace Sys2Proof.Machine

open Sys2Proof

/-! ### The operations (R117) -/

theorem htContains_iff (r : RegIx) (ht : List RegIx) : htContains r ht = true ↔ r ∈ ht :=
  List.contains_iff_mem

/-- `release` is the removal of the first occurrence where there is one. -/
theorem htRelease_eq (r : RegIx) (ht : List RegIx) :
    htRelease r ht = if r ∈ ht then some (ht.erase r) else none := by
  induction ht with
  | nil => rfl
  | cons q qs ih =>
    by_cases hq : q = r
    · subst hq; simp
    · by_cases hr : r ∈ qs <;> simp [htRelease, ih, hq, Ne.symm hq, hr]

theorem htRelease_eq_none_iff (r : RegIx) (ht : List RegIx) : htRelease r ht = none ↔ r ∉ ht := by
  simp [htRelease_eq]

/-- R117: what `release` removes is the oldest entry, since none of the entries before it is equal. -/
theorem htRelease_eq_some_iff (r : RegIx) (ht l : List RegIx) :
    htRelease r ht = some l ↔ ∃ old young, ht = old ++ r :: young ∧ r ∉ old ∧ l = old ++ young := by
  rw [htRelease_eq]
  constructor
  · intro h
    obtain ⟨hr, hl⟩ := Option.ite_none_right_eq_some.1 h
    obtain rfl := Option.some.inj hl
    obtain ⟨old, young, hold, hht, herase⟩ := List.exists_erase_eq hr
    exact ⟨old, young, hht, hold, herase⟩
  · rintro ⟨old, young, rfl, hold, rfl⟩
    simp [List.erase_append_right, hold]

/-! ### The locked destinations (R119) -/

/-- The destination that the register in a slot has locked, as a list of at most one entry. -/
def slotDests {α : Type} (locked : α → Bool) (dest : α → RegIx) (slot : Option α) : List RegIx :=
  match slot with
  | some e => if locked e then [dest e] else []
  | none => []

theorem lockedDests_eq (s : State) :
    s.lockedDests =
      slotDests ExecuteMemory.destinationLockAdded ExecuteMemory.destinationRegister s.mw ++
      slotDests ExecuteMemory.destinationLockAdded ExecuteMemory.destinationRegister s.em ++
      slotDests DecodeExecute.destinationLockAdded (fun m => fieldRd m.instructionWord) s.de := by
  refine congrArg₂ (· ++ ·) (congrArg₂ (· ++ ·) ?mw ?em) ?de
  case mw => cases s.mw <;> rfl
  case em => cases s.em <;> rfl
  case de => cases s.de <;> rfl

section Slot

variable {α : Type} (locked : α → Bool) (dest : α → RegIx) (slot : Option α)

theorem mem_slotDests_iff (r : RegIx) :
    r ∈ slotDests locked dest slot ↔ ∃ e, slot = some e ∧ locked e = true ∧ r = dest e := by
  cases slot with
  | none => simp [slotDests]
  | some e => simp [slotDests]

theorem length_slotDests_le_one : (slotDests locked dest slot).length ≤ 1 := by
  cases slot with
  | none => simp [slotDests]
  | some e => cases hl : locked e <;> simp [slotDests, hl]

end Slot

/-- R120: one entry for each of MW, EM and DE at most. -/
theorem length_lockedDests_le_three (s : State) : s.lockedDests.length ≤ 3 := by
  have hmw := length_slotDests_le_one
    ExecuteMemory.destinationLockAdded ExecuteMemory.destinationRegister s.mw
  have hem := length_slotDests_le_one
    ExecuteMemory.destinationLockAdded ExecuteMemory.destinationRegister s.em
  have hde := length_slotDests_le_one
    DecodeExecute.destinationLockAdded (fun m => fieldRd m.instructionWord) s.de
  rw [lockedDests_eq, List.length_append, List.length_append]
  omega

/-- R119 item 3: what the three slots hold in a good state has no locked destination 31. -/
theorem xzr_notMem_lockedDests {s : State} (hs : Inv s) : xzr ∉ s.lockedDests := by
  rw [lockedDests_eq, List.mem_append, List.mem_append]
  rintro ((hmw | hem) | hde)
  · obtain ⟨w, hw, hlock, hdest⟩ := (mem_slotDests_iff ..).1 hmw
    obtain ⟨-, -, hne⟩ := hs.mwOk w hw
    exact hne hlock hdest.symm
  · obtain ⟨e, he, hlock, hdest⟩ := (mem_slotDests_iff ..).1 hem
    obtain ⟨-, -, hne⟩ := hs.emOk e he
    exact hne hlock hdest.symm
  · obtain ⟨m, hm, hlock, hdest⟩ := (mem_slotDests_iff ..).1 hde
    obtain ⟨-, -, k, -, hflag, hne⟩ := hs.deOk m hm
    exact hne (hflag.symm.trans hlock) hdest.symm

/-! ### The obligations on the tracker -/

/-- Settles O33: `release` is the removal of the first occurrence (log 10 where there is none). -/
theorem trackerOperations : Obligations.TrackerOperations := fun r ht =>
  ⟨rfl, htContains_iff r ht, htRelease_eq_some_iff r ht, htRelease_eq_none_iff r ht⟩

/-- Settles O50: by the invariant the tracker lists the locked destinations of three slots. -/
theorem trackerHoldsAtMostThree : Obligations.TrackerHoldsAtMostThree := by
  intro s hs
  rw [hs.tracker]
  exact ⟨length_lockedDests_le_three s, xzr_notMem_lockedDests hs⟩

end Sys2Proof.Machine
end

section
/-! PROOFS. The Decode stage (46_decode_stage.md R111 to R115): when DEC_ACCEPT and DEC_ISSUE are
enabled, what each answers, and the sources and operands of each instruction family (R66). -/

namespace Sys2Proof.Machine

open Sys2Proof

/-! ### DEC_ACCEPT -/

theorem decAcceptStep_of_guard {s : State} {r : FetchDecode} (hfd : s.fd = some r)
    (hdin : s.din = none) (hde : s.de = none) (hfence : s.branchPending = false)
    (hfault : s.fault = none) : decAcceptStep s = some { s with din := some r, fd := none } := by
  simp [decAcceptStep, hfd, hdin, hde, hfence, hfault]

/-- R111, with the conjunct of D11. -/
theorem enabled_decAccept_iff (s : State) :
    s.enabled .decAccept = true ↔
      s.fd ≠ none ∧ s.din = none ∧ s.de = none ∧ s.branchPending = false ∧ s.fault = none := by
  constructor
  · intro h
    obtain ⟨t, ht⟩ := Option.isSome_iff_exists.1 h
    obtain ⟨r, hfd, hdin, hde, hfence, hfault, -⟩ := decAcceptStep_cases ht
    exact ⟨by simp [hfd], hdin, hde, hfence, hfault⟩
  · rintro ⟨hfd, hdin, hde, hfence, hfault⟩
    obtain ⟨r, hr⟩ := Option.ne_none_iff_exists'.1 hfd
    exact Option.isSome_iff_exists.2 ⟨_, decAcceptStep_of_guard hr hdin hde hfence hfault⟩

/-- Settles O38: the guard, and the one answer of the step. -/
theorem decodeAcceptStep : Obligations.DecodeAcceptStep := by
  refine fun s => ⟨enabled_decAccept_iff s, fun h => ?_⟩
  obtain ⟨t, ht⟩ := Option.isSome_iff_exists.1 h
  obtain ⟨r, hfd, -, -, -, -, rfl⟩ := decAcceptStep_cases ht
  rw [hfd]
  exact ht

/-! ### What DEC_ISSUE answers -/

section Issue

variable {s : State} {r : FetchDecode} {k : Mnemonic}

/-- R114, D22: a faulting register stops the core, whatever the tracker holds. -/
theorem decIssueStep_of_decodeFault {kind : FaultKind} (hdin : s.din = some r)
    (hfault : decodeFault r = some kind) :
    decIssueStep s = some (s.stopByDecode kind (instrAddrOf r.nextPC)) := by
  simp [decIssueStep, hdin, hfault]

/-- R113, R115: an instruction that is not faulting is issued unless a source is in the tracker. -/
theorem decIssueStep_of_classify (hdin : s.din = some r) (hfault : decodeFault r = none)
    (hk : classify r.instructionWord = some k) :
    decIssueStep s =
      if ∃ q ∈ sources k r.instructionWord, q ∈ s.ht then none else some (s.issue k r) := by
  simp [decIssueStep, hdin, hfault, hk, htContains_iff]

theorem enabled_decIssue_iff (hdin : s.din = some r) (hfault : decodeFault r = none)
    (hk : classify r.instructionWord = some k) :
    s.enabled .decIssue = true ↔ ∀ q ∈ sources k r.instructionWord, q ∉ s.ht := by
  simp [State.enabled, pipeStep, decIssueStep_of_classify hdin hfault hk]

/-- R115: if the step is taken for an instruction that is not faulting, its answer is the issue. -/
theorem eq_issue_of_decIssueStep {t : State} (hdin : s.din = some r) (hfault : decodeFault r = none)
    (hk : classify r.instructionWord = some k) (h : decIssueStep s = some t) : t = s.issue k r := by
  rw [decIssueStep_of_classify hdin hfault hk] at h
  obtain ⟨-, hissue⟩ := Option.ite_none_left_eq_some.1 h
  exact (Option.some.inj hissue).symm

/-! ### The fault check of Decode, in the order of R114 -/

theorem decodeFault_of_fetchFault (h : r.fetchFault = true) :
    decodeFault r = some .memoryRange := by
  simp [decodeFault, h]

theorem decodeFault_of_unknown (hf : r.fetchFault = false)
    (hc : classify r.instructionWord = none) : decodeFault r = some .unknownOpcode := by
  simp [decodeFault, hf, hc]

theorem decodeFault_of_dest_xzr (hf : r.fetchFault = false)
    (hc : classify r.instructionWord = some k) (hdest : k.hasDest = true)
    (hrd : fieldRd r.instructionWord = xzr) : decodeFault r = some .illegalDestination := by
  simp [decodeFault, hf, hc, hdest, hrd]

end Issue

/-! ### Sources (R66) -/

/-- The roles of the three register fields, per family: `Rn` is read by R, I and D instructions, `Rm`
by R instructions, and `iw[4:0]` by MOVK, the stores and the compare-and-branch instructions. -/
theorem mem_sourceFields_iff (k : Mnemonic) (iw : Word) (q : RegIx) :
    q ∈ sourceFields k iw ↔
      q = fieldRn iw ∧ (k.format = .r ∨ k.format = .i ∨ k.format = .d) ∨
      q = fieldRm iw ∧ k.format = .r ∨
      q = fieldRd iw ∧ (k = .movk ∨ k.isStore = true ∨ k.format = .cb) := by
  cases k <;> simp [sourceFields, Mnemonic.format, Mnemonic.isStore]

/-- R113: register 31 is no source to wait for. -/
theorem mem_sources_iff (k : Mnemonic) (iw : Word) (q : RegIx) :
    q ∈ sources k iw ↔ q ∈ sourceFields k iw ∧ q ≠ xzr := by
  simp [sources]

/-! ### Operands (R66, R115) -/

section Operands

variable (rf : RegIx → XVal) (k : Mnemonic) (iw : Word)

theorem operandValues_of_r :
    k.format = .r → operandValues rf k iw = (rf (fieldRn iw), rf (fieldRm iw)) := by
  cases k <;> simp [Mnemonic.format, operandValues]

theorem operandValues_of_store :
    k.isStore = true → operandValues rf k iw = (rf (fieldRn iw), rf (fieldRd iw)) := by
  cases k <;> simp [Mnemonic.isStore, operandValues]

theorem operandValues_of_i_or_load :
    k.format = .i ∨ k.isLoad = true → operandValues rf k iw = (rf (fieldRn iw), 0) := by
  cases k <;> simp [Mnemonic.format, Mnemonic.isLoad, operandValues]

theorem operandValues_of_cb :
    k.format = .cb → operandValues rf k iw = (0, rf (fieldRd iw)) := by
  cases k <;> simp [Mnemonic.format, operandValues]

end Operands

/-- The operand fields of a micro-op are the pair of R115. -/
theorem microOp_operands {rf : RegIx → XVal} {k : Mnemonic} {r : FetchDecode} {a b : XVal}
    (h : operandValues rf k r.instructionWord = (a, b)) :
    (microOp rf k r).operand1Value = a ∧ (microOp rf k r).operand2Value = b :=
  Prod.ext_iff.1 h

/-! ### The obligations on DEC_ISSUE -/

/-- Settles O39: a faulting register always has an answer; any other has one unless a source is in the
tracker. -/
theorem decodeWaitsForHazards : Obligations.DecodeWaitsForHazards := by
  refine fun s r hdin => ⟨fun kind hfault => ?_, fun k hfault hk => ?_⟩
  · exact Option.isSome_iff_exists.2 ⟨_, decIssueStep_of_decodeFault hdin hfault⟩
  · rw [enabled_decIssue_iff hdin hfault hk]
    refine forall_congr' fun q => ?_
    rw [mem_sources_iff, mem_sourceFields_iff, and_comm, and_imp]

/-- Settles O40: in each of the three cases the check answers its kind, and the step is the stop
procedure. -/
theorem decodeRaisesTheFirstFault : Obligations.DecodeRaisesTheFirstFault := by
  intro s r kind hdin hcases
  have hfault : decodeFault r = some kind := by
    obtain ⟨hf, rfl⟩ | ⟨hf, hc, rfl⟩ | ⟨hf, ⟨k, hc, hdest⟩, hrd, rfl⟩ := hcases
    · exact decodeFault_of_fetchFault hf
    · exact decodeFault_of_unknown hf hc
    · exact decodeFault_of_dest_xzr hf hc hdest hrd
  exact decIssueStep_of_decodeFault hdin hfault

/-- Settles O41: the step is the issue, whose tracker, fence and micro-op are read off; the operands
are those of the family. -/
theorem decodeIssuesTheMicroOp : Obligations.DecodeIssuesTheMicroOp := by
  intro s t r k hdin hfault hk h
  obtain rfl := eq_issue_of_decIssueStep hdin hfault hk h
  refine ⟨fun hd => ?_, fun hd => ?_, fun hb => ?_, fun hb => ?_,
    ⟨_, issue_de k r s, rfl, rfl, rfl, rfl, fun hr => ?_, fun hst => ?_, fun hil => ?_,
      fun hmovk => ?_, fun hcb => ?_, fun hzero => ?_⟩, rfl⟩
  · rw [issue_ht, if_pos hd, htEnqueue]
  · simp [hd]
  · simp [hb]
  · simp [hb]
  · exact microOp_operands (operandValues_of_r _ k _ hr)
  · exact microOp_operands (operandValues_of_store _ k _ hst)
  · exact microOp_operands (operandValues_of_i_or_load _ k _ hil)
  · subst hmovk
    exact ⟨rfl, rfl⟩
  · exact microOp_operands (operandValues_of_cb _ k _ hcb)
  · obtain rfl | rfl := hzero <;> exact ⟨rfl, rfl⟩

end Sys2Proof.Machine
end

section
/-! PROOFS. The Execute stage (47_execute_stage.md R122 to R125): when EXECUTE is enabled, its result per
family, and what it does with a branch. -/

namespace Sys2Proof.Machine

open Sys2Proof

/-! ### The step -/

/-- R123: with DE full, a known opcode and EM empty, the step has one answer. -/
theorem executeStep_of_classify {s : State} {m : DecodeExecute} {k : Mnemonic} (hde : s.de = some m)
    (hem : s.em = none) (hk : classify m.instructionWord = some k) :
    executeStep s =
      some { s.resolveBranch k m with em := some (executed s.params k m), de := none } := by
  simp [executeStep, hde, hem, hk]

/-- R122, R123. -/
theorem enabled_execute_iff (s : State) :
    s.enabled .execute = true ↔
      s.em = none ∧ ∃ m k, s.de = some m ∧ classify m.instructionWord = some k := by
  constructor
  · intro h
    obtain ⟨t, ht⟩ := Option.isSome_iff_exists.1 h
    obtain ⟨m, k, hde, hem, hk, -⟩ := executeStep_cases ht
    exact ⟨hem, m, k, hde, hk⟩
  · rintro ⟨hem, m, k, hde, hk⟩
    exact Option.isSome_iff_exists.2 ⟨_, executeStep_of_classify hde hem hk⟩

/-! ### The result (R124) -/

/-- R89: what Execute computes for a load or a store is its effective address. -/
theorem executeResult_of_d {k : Mnemonic} (p : Params) (m : DecodeExecute) :
    k.format = .d →
      executeResult p k m = addX p m.operand1Value (sextX p m.signExtendedImmediate) := by
  cases k <;> simp [Mnemonic.format, executeResult]

/-- R124, row by row; the widened immediate counts with its signed value (D16), and MOVZ and MOVK are
those of move wide (D25). -/
theorem resultRow_executeResult (p : Params) (k : Mnemonic) (m : DecodeExecute) :
    ResultRow p k m (executeResult p k m) := by
  have hsumImm := cast_toNat_addX_sextX p m.operand1Value m.signExtendedImmediate
  have hdifferenceImm := cast_toNat_subX_sextX p m.operand1Value m.signExtendedImmediate
  refine ⟨?movz, ?movk, ?sum, ?difference, ?sumImm, ?differenceImm⟩
  case movz =>
    rintro rfl
    exact toNat_movzValue p _ _
  case movk =>
    rintro rfl j hj
    exact getLsbD_movkValue hj _ _ _
  case sum =>
    rintro (rfl | rfl) <;> exact toNat_addX p _ _
  case difference =>
    rw [Nat.cast_pow]
    rintro (rfl | rfl) <;> exact cast_toNat_subX p _ _
  case sumImm =>
    rw [Nat.cast_pow]
    rintro (rfl | rfl | hd)
    · exact hsumImm
    · exact hsumImm
    · rwa [executeResult_of_d p m hd]
  case differenceImm =>
    rw [Nat.cast_pow]
    rintro (rfl | rfl) <;> exact hdifferenceImm

/-! ### Branches (R125) -/

theorem isBranch_iff (k : Mnemonic) : k.isBranch = true ↔ k = .b ∨ k = .cbz ∨ k = .cbnz := by
  cases k <;> simp [Mnemonic.isBranch]

/-- R113: a branch has no destination. -/
theorem hasDest_of_isBranch {k : Mnemonic} (h : k.isBranch = true) : k.hasDest = false := by
  simp [Mnemonic.hasDest, h]

/-- R100 to R102: B is always taken, CBZ and CBNZ by their operand. -/
theorem branchTaken_iff (k : Mnemonic) (m : DecodeExecute) :
    branchTaken k m = true ↔
      k = .b ∨ (k = .cbz ∧ m.operand2Value = 0) ∨ (k = .cbnz ∧ m.operand2Value ≠ 0) := by
  cases k <;> simp [branchTaken]

theorem branchTaken_of_not_isBranch {k : Mnemonic} (h : k.isBranch = false) (m : DecodeExecute) :
    branchTaken k m = false := by
  rw [← Bool.not_eq_true, branchTaken_iff]
  rintro (rfl | ⟨rfl, -⟩ | ⟨rfl, -⟩) <;> cases h

theorem branchTaken_eq_false_of_operand {k : Mnemonic} {m : DecodeExecute}
    (h : (k = .cbz ∧ m.operand2Value ≠ 0) ∨ (k = .cbnz ∧ m.operand2Value = 0)) :
    branchTaken k m = false := by
  obtain ⟨rfl, hop⟩ | ⟨rfl, hop⟩ := h <;> simpa [branchTaken] using hop

theorem resolveBranch_of_not_isBranch {k : Mnemonic} (h : k.isBranch = false) (m : DecodeExecute)
    (s : State) : s.resolveBranch k m = s := by
  simp [State.resolveBranch, h]

/-- R125, D8: a taken branch writes PC, empties FD and clears the fence. -/
theorem resolveBranch_of_taken {k : Mnemonic} {m : DecodeExecute} (hb : k.isBranch = true)
    (htaken : branchTaken k m = true) (s : State) :
    s.resolveBranch k m = { s with pc := microOpTarget m, fd := none, branchPending := false } := by
  simp [State.resolveBranch, hb, htaken]

/-- R125: a branch that is not taken clears the fence only. -/
theorem resolveBranch_of_not_taken {k : Mnemonic} {m : DecodeExecute} (hb : k.isBranch = true)
    (htaken : branchTaken k m = false) (s : State) :
    s.resolveBranch k m = { s with branchPending := false } := by
  simp [State.resolveBranch, hb, htaken]

/-- R125, D27: a branch passes on as an empty register, with the lock flag it came with. -/
theorem executed_of_isBranch {k : Mnemonic} (hb : k.isBranch = true) (p : Params)
    (m : DecodeExecute) :
    executed p k m =
      { destinationRegister := fieldRd m.instructionWord
        aluOrAddressResult := 0
        storeData := 0
        isMemoryOp := false
        branchTargetIfTaken := if branchTaken k m then some (microOpTarget m) else none
        destinationLockAdded := m.destinationLockAdded
        instrAddr := instrAddrOf m.nextPC } := by
  obtain rfl | rfl | rfl := (isBranch_iff k).1 hb <;> rfl

/-- In a good state a branch in DE has locked nothing (R115, R122). -/
theorem destinationLockAdded_of_isBranch {s : State} {m : DecodeExecute} {k : Mnemonic}
    (hs : Inv s) (hde : s.de = some m) (hk : classify m.instructionWord = some k)
    (hb : k.isBranch = true) : m.destinationLockAdded = false := by
  obtain ⟨-, -, j, hj, hlock, -⟩ := hs.deOk m hde
  obtain rfl : j = k := Option.some.inj (hj.symm.trans hk)
  rw [hlock, hasDest_of_isBranch hb]

/-! ### The obligation on EXECUTE -/

/-- Settles O42: the guard, the row of the result, and the two answers of a branch, by whether it is
taken. -/
theorem executeResolvesBranches : Obligations.ExecuteResolvesBranches := by
  refine ⟨enabled_execute_iff, fun s m k hde hem hk hb => ?other, fun s m k hde hem hk hb => ?branch⟩
  case other =>
    have htarget : (executed s.params k m).branchTargetIfTaken = none := by
      simp [executed, branchTaken_of_not_isBranch hb]
    have hstep := executeStep_of_classify hde hem hk
    rw [resolveBranch_of_not_isBranch hb] at hstep
    exact ⟨executed s.params k m, hstep, rfl, resultRow_executeResult s.params k m, rfl, rfl,
      htarget, rfl, rfl⟩
  case branch =>
    have hempty := executed_of_isBranch hb s.params m
    have hstep := executeStep_of_classify hde hem hk
    rw [hempty] at hstep
    refine ⟨_, _, hstep, rfl, rfl, rfl, rfl, rfl,
      fun hs => destinationLockAdded_of_isBranch hs hde hk hb, rfl, rfl,
      fun h => ?taken, fun h => ?notTaken⟩
    case taken =>
      have htaken := (branchTaken_iff k m).2 h
      exact ⟨by rw [resolveBranch_of_taken hb htaken]; rfl, if_pos htaken⟩
    case notTaken =>
      have htaken := branchTaken_eq_false_of_operand h
      exact ⟨by rw [resolveBranch_of_not_taken hb htaken], by simp [htaken]⟩

end Sys2Proof.Machine
end

section
/-! PROOFS. The Memory-Access and Writeback stages (48_memory_access_stage.md R128 to R132,
49_writeback_stage.md R134 to R136), the register snapshot (60_exceptions.md R151) and the halted core
(R144). -/

namespace Sys2Proof.Machine

open Sys2Proof

/-! ### What MEMORY answers -/

section Memory

variable {s : State} {e : ExecuteMemory}

/-- R131: what is no memory operation passes through. -/
theorem memoryStep_of_not_memoryOp (hem : s.em = some e) (hmw : s.mw = none)
    (hop : e.isMemoryOp = false) : memoryStep s = some { s with mw := some e, em := none } := by
  simp [memoryStep, hem, hmw, hop]

/-- R132: an address outside memory stops the core. -/
theorem memoryStep_of_not_inRange (hem : s.em = some e) (hmw : s.mw = none)
    (hop : e.isMemoryOp = true) (hr : inRange s.params e.aluOrAddressResult.toNat = false) :
    memoryStep s = some (s.stopByMemory e) := by
  simp [memoryStep, hem, hmw, hop, hr]

/-- The register that MEMORY passes on for a load: the word read has replaced the address (R129). -/
def ExecuteMemory.loaded (e : ExecuteMemory) (m : Memory) : ExecuteMemory :=
  { e with aluOrAddressResult := zextWord (Memory.read m (truncWord e.aluOrAddressResult).toNat) }

/-- R129: a load inside memory. -/
theorem memoryStep_of_load (hem : s.em = some e) (hmw : s.mw = none) (hop : e.isMemoryOp = true)
    (hr : inRange s.params e.aluOrAddressResult.toNat = true) (hl : e.destinationLockAdded = true) :
    memoryStep s = some { s with
      mauAddr := truncWord e.aluOrAddressResult
      mauData := Memory.read s.mem (truncWord e.aluOrAddressResult).toNat
      mw := some (e.loaded s.mem)
      em := none } := by
  simp [memoryStep, hem, hmw, hop, hr, hl, memoryLoad, readTransaction_eq, inRange_truncWord hr,
    State.getData, ExecuteMemory.loaded]

/-- R130: a store inside memory. -/
theorem memoryStep_of_store (hem : s.em = some e) (hmw : s.mw = none) (hop : e.isMemoryOp = true)
    (hr : inRange s.params e.aluOrAddressResult.toNat = true) (hl : e.destinationLockAdded = false) :
    memoryStep s = some { s with
      mauAddr := truncWord e.aluOrAddressResult
      mauData := truncWord e.storeData
      mem := Memory.write s.mem (truncWord e.aluOrAddressResult).toNat (truncWord e.storeData)
      mw := some e
      em := none } := by
  simp [memoryStep, hem, hmw, hop, hr, hl, memoryStore, writeTransaction_eq, inRange_truncWord hr]

/-- R128: the guard alone decides, since MEMORY has an answer for every register in EM. -/
theorem enabled_memory_of_em (hem : s.em = some e) (hmw : s.mw = none) :
    s.enabled .memory = true := by
  apply Option.isSome_iff_exists.2
  cases hop : e.isMemoryOp with
  | false => exact ⟨_, memoryStep_of_not_memoryOp hem hmw hop⟩
  | true =>
    cases hr : inRange s.params e.aluOrAddressResult.toNat with
    | false => exact ⟨_, memoryStep_of_not_inRange hem hmw hop hr⟩
    | true =>
      cases hl : e.destinationLockAdded with
      | false => exact ⟨_, memoryStep_of_store hem hmw hop hr hl⟩
      | true => exact ⟨_, memoryStep_of_load hem hmw hop hr hl⟩

end Memory

/-! ### The tracker of a good state -/

/-- The destinations locked in EM and DE, the younger part of `lockedDests`. -/
def State.youngDests (s : State) : List RegIx :=
  slotDests ExecuteMemory.destinationLockAdded ExecuteMemory.destinationRegister s.em ++
  slotDests DecodeExecute.destinationLockAdded (fun m => fieldRd m.instructionWord) s.de

theorem lockedDests_eq_append_youngDests (s : State) :
    s.lockedDests =
      slotDests ExecuteMemory.destinationLockAdded ExecuteMemory.destinationRegister s.mw ++
        s.youngDests := by
  rw [lockedDests_eq, State.youngDests, List.append_assoc]

/-- The stop procedure counts the entries that belong to EM and DE (R143). -/
theorem discardedLocks_eq_length {s : State} {e : ExecuteMemory} (hem : s.em = some e) :
    discardedLocks e s.de = s.youngDests.length := by
  rw [State.youngDests, hem, List.length_append]
  refine congrArg₂ (· + ·) ?em ?de
  case em => cases hl : e.destinationLockAdded <;> simp [slotDests, hl]
  case de =>
    cases s.de with
    | none => rfl
    | some m => cases hl : m.destinationLockAdded <;> simp [slotDests, hl]

theorem htDropYoungest_append (l k : List RegIx) : htDropYoungest k.length (l ++ k) = l := by
  simp [htDropYoungest]

/-- R143: in a good state the stop procedure leaves the entry of the instruction in MW. -/
theorem stopByMemory_ht_of_inv {s : State} {e : ExecuteMemory} (hs : Inv s) (hem : s.em = some e) :
    (s.stopByMemory e).ht =
      slotDests ExecuteMemory.destinationLockAdded ExecuteMemory.destinationRegister s.mw := by
  rw [stopByMemory_ht, discardedLocks_eq_length hem, hs.tracker, lockedDests_eq_append_youngDests,
    htDropYoungest_append]

/-! ### What WRITEBACK answers -/

theorem writebackStep_of_unlocked {s : State} {w : MemoryWriteback} (hmw : s.mw = some w)
    (hl : w.destinationLockAdded = false) : writebackStep s = some { s with mw := none } := by
  simp [writebackStep, hmw, hl]

theorem writebackStep_of_locked {s : State} {w : MemoryWriteback} {ht : List RegIx}
    (hmw : s.mw = some w) (hl : w.destinationLockAdded = true)
    (hrel : htRelease w.destinationRegister s.ht = some ht) :
    writebackStep s =
      some { s.writeReg w.destinationRegister w.aluOrAddressResult with ht := ht, mw := none } := by
  simp [writebackStep, hmw, hl, hrel]

/-- The write of WRITEBACK to the register file (R135). -/
def State.commit (w : MemoryWriteback) (s : State) : State :=
  if w.destinationLockAdded then s.writeReg w.destinationRegister w.aluOrAddressResult else s

/-- The tracker entry of the instruction in EM or MW. -/
def ExecuteMemory.entry (e : ExecuteMemory) : List RegIx :=
  if e.destinationLockAdded then [e.destinationRegister] else []

/-- R136: when the instruction's own entry is the oldest, it is the one released. -/
theorem writebackStep_of_entry {s : State} {w : MemoryWriteback} {young : List RegIx}
    (hmw : s.mw = some w) (hht : s.ht = w.entry ++ young) :
    writebackStep s = some { s.commit w with ht := young, mw := none } := by
  cases hl : w.destinationLockAdded with
  | false =>
    have hyoung : s.ht = young := by simpa [ExecuteMemory.entry, hl] using hht
    rw [writebackStep_of_unlocked hmw hl]
    simp [State.commit, hl, ← hyoung]
  | true =>
    have hhead : s.ht = w.destinationRegister :: young := by
      simpa [ExecuteMemory.entry, hl] using hht
    have hrel : htRelease w.destinationRegister s.ht = some young := by rw [hhead, htRelease_head]
    rw [writebackStep_of_locked hmw hl hrel]
    simp [State.commit, hl]

/-- In a good state the entry of the instruction in MW is the oldest, so WRITEBACK has an answer. -/
theorem writebackStep_of_inv {s : State} {w : MemoryWriteback} (hs : Inv s) (hmw : s.mw = some w) :
    writebackStep s = some { s.commit w with ht := s.youngDests, mw := none } := by
  refine writebackStep_of_entry hmw ?_
  rw [hs.tracker, lockedDests_eq_append_youngDests, hmw]
  rfl

/-! ### The obligations -/

/-- Settles O43: the four answers of MEMORY; the address latch holds an address inside memory whole. -/
theorem memoryStep_spec : Obligations.MemoryStep := by
  intro s e hem hmw hp a
  refine ⟨memoryStep_of_not_memoryOp hem hmw, fun hop hout => ?stop, fun hop hin hl => ?load,
    fun hop hin hl => ?store⟩
  case stop =>
    have hr := (inRange_eq_false_iff s.params a).2 hout
    refine ⟨_, memoryStep_of_not_inRange hem hmw hop hr, rfl, ?_, rfl, rfl, rfl, rfl, fun hs => ?_⟩
    · simp [State.slotsEmpty, hmw]
    · rw [stopByMemory_ht_of_inv hs hem, hmw]
      rfl
  case load =>
    have hr := (inRange_iff s.params a).2 hin
    have haddr : (truncWord e.aluOrAddressResult).toNat = a := truncWord_toNat_of_inRange hp hr
    have hstep := memoryStep_of_load hem hmw hop hr hl
    rw [ExecuteMemory.loaded, haddr] at hstep
    exact ⟨_, _, hstep, rfl, toNat_zextWord _, rfl, haddr, rfl, rfl⟩
  case store =>
    have hr := (inRange_iff s.params a).2 hin
    have haddr : (truncWord e.aluOrAddressResult).toNat = a := truncWord_toNat_of_inRange hp hr
    have hstep := memoryStep_of_store hem hmw hop hr hl
    rw [haddr] at hstep
    refine ⟨_, hstep, fun hwf => ?_, fun b hb => Memory.read_write_ne s.mem _ hb, haddr,
      toNat_truncWord _, rfl⟩
    rw [Memory.read_write_of_wf hwf, toNat_truncWord]

/-- Settles O44: the two answers of WRITEBACK, and by the frame no other step writes a register. -/
theorem writebackCommitsAndReleases : Obligations.WritebackCommitsAndReleases := by
  refine ⟨fun s w hmw => ⟨writebackStep_of_unlocked hmw, fun hl ht hrel => ?_⟩,
    fun k s t h hne => ?_⟩
  · refine ⟨_, writebackStep_of_locked hmw hl hrel, rfl,
      fun hne => readReg_writeReg_self hne _ s, fun r hr => ?_, ?_⟩
    · change (s.writeReg w.destinationRegister w.aluOrAddressResult).readReg r = s.readReg r
      rw [readReg_writeReg, if_neg]
      rintro ⟨rfl, hx⟩
      exact hr.elim (fun h => h rfl) hx
    · simp only [State.writeReg]
      split <;> rfl
  · by_contra hk
    exact hne ((pipeStep_frame h).x hk)

/-- Settles O21: with the slots empty every step misses the slot it starts from, and FETCH finds the
record of a fault. -/
theorem haltedCoreTakesNoStep : Obligations.HaltedCoreTakesNoStep := by
  intro s f hslots hf
  refine ⟨by simp [step, hslots, hf], fun k => ?_⟩
  simp only [State.slotsEmpty, Bool.and_eq_true, Option.isNone_iff_eq_none] at hslots
  obtain ⟨⟨⟨⟨hfd, hdin⟩, hde⟩, hem⟩, hmw⟩ := hslots
  cases k with
  | fetch => simp [pipeStep, fetchStep, State.fetchReady, hf]
  | decAccept => simp [pipeStep, decAcceptStep, hfd]
  | decIssue => simp [pipeStep, decIssueStep, hdin]
  | execute => simp [pipeStep, executeStep, hde]
  | memory => simp [pipeStep, memoryStep, hem]
  | writeback => simp [pipeStep, writebackStep, hmw]

theorem getElem?_snapshot (s : State) (r : RegIx) :
    s.snapshot[r.toNat]? = some (registerName r.toNat, s.readReg r) := by
  simp [State.snapshot, List.getElem?_range r.isLt]

/-- Settles O45: entry `r` of the snapshot is the name and the value of register `r`. -/
theorem snapshotShowsEveryRegister : Obligations.SnapshotShowsEveryRegister := by
  intro s
  refine ⟨by simp [State.snapshot], ?_, fun r hr => ?_, rfl, fun k hk => if_neg hk⟩
  · have h := getElem?_snapshot s xzr
    rw [readReg_xzr] at h
    exact h
  · have hname : registerName r.toNat = "X" ++ toString r.toNat :=
      if_neg (toNat_lt_31 hr).ne
    rw [getElem?_snapshot, hname]

end Sys2Proof.Machine
end

section
/-! PROOFS. The invariant (70_reset_and_hazards.md R158): the width of the values that Decode and Execute
build, the states with empty slots, reset with an image, and the six steps of the pipeline. -/

namespace Sys2Proof.Machine

open Sys2Proof

/-! ### Values of `XLEN` bits -/

section Width

variable {p : Params}

theorem fitsX_iff {v : XVal} : fitsX p v ↔ v.toNat < 2 ^ p.xlen.bits := by
  rw [fitsX, ← BitVec.toNat_inj, toNat_truncX]
  exact Nat.mod_eq_iff_lt (by positivity)

theorem fitsX_truncX (v : XVal) : fitsX p (truncX p v) := by
  rw [fitsX_iff, toNat_truncX]
  exact Nat.mod_lt _ (by positivity)

@[simp] theorem fitsX_zero : fitsX p 0#64 := fitsX_iff.2 (by simp)

/-- A word of memory has 32 bits, and a register at least as many (R7). -/
theorem fitsX_zextWord (w : Word) : fitsX p (zextWord w) := by
  have hbits : 2 ^ 32 ≤ 2 ^ p.xlen.bits :=
    Nat.pow_le_pow_right (by decide) (by cases p.xlen <;> decide)
  rw [fitsX_iff, toNat_zextWord]
  exact w.isLt.trans_le hbits

theorem fitsX_movkValue {old : XVal} (h : fitsX p old) (imm16 : BitVec 16) (hw : BitVec 2) :
    fitsX p (movkValue p old imm16 hw) := by
  rw [fitsX_iff, movkValue, BitVec.toNat_or]
  apply Nat.or_lt_two_pow
  · rw [BitVec.toNat_and]
    exact Nat.and_le_left.trans_lt (fitsX_iff.1 h)
  · exact fitsX_iff.1 (fitsX_truncX _)

/-- R124: what Execute computes has `XLEN` bits when the first operand has. -/
theorem fitsX_executeResult {m : DecodeExecute} (h : fitsX p m.operand1Value) (k : Mnemonic) :
    fitsX p (executeResult p k m) := by
  cases k with
  | movk => exact fitsX_movkValue h _ _
  | b | cbz | cbnz => exact fitsX_zero
  | _ => exact fitsX_truncX _

/-- R115: the operands of a micro-op are register values or 0. -/
theorem fitsX_operandValues {rf : RegIx → XVal} (h : ∀ r, fitsX p (rf r)) (k : Mnemonic)
    (iw : Word) : fitsX p (operandValues rf k iw).1 ∧ fitsX p (operandValues rf k iw).2 := by
  cases k <;> simp [operandValues, h]

theorem executedOk_executed {m : DecodeExecute} (h : MicroOpOk p m) (k : Mnemonic) :
    ExecutedOk p (executed p k m) := by
  obtain ⟨h1, h2, j, hj, hlock, hne⟩ := h
  refine ⟨fitsX_executeResult h1 k, ?_, fun hl => hne (hlock.symm.trans hl)⟩
  cases hst : k.isStore <;> simp [executed, hst, h2]

theorem microOpOk_microOp {rf : RegIx → XVal} (h : ∀ r, fitsX p (rf r)) {r : FetchDecode}
    {k : Mnemonic} (hfault : decodeFault r = none) (hk : classify r.instructionWord = some k) :
    MicroOpOk p (microOp rf k r) := by
  obtain ⟨-, j, hj, hne⟩ := (decodeFault_eq_none_iff r).1 hfault
  obtain rfl : j = k := Option.some.inj (hj.symm.trans hk)
  obtain ⟨h1, h2⟩ := fitsX_operandValues h j r.instructionWord
  exact ⟨h1, h2, j, hk, rfl, fun hd hx => hne ⟨hd, hx⟩⟩

/-- R129: the word that a load passes on has `XLEN` bits. -/
theorem executedOk_loaded {e : ExecuteMemory} (h : ExecutedOk p e) (m : Memory) :
    ExecutedOk p (e.loaded m) := by
  obtain ⟨-, hdata, hne⟩ := h
  exact ⟨fitsX_zextWord _, hdata, hne⟩

end Width

/-! ### States with empty slots -/

theorem slotsEmpty_iff (s : State) :
    s.slotsEmpty = true ↔
      s.fd = none ∧ s.din = none ∧ s.de = none ∧ s.em = none ∧ s.mw = none := by
  simp [State.slotsEmpty, and_assoc]

/-- With nothing in flight the invariant is about the architectural state alone. -/
theorem inv_of_drained {s : State} (hd : s.Drained) (params : s.params.Valid)
    (memWf : Memory.wf s.mem = true) (memWithin : Memory.within s.params.memWords s.mem = true)
    (regsFit : ∀ r, fitsX s.params (s.readReg r)) (recent : s.recentStores.length ≤ 2) : Inv s := by
  obtain ⟨hfd, hdin, hde, hem, hmw⟩ := (slotsEmpty_iff s).1 hd.slots
  exact {
    params, memWf, memWithin, regsFit, recent
    tracker := by simp [hd.ht, State.lockedDests, hde, hem, hmw]
    oneInDecode := fun _ => hde
    fence := by simp [hd.branchPending, State.branchInDE, hde]
    fdOk := fun r h => nomatch hfd.symm.trans h
    dinOk := fun r h => nomatch hdin.symm.trans h
    fdNext := fun r h => nomatch hfd.symm.trans h
    dinNext := fun r h => nomatch hdin.symm.trans h
    deOk := fun m h => nomatch hde.symm.trans h
    emOk := fun e h => nomatch hem.symm.trans h
    mwOk := fun w h => nomatch hmw.symm.trans h
    stopped := fun _ => ⟨hfd, hdin, hde⟩ }

/-- A good state with empty slots has an empty tracker and no fence. -/
theorem drained_of_inv {s : State} (hs : Inv s) (hslots : s.slotsEmpty = true) : s.Drained := by
  obtain ⟨-, -, hde, hem, hmw⟩ := (slotsEmpty_iff s).1 hslots
  exact {
    slots := hslots
    ht := by rw [hs.tracker]; simp [State.lockedDests, hde, hem, hmw]
    branchPending := by rw [hs.fence]; simp [State.branchInDE, hde] }

/-! ### Reset with an image -/

section Image

/-- The memory of an image is canonical and begins at the image's address. -/
theorem wfFrom_imageMemory (ws : List Word) (a : Nat) :
    Memory.wfFrom a (imageMemory a ws) = true := by
  induction ws generalizing a with
  | nil => rfl
  | cons w ws ih =>
    by_cases hw : w = Memory.unlisted
    · simpa [imageMemory, hw] using Memory.wfFrom_mono (Nat.le_succ a) (ih (a + 1))
    · simp [imageMemory, hw, Memory.wfFrom, ih]

/-- The memory of an image ends with the image. -/
theorem within_imageMemory {n : Nat} (ws : List Word) {a : Nat} (h : a + ws.length ≤ n) :
    Memory.within n (imageMemory a ws) = true := by
  induction ws generalizing a with
  | nil => rfl
  | cons w ws ih =>
    rw [List.length_cons] at h
    have hrest : Memory.within n (imageMemory (a + 1) ws) = true := ih (by omega)
    by_cases hw : w = Memory.unlisted
    · simpa [imageMemory, hw] using hrest
    · have ha : a < n := by omega
      simpa [imageMemory, hw, Memory.within, ha] using hrest

/-- Word `i` of an image is at the `i`-th address from its first one; after the image there are zeros. -/
theorem read_imageMemory (ws : List Word) (a i : Nat) :
    Memory.read (imageMemory a ws) (a + i) = ws.getD i 0 := by
  induction ws generalizing a i with
  | nil => rfl
  | cons w ws ih =>
    have hfirst : Memory.read (imageMemory (a + 1) ws) a = Memory.unlisted :=
      Memory.read_of_lt (wfFrom_imageMemory ws (a + 1)) (Nat.lt_succ_self a)
    cases i with
    | zero =>
      by_cases hw : w = Memory.unlisted
      · simpa [imageMemory, hw] using hfirst
      · simp [imageMemory, hw, Memory.read]
    | succ i =>
      have hrest := ih (a + 1) i
      rw [Nat.add_right_comm, Nat.add_assoc] at hrest
      by_cases hw : w = Memory.unlisted
      · simpa [imageMemory, hw] using hrest
      · simpa [imageMemory, hw, Memory.read] using hrest

end Image

/-- `State.resetWith` answers under its guard, and then `State.reset` with image and values put in. -/
theorem resetWith_eq_some_iff {p : Params} {image : List Word} {regs : Vector XVal 31} {s : State} :
    State.resetWith p image regs = some s ↔
      (p.Valid ∧ image.length ≤ p.memWords) ∧
      s = { State.reset with params := p, mem := imageMemory 0 image, x := regs.map (truncX p) } := by
  unfold State.resetWith
  split
  · next h => rw [Option.some.injEq, eq_comm, and_iff_right h]
  · next h => exact iff_of_false nofun fun hx => h hx.1

theorem drained_of_resetWith {p : Params} {image : List Word} {regs : Vector XVal 31} {s : State}
    (h : State.resetWith p image regs = some s) : s.Drained ∧ s.fault = none := by
  obtain ⟨-, rfl⟩ := resetWith_eq_some_iff.1 h
  exact ⟨⟨rfl, rfl, rfl⟩, rfl⟩

/-- R154: register `r` holds the low `XLEN` bits of the value given. -/
theorem readReg_resetWith {p : Params} {image : List Word} {regs : Vector XVal 31} {s : State}
    (h : State.resetWith p image regs = some s) (r : RegIx) (hr : r.toNat < 31) :
    s.readReg r = truncX p regs[r.toNat] := by
  obtain ⟨-, rfl⟩ := resetWith_eq_some_iff.1 h
  simp [State.readReg, hr]

theorem inv_of_resetWith {p : Params} {image : List Word} {regs : Vector XVal 31} {s : State}
    (h : State.resetWith p image regs = some s) : Inv s := by
  have hreg := readReg_resetWith h
  have hdrained := (drained_of_resetWith h).1
  obtain ⟨⟨hp, hlen⟩, rfl⟩ := resetWith_eq_some_iff.1 h
  refine inv_of_drained hdrained hp (wfFrom_imageMemory image 0)
    (within_imageMemory image (by rwa [Nat.zero_add])) (fun r => ?_) (Nat.zero_le 2)
  by_cases hr : r = xzr
  · rw [hr, readReg_xzr]
    exact fitsX_zero
  · rw [hreg r (toNat_lt_31 hr)]
    exact fitsX_truncX _

/-- Settles O36: the reset state is a drained one, its memory empty, its registers 0 (log 3). -/
theorem resetSatisfiesTheInvariant : Obligations.ResetSatisfiesTheInvariant := by
  have hregs : ∀ r, fitsX State.reset.params (State.reset.readReg r) := fun r => by
    simp [State.readReg, State.reset]
  exact inv_of_drained ⟨rfl, rfl, rfl⟩ (by decide) rfl rfl hregs (Nat.zero_le 2)

/-- Settles O35: the guard of `State.resetWith`, and the fields of its answer. -/
theorem resetWithLoadsTheImage : Obligations.ResetWithLoadsTheImage := by
  refine ⟨fun p image regs hp hlen => ⟨_, resetWith_eq_some_iff.2 ⟨⟨hp, hlen⟩, rfl⟩⟩,
    fun p image regs s h => ?_⟩
  have hdrained := (drained_of_resetWith h).1
  have hreg := readReg_resetWith h
  have hinv := inv_of_resetWith h
  obtain ⟨-, rfl⟩ := resetWith_eq_some_iff.1 h
  refine ⟨rfl, rfl, hdrained, rfl, readReg_xzr _, fun a => ?_, fun r hr => ?_, hinv⟩
  · simpa using read_imageMemory image 0 a
  · rw [hreg r hr, toNat_truncX]

/-! ### The six steps of the pipeline -/

section Steps

variable {s t : State}

@[simp] theorem instrAddrOf_add_one (a : Word) : instrAddrOf (a + 1#32) = a := by
  simp [instrAddrOf]

/-- A register just fetched is poisoned exactly outside memory, and the one in DIN is followed by it. -/
theorem inv_fetch (hs : Inv s) (h : pipeStep .fetch s = some t) : Inv t := by
  obtain ⟨hfd, hfault, hcases⟩ := fetchStep_cases h
  have hbehind : s.behindDecode = s.pc := by simp [State.behindDecode, hfd]
  have hdinNext (r : FetchDecode) (hr : s.din = some r) : r.nextPC = instrAddrOf (s.pc + 1) := by
    simp [hs.dinNext r hr, hbehind]
  obtain ⟨hr, rfl⟩ | ⟨hr, rfl⟩ := hcases
  · exact { hs with
      fdOk := by rintro r ⟨rfl⟩; simp [FetchOk, hr]
      fdNext := by rintro r ⟨rfl⟩; rfl
      dinNext := hdinNext
      stopped := fun hf => absurd hfault hf }
  · exact { hs with
      fdOk := by rintro r ⟨rfl⟩; simp [FetchOk, hr]
      fdNext := by rintro r ⟨rfl⟩; rfl
      dinNext := hdinNext
      stopped := fun hf => absurd hfault hf }

theorem inv_decAccept (hs : Inv s) (h : pipeStep .decAccept s = some t) : Inv t := by
  obtain ⟨r, hfd, -, hde, -, hfault, rfl⟩ := decAcceptStep_cases h
  exact { hs with
    oneInDecode := fun _ => hde
    fdOk := nofun
    dinOk := by rintro q ⟨rfl⟩; exact hs.fdOk _ hfd
    fdNext := nofun
    dinNext := by rintro q ⟨rfl⟩; exact hs.fdNext _ hfd
    stopped := fun hf => absurd hfault hf }

/-- DEC_ISSUE adds the destination of a locked instruction at the young end of the tracker, and the fence
exactly for a branch. -/
theorem inv_decIssue (hs : Inv s) (h : pipeStep .decIssue s = some t) : Inv t := by
  obtain ⟨r, hdin, hcases⟩ := decIssueStep_cases h
  have hde : s.de = none := hs.oneInDecode (by simp [hdin])
  obtain ⟨kind, -, rfl⟩ | ⟨k, hfault, hk, -, rfl⟩ := hcases
  · exact { hs with
      oneInDecode := fun _ => hde
      fdOk := nofun
      dinOk := nofun
      fdNext := nofun
      dinNext := nofun
      stopped := fun _ => ⟨rfl, rfl, hde⟩ }
  · have htracker : (s.issue k r).ht = (s.issue k r).lockedDests := by
      have hbefore := hs.tracker
      rw [lockedDests_eq, hde] at hbefore
      rw [lockedDests_eq, issue_mw, issue_em, issue_de, issue_ht, hbefore]
      cases hd : k.hasDest <;> simp [slotDests, microOp, htEnqueue, hd]
    have hfence : (s.issue k r).branchPending = (s.issue k r).branchInDE := by
      have hbefore : s.branchPending = false := by
        rw [hs.fence]; simp [State.branchInDE, hde]
      simp [State.branchInDE, microOp, hk, hbefore]
    exact { hs with
      tracker := htracker
      oneInDecode := fun hne => absurd rfl hne
      fence := hfence
      dinOk := nofun
      dinNext := nofun
      deOk := by rintro m ⟨rfl⟩; exact microOpOk_microOp hs.regsFit hfault hk
      stopped := fun hf => by cases (hs.stopped hf).2.1.symm.trans hdin }

/-- The lock moves from DE to EM. -/
theorem tracker_execute {m : DecodeExecute} {k : Mnemonic} (hs : Inv s) (hde : s.de = some m)
    (hem : s.em = none) (htht : t.ht = s.ht) (htmw : t.mw = s.mw)
    (htem : t.em = some (executed s.params k m)) (htde : t.de = none) : t.ht = t.lockedDests := by
  rw [htht, hs.tracker, lockedDests_eq, lockedDests_eq, htmw, htem, htde, hde, hem]
  simp [slotDests, executed]

/-- EXECUTE with DE full leaves DIN empty, so what a taken branch does to FD and the program counter
breaks no chain of addresses. -/
theorem inv_execute (hs : Inv s) (h : pipeStep .execute s = some t) : Inv t := by
  obtain ⟨m, k, hde, hem, hk, rfl⟩ := executeStep_cases h
  have hdin : s.din = none := by
    by_contra hne
    cases (hs.oneInDecode hne).symm.trans hde
  have hfault : s.fault = none := by
    by_contra hf
    cases (hs.stopped hf).2.2.symm.trans hde
  have hok : ExecutedOk s.params (executed s.params k m) := executedOk_executed (hs.deOk m hde) k
  cases hb : k.isBranch with
  | false =>
    have hfence : s.branchPending = false := by
      rw [hs.fence]; simp [State.branchInDE, hde, hk, hb]
    rw [resolveBranch_of_not_isBranch hb]
    exact { hs with
      tracker := tracker_execute hs hde hem rfl rfl rfl rfl
      oneInDecode := fun _ => rfl
      fence := hfence
      deOk := nofun
      emOk := by rintro e ⟨rfl⟩; exact hok
      stopped := fun hf => absurd hfault hf }
  | true =>
    cases htaken : branchTaken k m with
    | false =>
      rw [resolveBranch_of_not_taken hb htaken]
      exact { hs with
        tracker := tracker_execute hs hde hem rfl rfl rfl rfl
        oneInDecode := fun _ => rfl
        fence := rfl
        deOk := nofun
        emOk := by rintro e ⟨rfl⟩; exact hok
        stopped := fun hf => absurd hfault hf }
    | true =>
      rw [resolveBranch_of_taken hb htaken]
      exact { hs with
        tracker := tracker_execute hs hde hem rfl rfl rfl rfl
        oneInDecode := fun _ => rfl
        fence := rfl
        fdOk := nofun
        fdNext := nofun
        dinNext := fun r hr => nomatch hdin.symm.trans hr
        deOk := nofun
        emOk := by rintro e ⟨rfl⟩; exact hok
        stopped := fun hf => absurd hfault hf }

/-- The lock moves from EM to MW. -/
theorem tracker_memory {e w : ExecuteMemory} (hs : Inv s) (hem : s.em = some e) (hmw : s.mw = none)
    (htht : t.ht = s.ht) (htmw : t.mw = some w) (htem : t.em = none) (htde : t.de = s.de)
    (hl : w.destinationLockAdded = e.destinationLockAdded)
    (hd : w.destinationRegister = e.destinationRegister) : t.ht = t.lockedDests := by
  rw [htht, hs.tracker, lockedDests_eq, lockedDests_eq, htmw, htem, htde, hem, hmw]
  simp [slotDests, hl, hd]

theorem inv_memory (hs : Inv s) (h : pipeStep .memory s = some t) : Inv t := by
  obtain ⟨e, hem, hmw, hcases⟩ := memoryStep_cases h
  have hok := hs.emOk e hem
  obtain ⟨-, rfl⟩ | ⟨-, -, rfl⟩ | ⟨-, -, -, rfl⟩ | ⟨-, hr, -, rfl⟩ := hcases
  case inl =>
    exact { hs with
      tracker := tracker_memory hs hem hmw rfl rfl rfl rfl rfl rfl
      emOk := nofun
      mwOk := by rintro w ⟨rfl⟩; exact hok }
  case inr.inl =>
    have htracker : (s.stopByMemory e).ht = (s.stopByMemory e).lockedDests := by
      rw [stopByMemory_ht_of_inv hs hem, lockedDests_eq]
      simp [slotDests]
    exact { hs with
      tracker := htracker
      oneInDecode := fun _ => rfl
      fence := rfl
      fdOk := nofun
      dinOk := nofun
      fdNext := nofun
      dinNext := nofun
      deOk := nofun
      emOk := nofun
      stopped := fun _ => ⟨rfl, rfl, rfl⟩ }
  case inr.inr.inl =>
    exact { hs with
      tracker := tracker_memory hs hem hmw rfl rfl rfl rfl rfl rfl
      emOk := nofun
      mwOk := by rintro w ⟨rfl⟩; exact executedOk_loaded hok s.mem }
  case inr.inr.inr =>
    exact { hs with
      memWf := Memory.wf_write _ _ hs.memWf
      memWithin := Memory.within_write _ ((inRange_iff _ _).1 (inRange_truncWord hr)) hs.memWithin
      tracker := tracker_memory hs hem hmw rfl rfl rfl rfl rfl rfl
      emOk := nofun
      mwOk := by rintro w ⟨rfl⟩; exact hok }

/-- The write of WRITEBACK touches the register file alone. -/
theorem commit_eq (w : MemoryWriteback) (s : State) :
    s.commit w = { s with x := (s.commit w).x } := by
  unfold State.commit State.writeReg
  split
  · split <;> rfl
  · rfl

theorem readReg_commit (w : MemoryWriteback) (s : State) (q : RegIx) :
    (s.commit w).readReg q =
      if w.destinationLockAdded = true ∧ q = w.destinationRegister ∧ w.destinationRegister ≠ xzr then
        w.aluOrAddressResult
      else s.readReg q := by
  cases hl : w.destinationLockAdded <;> simp [State.commit, hl, readReg_writeReg]

theorem inv_writeback (hs : Inv s) (h : pipeStep .writeback s = some t) : Inv t := by
  obtain ⟨w, hmw, -⟩ := writebackStep_cases h
  obtain ⟨hfit, -, -⟩ := hs.mwOk w hmw
  obtain rfl := Option.some.inj (h.symm.trans (writebackStep_of_inv hs hmw))
  have hregs (r : RegIx) : fitsX s.params ((s.commit w).readReg r) := by
    rw [readReg_commit]
    split
    · exact hfit
    · exact hs.regsFit r
  have htracker : ({ s.commit w with ht := s.youngDests, mw := none } : State).ht =
      ({ s.commit w with ht := s.youngDests, mw := none } : State).lockedDests := by
    rw [commit_eq, lockedDests_eq_append_youngDests]
    rfl
  rw [commit_eq] at htracker ⊢
  exact { hs with
    regsFit := hregs
    tracker := htracker
    mwOk := nofun }

end Steps

/-- R158: every step of the pipeline keeps the invariant. -/
theorem inv_pipeStep {k : PipeStep} {s t : State} (hs : Inv s) (h : pipeStep k s = some t) :
    Inv t := by
  cases k with
  | fetch => exact inv_fetch hs h
  | decAccept => exact inv_decAccept hs h
  | decIssue => exact inv_decIssue hs h
  | execute => exact inv_execute hs h
  | memory => exact inv_memory hs h
  | writeback => exact inv_writeback hs h

/-- Settles O54: step by step. -/
theorem pipelineKeepsTheInvariant : Obligations.PipelineKeepsTheInvariant :=
  fun _ _ _ hs h => inv_pipeStep hs h

/-! ### Which steps are enabled -/

theorem enabled_writeback_of_inv {s : State} {w : MemoryWriteback} (hs : Inv s)
    (hmw : s.mw = some w) : s.enabled .writeback = true :=
  Option.isSome_iff_exists.2 ⟨_, writebackStep_of_inv hs hmw⟩

/-- With DE, EM and MW empty nothing is locked, so Decode does not wait (R113, R160). -/
theorem enabled_decIssue_of_empty {s : State} {r : FetchDecode} (hs : Inv s) (hdin : s.din = some r)
    (hem : s.em = none) (hmw : s.mw = none) : s.enabled .decIssue = true := by
  have hde : s.de = none := hs.oneInDecode (by simp [hdin])
  have hht : s.ht = [] := by rw [hs.tracker]; simp [State.lockedDests, hde, hem, hmw]
  cases hf : decodeFault r with
  | some kind => exact Option.isSome_iff_exists.2 ⟨_, decIssueStep_of_decodeFault hdin hf⟩
  | none =>
    obtain ⟨-, k, hk, -⟩ := (decodeFault_eq_none_iff r).1 hf
    rw [enabled_decIssue_iff hdin hf hk, hht]
    exact fun q _ => List.not_mem_nil

/-- R160: the oldest instruction in flight can always go on; with nothing in flight FETCH can. -/
theorem exists_enabled {s : State} (hs : Inv s) (hfault : s.fault = none) :
    ∃ k, s.enabled k = true := by
  cases hmw : s.mw with
  | some w => exact ⟨_, enabled_writeback_of_inv hs hmw⟩
  | none =>
    cases hem : s.em with
    | some e => exact ⟨_, enabled_memory_of_em hem hmw⟩
    | none =>
      cases hde : s.de with
      | some m =>
        obtain ⟨-, -, k, hk, -⟩ := hs.deOk m hde
        exact ⟨_, (enabled_execute_iff s).2 ⟨hem, m, k, hde, hk⟩⟩
      | none =>
        cases hdin : s.din with
        | some r => exact ⟨_, enabled_decIssue_of_empty hs hdin hem hmw⟩
        | none =>
          cases hfd : s.fd with
          | none => exact ⟨_, (enabled_fetch_iff s).2 ⟨hfd, hfault⟩⟩
          | some r =>
            have hfence : s.branchPending = false := by
              rw [hs.fence]; simp [State.branchInDE, hde]
            exact ⟨_, (enabled_decAccept_iff s).2 ⟨by simp [hfd], hdin, hde, hfence, hfault⟩⟩

/-- Settles O51: from the oldest stage on, the first full slot can move. -/
theorem noDeadlock : Obligations.NoDeadlock := fun _ hs hfault => exists_enabled hs hfault

/-- R144: a good state that is not halted can go on: after a fault only EM and MW can be full. -/
theorem exists_enabled_of_not_halted {s : State} (hs : Inv s) (hh : s.halted = false) :
    ∃ k, s.enabled k = true := by
  by_cases hfault : s.fault = none
  · exact exists_enabled hs hfault
  · obtain ⟨hfd, hdin, hde⟩ := hs.stopped hfault
    cases hmw : s.mw with
    | some w => exact ⟨_, enabled_writeback_of_inv hs hmw⟩
    | none =>
      cases hem : s.em with
      | some e => exact ⟨_, enabled_memory_of_em hem hmw⟩
      | none =>
        have hslots : s.slotsEmpty = true := (slotsEmpty_iff s).2 ⟨hfd, hdin, hde, hem, hmw⟩
        simp [State.halted, hslots, hfault] at hh

theorem halted_iff (s : State) :
    s.halted = true ↔ (∃ f, s.fault = some f) ∧ s.slotsEmpty = true := by
  simp [State.halted, Option.isSome_iff_exists]

theorem not_enabled_of_halted {s : State} (hh : s.halted = true) (k : PipeStep) :
    s.enabled k = false := by
  obtain ⟨⟨f, hf⟩, hslots⟩ := (halted_iff s).1 hh
  simp [State.enabled, (haltedCoreTakesNoStep s f hslots hf).2 k]

theorem halted_iff_not_enabled {s : State} (hs : Inv s) :
    s.halted = true ↔ ∀ k, s.enabled k = false := by
  refine ⟨not_enabled_of_halted, fun h => ?_⟩
  by_contra hh
  obtain ⟨k, hk⟩ := exists_enabled_of_not_halted hs (Bool.not_eq_true _ ▸ hh)
  cases (h k).symm.trans hk

/-- The steps that the instructions in EM and MW still take: two and one. -/
def State.draining (s : State) : Nat :=
  (if s.em.isSome then 2 else 0) + (if s.mw.isSome then 1 else 0)

theorem draining_le (s : State) : s.draining ≤ 3 := by
  unfold State.draining
  split <;> split <;> omega

/-- R144: after a fault every step takes an instruction further down the pipeline or out of it. -/
theorem draining_pipeStep {k : PipeStep} {s t : State} (hs : Inv s) (h : pipeStep k s = some t)
    (hf : s.fault ≠ none) : t.draining + 1 ≤ s.draining := by
  obtain rfl | rfl := pipeStep_after_fault hs h hf
  · obtain ⟨e, hem, hmw, ⟨-, rfl⟩ | ⟨-, -, rfl⟩ | ⟨-, -, -, rfl⟩ | ⟨-, -, -, rfl⟩⟩ :=
      memoryStep_cases h <;> simp [State.draining, hem, hmw]
  · obtain ⟨w, hmw, ⟨-, rfl⟩ | ⟨-, ht, -, rfl⟩⟩ := writebackStep_cases h <;>
      simp [State.draining, hmw]

theorem length_le_draining {ks : List PipeStep} {s t : State} (hs : Inv s) (hf : s.fault ≠ none)
    (h : pipeRun ks s = some t) : ks.length ≤ s.draining := by
  induction ks generalizing s with
  | nil => exact Nat.zero_le _
  | cons k ks ih =>
    rw [pipeRun_cons, Option.bind_eq_some_iff] at h
    obtain ⟨u, hu, hrun⟩ := h
    have hrest : ks.length ≤ u.draining :=
      ih (inv_pipeStep hs hu) (faultRecordStays k s u hs hu hf).1 hrun
    have hstep := draining_pipeStep hs hu hf
    rw [List.length_cons]
    omega

/-- Settles O52: a good state that is not halted can go on, and after a fault EM takes two steps and MW
one. -/
theorem haltedExactlyWhenNothingIsEnabled : Obligations.HaltedExactlyWhenNothingIsEnabled :=
  ⟨fun _ hs => halted_iff_not_enabled hs,
    fun s _ _ hs hf h => (length_le_draining hs hf h).trans (draining_le s)⟩

/-! ### The step of the core is never stuck -/

/-- R156: an instruction of the sequential level always has a next state. -/
theorem exists_instrStep (s : State) : ∃ t, s.instrStep = .next t := by
  unfold State.instrStep
  split
  · split
    · next i _ =>
      obtain ⟨t, ht, -⟩ := exec_shape i s.afterFetch
      exact ⟨t, ht⟩
    · exact ⟨_, rfl⟩
  · exact ⟨_, rfl⟩

theorem exists_firstEnabled {ks : List PipeStep} {s : State} {k : PipeStep} (hk : k ∈ ks)
    (h : s.enabled k = true) : ∃ t, firstEnabled ks s = some t := by
  induction ks with
  | nil => cases hk
  | cons j ks ih =>
    cases hj : pipeStep j s with
    | some t => exact ⟨t, by simp [firstEnabled, hj]⟩
    | none =>
      obtain rfl | hk := List.mem_cons.1 hk
      · simp [State.enabled, hj] at h
      · obtain ⟨t, ht⟩ := ih hk
        exact ⟨t, by simpa [firstEnabled, hj] using ht⟩

theorem mem_oldestFirst (k : PipeStep) : k ∈ oldestFirst := by cases k <;> decide

theorem step_of_slotsEmpty {s : State} (hslots : s.slotsEmpty = true) (hfault : s.fault = none) :
    step s = s.instrStep := by
  simp [step, hslots, hfault]

/-- Settles O53: with nothing in flight and no fault an instruction runs; else some step is enabled, or
the core is halted. -/
theorem stepIsNeverStuck : Obligations.StepIsNeverStuck := by
  refine fun s hs => ⟨fun hh => ?_, fun hh => ?_⟩
  · cases hslots : s.slotsEmpty with
    | true =>
      have hfault : s.fault = none := by simpa [State.halted, hslots] using hh
      rw [step_of_slotsEmpty hslots hfault]
      exact exists_instrStep s
    | false =>
      obtain ⟨k, hk⟩ := exists_enabled_of_not_halted hs hh
      obtain ⟨t, ht⟩ := exists_firstEnabled (mem_oldestFirst k) hk
      exact ⟨t, by simp [step, hslots, ht]⟩
  · obtain ⟨⟨f, hf⟩, hslots⟩ := (halted_iff s).1 hh
    exact ⟨f, hf, (haltedCoreTakesNoStep s f hslots hf).1⟩

end Sys2Proof.Machine
end

section
/-! PROOFS. The sequential level in terms of the pipeline's registers (70_reset_and_hazards.md R156,
R167): the micro-op of an instruction, executed and finished, has the effect of the instruction's
meaning. -/

namespace Sys2Proof.Machine

open Sys2Proof

/-! ### What remains of an instruction in EM -/

/-- The address of the instruction after the one that `e` stands for. -/
def ExecuteMemory.nextAddr (e : ExecuteMemory) : Word :=
  e.branchTargetIfTaken.getD (e.instrAddr + 1)

/-- Memory-Access is going to stop the core at `e` (R132). -/
def ExecuteMemory.stops (p : Params) (e : ExecuteMemory) : Bool :=
  e.isMemoryOp && !inRange p e.aluOrAddressResult.toNat

/-- `e` stands for a store (R130). -/
def ExecuteMemory.isStore (e : ExecuteMemory) : Bool := e.isMemoryOp && !e.destinationLockAdded

/-- The register that MEMORY passes on to MW when it does not stop the core. -/
def ExecuteMemory.passedOn (e : ExecuteMemory) (m : Memory) : MemoryWriteback :=
  if e.isMemoryOp && e.destinationLockAdded then e.loaded m else e

/-- What MEMORY does to memory and latches when it does not stop the core. -/
def State.access (e : ExecuteMemory) (s : State) : State :=
  if e.isMemoryOp then
    { s with
      mauAddr := truncWord e.aluOrAddressResult
      mauData := if e.destinationLockAdded then
          Memory.read s.mem (truncWord e.aluOrAddressResult).toNat
        else truncWord e.storeData
      mem := if e.destinationLockAdded then s.mem
        else Memory.write s.mem (truncWord e.aluOrAddressResult).toNat (truncWord e.storeData) }
  else s

/-- The effect that the instruction in EM still has on the architectural state and the latches: that of
MEMORY and WRITEBACK, with the program counter at the next instruction. -/
def State.finish (e : ExecuteMemory) (s : State) : State :=
  if e.stops s.params then { s with fault := some { kind := .memoryRange, addr := e.instrAddr } }
  else { (s.access e).commit (e.passedOn s.mem) with pc := e.nextAddr }

@[simp] theorem entry_passedOn (e : ExecuteMemory) (m : Memory) : (e.passedOn m).entry = e.entry := by
  unfold ExecuteMemory.passedOn
  split <;> rfl

/-- MEMORY when it does not stop the core. -/
theorem memoryStep_of_not_stops {s : State} {e : ExecuteMemory} (hem : s.em = some e)
    (hmw : s.mw = none) (hstops : e.stops s.params = false) :
    memoryStep s = some { s.access e with mw := some (e.passedOn s.mem), em := none } := by
  cases hop : e.isMemoryOp with
  | false => simp [memoryStep_of_not_memoryOp hem hmw hop, State.access, ExecuteMemory.passedOn, hop]
  | true =>
    have hr : inRange s.params e.aluOrAddressResult.toNat = true := by
      simpa [ExecuteMemory.stops, hop] using hstops
    cases hl : e.destinationLockAdded with
    | false =>
      simp [memoryStep_of_store hem hmw hop hr hl, State.access, ExecuteMemory.passedOn, hop, hl]
    | true =>
      simp [memoryStep_of_load hem hmw hop hr hl, State.access, ExecuteMemory.passedOn, hop, hl]

theorem memoryStep_of_stops {s : State} {e : ExecuteMemory} (hem : s.em = some e)
    (hmw : s.mw = none) (hstops : e.stops s.params = true) :
    memoryStep s = some (s.stopByMemory e) := by
  obtain ⟨hop, hr⟩ : e.isMemoryOp = true ∧ inRange s.params e.aluOrAddressResult.toNat = false := by
    simpa [ExecuteMemory.stops] using hstops
  exact memoryStep_of_not_inRange hem hmw hop hr

theorem access_eq (e : ExecuteMemory) (s : State) :
    s.access e = { s with
      mauAddr := (s.access e).mauAddr, mauData := (s.access e).mauData, mem := (s.access e).mem } := by
  unfold State.access
  split <;> rfl

/-! `finish` changes registers, memory, latches, fault record and program counter, each depending on
the architectural state alone. -/

theorem commit_x_congr {s t : State} (h : s.x = t.x) (w : MemoryWriteback) :
    (s.commit w).x = (t.commit w).x := by
  unfold State.commit State.writeReg
  split
  · split <;> simp [h]
  · exact h

theorem access_mem_congr {s t : State} (h : s.mem = t.mem) (e : ExecuteMemory) :
    (s.access e).mem = (t.access e).mem := by
  unfold State.access
  split <;> simp [h]

theorem finish_of_stops {s : State} {e : ExecuteMemory} (h : e.stops s.params = true) :
    s.finish e = { s with fault := some { kind := .memoryRange, addr := e.instrAddr } } := if_pos h

theorem finish_of_not_stops {s : State} {e : ExecuteMemory} (h : e.stops s.params = false) :
    s.finish e = { s with
      x := (s.commit (e.passedOn s.mem)).x
      mem := (s.access e).mem
      mauAddr := (s.access e).mauAddr
      mauData := (s.access e).mauData
      pc := e.nextAddr } := by
  have hx : ((s.access e).commit (e.passedOn s.mem)).x = (s.commit (e.passedOn s.mem)).x :=
    commit_x_congr (by rw [access_eq]) _
  rw [State.finish, h, commit_eq, hx, access_eq]
  rfl

/-- R136: MEMORY and WRITEBACK, one after the other, finish the instruction in EM, when its entry is the
oldest of the tracker; the program counter is not theirs. -/
theorem memory_writeback_eq {s : State} {e : ExecuteMemory} {young : List RegIx}
    (hem : s.em = some e) (hmw : s.mw = none) (hstops : e.stops s.params = false)
    (hht : s.ht = e.entry ++ young) :
    ∃ u, memoryStep s = some u ∧
      writebackStep u =
        some { s.finish e with ht := young, em := none, mw := none, pc := s.pc } := by
  have hx : (({ s.access e with mw := some (e.passedOn s.mem), em := none } : State).commit
      (e.passedOn s.mem)).x = (s.commit (e.passedOn s.mem)).x :=
    commit_x_congr (by rw [access_eq]) _
  have hentry : ({ s.access e with mw := some (e.passedOn s.mem), em := none } : State).ht =
      (e.passedOn s.mem).entry ++ young := by
    rw [entry_passedOn, access_eq]
    exact hht
  refine ⟨_, memoryStep_of_not_stops hem hmw hstops, ?_⟩
  rw [writebackStep_of_entry rfl hentry, commit_eq, hx, finish_of_not_stops hstops, access_eq]

/-! ### Agreement of architectural state and latches -/

/-- Two states agree in what R159 compares and in the two latches (log 6). -/
structure ArchMauEq (s t : State) : Prop extends ArchEq s t where
  mauAddr : s.mauAddr = t.mauAddr
  mauData : s.mauData = t.mauData

/-- What `finish` gives depends on the architectural state alone. -/
theorem archEq_finish {s t : State} {e : ExecuteMemory} (hp : s.params = t.params)
    (hx : s.x = t.x) (hmem : s.mem = t.mem) (hfault : s.fault = t.fault) :
    ArchEq (s.finish e) (t.finish e) := by
  cases hstops : e.stops s.params with
  | true =>
    rw [finish_of_stops hstops, finish_of_stops (hp ▸ hstops)]
    exact ⟨hp, hx, hmem, rfl, nofun⟩
  | false =>
    rw [finish_of_not_stops hstops, finish_of_not_stops (hp ▸ hstops)]
    exact ⟨hp, by rw [hmem]; exact commit_x_congr hx _, access_mem_congr hmem e, hfault,
      fun _ => rfl⟩

/-- The latches that `finish` leaves depend on latches and memory in addition. -/
theorem archMauEq_finish {s t : State} {e : ExecuteMemory} (hp : s.params = t.params)
    (hx : s.x = t.x) (hmem : s.mem = t.mem) (hfault : s.fault = t.fault)
    (hmau : s.mauAddr = t.mauAddr) (hdata : s.mauData = t.mauData) :
    ArchMauEq (s.finish e) (t.finish e) := by
  have hlatches : (s.access e).mauAddr = (t.access e).mauAddr ∧
      (s.access e).mauData = (t.access e).mauData := by
    unfold State.access
    split <;> simp [hmem, hmau, hdata]
  refine ⟨archEq_finish hp hx hmem hfault, ?_, ?_⟩
  all_goals
    cases hstops : e.stops s.params with
    | true => rw [finish_of_stops hstops, finish_of_stops (hp ▸ hstops)]; assumption
    | false => rw [finish_of_not_stops hstops, finish_of_not_stops (hp ▸ hstops)]; simp [hlatches]

/-! ### The micro-op of an instruction -/

/-- The immediate latch widened from 32 bits is the field widened at once (R65, D16). -/
theorem sextX_signExtend (p : Params) {w : Nat} (hw : w ≤ 32) (v : BitVec w) :
    sextX p (v.signExtend 32 : Word) = sextX p v := by
  have h : ((v.signExtend 32 : Word).signExtend 64) = v.signExtend 64 := by
    apply BitVec.eq_of_toInt_eq
    rw [BitVec.toInt_signExtend_of_le (by decide), BitVec.toInt_signExtend_of_le hw,
      BitVec.toInt_signExtend_of_le (by omega)]
  rw [sextX, h, sextX]

/-- A fatal error at the sequential level is its record (R11); the program counter is not compared. -/
theorem archMauEq_raise (kind : FaultKind) {s : State} {a : Word} (ha : a = s.pc) :
    ArchMauEq { s with fault := some { kind := kind, addr := a } } (s.raise kind) :=
  ⟨⟨rfl, rfl, rfl, by rw [ha]; rfl, nofun⟩, rfl, rfl⟩

section Meaning

variable {s : State} {e : ExecuteMemory}

/-- Of an instruction that only writes its destination, `e` carries the result. -/
theorem finish_writeDest {rd : RegIx} {v : XVal} (hrd : rd ≠ xzr) (hop : e.isMemoryOp = false)
    (hl : e.destinationLockAdded = true) (hd : e.destinationRegister = rd)
    (hv : e.aluOrAddressResult = v) (hnext : e.nextAddr = s.pc + 1) :
    ArchMauEq (s.finish e) (s.writeDest rd v) ∧ SamePipeline (s.writeDest rd v) s := by
  obtain ⟨hx, -⟩ | ⟨-, hw⟩ := writeDest_cases rd v s
  · exact absurd hx hrd
  · have hstops : e.stops s.params = false := by simp [ExecuteMemory.stops, hop]
    have hcommit : s.commit (e.passedOn s.mem) = s.writeReg rd v := by
      simp [State.commit, ExecuteMemory.passedOn, hop, hl, hd, hv]
    have haccess : s.access e = s := by simp [State.access, hop]
    rw [hw, finish_of_not_stops hstops, hcommit, haccess]
    exact ⟨⟨⟨by simp, by simp, by simp, by simp, by simp [hnext]⟩, by simp, by simp⟩,
      samePipeline_writeReg_advance rd v s⟩

/-- Of a load, `e` carries the effective address. -/
theorem finish_load {rt rn : RegIx} {off9 : BitVec 9} (hrt : rt ≠ xzr) (hop : e.isMemoryOp = true)
    (hl : e.destinationLockAdded = true) (hd : e.destinationRegister = rt)
    (hv : e.aluOrAddressResult = effectiveAddress s.params (s.readReg rn) off9)
    (haddr : e.instrAddr = s.pc) (hnext : e.nextAddr = s.pc + 1) :
    ArchMauEq (s.finish e) (s.load rt rn off9) ∧ SamePipeline (s.load rt rn off9) s := by
  obtain ⟨hx, -⟩ | ⟨-, hr, hload⟩ | ⟨-, hr, hload⟩ := load_cases rt rn off9 s
  · exact absurd hx hrt
  · have hstops : e.stops s.params = true := by simp [ExecuteMemory.stops, hop, hv, hr]
    rw [hload, finish_of_stops hstops]
    exact ⟨archMauEq_raise .memoryRange haddr, (raised_raise .memoryRange s).pipeline⟩
  · have hstops : e.stops s.params = false := by simp [ExecuteMemory.stops, hop, hv, hr]
    have hcommit : s.commit (e.passedOn s.mem) =
        s.writeReg rt (zextWord (Memory.read s.mem (truncWord e.aluOrAddressResult).toNat)) := by
      simp [State.commit, ExecuteMemory.passedOn, ExecuteMemory.loaded, hop, hl, hd]
    have haccess : s.access e = { s with
        mauAddr := truncWord e.aluOrAddressResult
        mauData := Memory.read s.mem (truncWord e.aluOrAddressResult).toNat } := by
      simp [State.access, hop, hl]
    rw [hload, ← hv, finish_of_not_stops hstops, hcommit, haccess]
    refine ⟨⟨⟨by simp, ?_, by simp, by simp, by simp [hnext]⟩, by simp, by simp⟩,
      by constructor <;> simp⟩
    simp only [State.writeReg, advance_x]
    split <;> rfl

/-- Of a store, `e` carries the effective address and the value. -/
theorem finish_store {rt rn : RegIx} {off9 : BitVec 9} (hop : e.isMemoryOp = true)
    (hl : e.destinationLockAdded = false)
    (hv : e.aluOrAddressResult = effectiveAddress s.params (s.readReg rn) off9)
    (hdata : e.storeData = s.readReg rt)
    (haddr : e.instrAddr = s.pc) (hnext : e.nextAddr = s.pc + 1) :
    ArchMauEq (s.finish e) (s.store rt rn off9) ∧ SamePipeline (s.store rt rn off9) s := by
  obtain ⟨hr, hstore⟩ | ⟨hr, hstore⟩ := store_cases rt rn off9 s
  · have hstops : e.stops s.params = true := by simp [ExecuteMemory.stops, hop, hv, hr]
    rw [hstore, finish_of_stops hstops]
    exact ⟨archMauEq_raise .memoryRange haddr, (raised_raise .memoryRange s).pipeline⟩
  · have hstops : e.stops s.params = false := by simp [ExecuteMemory.stops, hop, hv, hr]
    have hcommit : s.commit (e.passedOn s.mem) = s := by
      simp [State.commit, ExecuteMemory.passedOn, hop, hl]
    have haccess : s.access e = { s with
        mauAddr := truncWord e.aluOrAddressResult
        mauData := truncWord e.storeData
        mem := Memory.write s.mem (truncWord e.aluOrAddressResult).toNat
          (truncWord e.storeData) } := by
      simp [State.access, hop, hl]
    rw [hstore, ← hv, ← hdata, finish_of_not_stops hstops, hcommit, haccess]
    exact ⟨⟨⟨rfl, rfl, rfl, rfl, fun _ => hnext⟩, rfl, rfl⟩, ⟨rfl, rfl, rfl, rfl, rfl, rfl, rfl⟩⟩

/-- Of a branch, `e` carries the target if it is taken. -/
theorem finish_branch {taken : Bool} {w : Nat} {off : BitVec w} (hop : e.isMemoryOp = false)
    (hl : e.destinationLockAdded = false)
    (hnext : e.nextAddr = if taken then branchTarget s.pc off else s.pc + 1) :
    ArchMauEq (s.finish e) (s.branch taken off) ∧ SamePipeline (s.branch taken off) s := by
  have hstops : e.stops s.params = false := by simp [ExecuteMemory.stops, hop]
  have hcommit : s.commit (e.passedOn s.mem) = s := by
    simp [State.commit, ExecuteMemory.passedOn, hop, hl]
  have haccess : s.access e = s := by simp [State.access, hop]
  rw [finish_of_not_stops hstops, hcommit, haccess]
  exact ⟨⟨⟨rfl, rfl, rfl, rfl, fun _ => hnext⟩, rfl, rfl⟩, (regFrame_branch taken off s).pipeline⟩

end Meaning

/-- The register that Execute makes of the instruction in `r` when Decode reads its operands at `s`. -/
def State.executedAt (k : Mnemonic) (r : FetchDecode) (s : State) : ExecuteMemory :=
  executed s.params k (microOp (fun i => s.readReg i) k r)

/-- R98: the target is counted from the branch's own address. -/
theorem microOpTarget_eq {m : DecodeExecute} {a : Word} {w : Nat} {off : BitVec w}
    (hnext : m.nextPC = a + 1) (himm : m.signExtendedImmediate = off.signExtend 32) :
    microOpTarget m = branchTarget a off := by
  simp [microOpTarget, hnext, himm, branchTarget]

/-- Where Execute goes on, as the register in EM says it. -/
theorem nextAddr_executed (p : Params) (k : Mnemonic) (m : DecodeExecute) :
    (executed p k m).nextAddr =
      if branchTaken k m then microOpTarget m else instrAddrOf m.nextPC + 1 := by
  cases h : branchTaken k m <;> simp [ExecuteMemory.nextAddr, executed, h]

/-- R167: the register in EM that Decode and Execute make of an instruction has, once finished, the effect
of the instruction's meaning (R156). -/
theorem exec_finish {s : State} {k : Mnemonic} {r : FetchDecode} (hnext : r.nextPC = s.pc + 1)
    (hdest : k.hasDest = true → fieldRd r.instructionWord ≠ xzr) :
    ∃ t, exec (instrOf k r.instructionWord) s = .next t ∧
      ArchMauEq (s.finish (s.executedAt k r)) t ∧ SamePipeline t s := by
  have haddr : instrAddrOf r.nextPC = s.pc := by simp [hnext]
  have hseq : instrAddrOf r.nextPC + 1 = s.pc + 1 := by rw [haddr]
  have himm16 : ((fieldImm16 r.instructionWord).setWidth 32 : Word).setWidth 16 =
      fieldImm16 r.instructionWord := by simp
  have himm12 := sextX_signExtend s.params (by decide) (fieldImm12 r.instructionWord)
  have hoff9 := sextX_signExtend s.params (by decide) (fieldOff9 r.instructionWord)
  cases k with
  | add | adds | sub | subs =>
    exact ⟨_, rfl, finish_writeDest (hdest rfl) rfl rfl rfl rfl hseq⟩
  | addi | addis | subi | subis =>
    exact ⟨_, rfl, finish_writeDest (hdest rfl) rfl rfl rfl (by rw [← himm12]; rfl) hseq⟩
  | movz | movk =>
    exact ⟨_, rfl, finish_writeDest (hdest rfl) rfl rfl rfl (by rw [← himm16]; rfl) hseq⟩
  | ldur | ldurb | ldurh | ldursw =>
    exact ⟨_, rfl, finish_load (hdest rfl) rfl rfl rfl
      (by rw [effectiveAddress, ← hoff9]; rfl) haddr hseq⟩
  | stur | sturb | sturh | sturw =>
    exact ⟨_, rfl, finish_store rfl rfl (by rw [effectiveAddress, ← hoff9]; rfl) rfl haddr hseq⟩
  | b | cbz | cbnz =>
    refine ⟨_, rfl, finish_branch rfl rfl ?_⟩
    rw [State.executedAt, nextAddr_executed, microOpTarget_eq hnext rfl]
    exact congrArg (ite _ _) hseq

end Sys2Proof.Machine
end

section
/-! PROOFS. The step of the sequential level (70_reset_and_hazards.md R156) as Decode sees it, that it
keeps the invariant (R158), and one instruction through the empty pipeline (R167). -/

namespace Sys2Proof.Machine

open Sys2Proof

/-! ### The sequential step as Decode sees it -/

/-- The register that the fetch of the sequential level would hand to Decode. -/
def State.fetchRegister (s : State) : FetchDecode where
  instructionWord := if inRange s.params s.pc.toNat then s.fetchedWord else 0
  nextPC := s.pc + 1
  fetchFault := !inRange s.params s.pc.toNat

/-- The state after the fetch of the sequential level: the latches hold its transaction, if there was
one (R38, R105). -/
def State.fetched (s : State) : State :=
  if inRange s.params s.pc.toNat then s.afterFetch else s

theorem fetched_eq (s : State) :
    s.fetched = { s with
      mauAddr := s.fetched.mauAddr, mauData := s.fetched.mauData, draws := s.fetched.draws } := by
  unfold State.fetched
  split <;> rfl

@[simp] theorem fetched_params (s : State) : s.fetched.params = s.params := by rw [fetched_eq]
@[simp] theorem fetched_x (s : State) : s.fetched.x = s.x := by rw [fetched_eq]
@[simp] theorem fetched_pc (s : State) : s.fetched.pc = s.pc := by rw [fetched_eq]
@[simp] theorem fetched_mem (s : State) : s.fetched.mem = s.mem := by rw [fetched_eq]
@[simp] theorem fetched_fault (s : State) : s.fetched.fault = s.fault := by rw [fetched_eq]
@[simp] theorem readReg_fetched (s : State) (r : RegIx) : s.fetched.readReg r = s.readReg r :=
  readReg_congr (fetched_x s) r

theorem SamePipeline.trans {s t u : State} (h : SamePipeline s t) (h' : SamePipeline t u) :
    SamePipeline s u :=
  ⟨h.ht.trans h'.ht, h.fd.trans h'.fd, h.din.trans h'.din, h.de.trans h'.de, h.em.trans h'.em,
    h.mw.trans h'.mw, h.branchPending.trans h'.branchPending⟩

theorem samePipeline_fetched (s : State) : SamePipeline s.fetched s := by
  rw [fetched_eq]
  exact ⟨rfl, rfl, rfl, rfl, rfl, rfl, rfl⟩

theorem executedAt_fetched (k : Mnemonic) (r : FetchDecode) (s : State) :
    s.fetched.executedAt k r = s.executedAt k r := by
  simp [State.executedAt]

/-- What an instruction of the sequential level does, from its fetched register: the first fault that
Decode would find, or the effect of the register that Execute would make of it. -/
inductive InstrOutcome (s t : State) : Prop where
  | stop (kind : FaultKind) (hfault : decodeFault s.fetchRegister = some kind)
      (hstate : ArchMauEq { s.fetched with fault := some { kind := kind, addr := s.pc } } t)
  | finish (k : Mnemonic) (hfault : decodeFault s.fetchRegister = none)
      (hk : classify s.fetchRegister.instructionWord = some k)
      (hexec : exec (instrOf k s.fetchRegister.instructionWord) s.fetched = .next t)
      (hstate : ArchMauEq (s.fetched.finish (s.executedAt k s.fetchRegister)) t)

/-- R114, R142, R156: the sequential level finds the same fault as Decode, and else finishes the same
register. -/
theorem instrStep_outcome {s t : State} (h : s.instrStep = .next t) :
    InstrOutcome s t ∧ SamePipeline t s := by
  obtain ⟨hr, rfl⟩ | ⟨hr, hword⟩ := instrStep_cases h
  · have hfault : decodeFault s.fetchRegister = some .memoryRange :=
      decodeFault_of_fetchFault (by simp [State.fetchRegister, hr])
    refine ⟨.stop _ hfault ?_, (raised_raise _ s).pipeline⟩
    rw [State.fetched, hr]
    exact archMauEq_raise .memoryRange rfl
  · have hw : s.fetchRegister.instructionWord = s.fetchedWord := if_pos hr
    have hin : s.fetchRegister.fetchFault = false := by simp [State.fetchRegister, hr]
    have hfetched : s.fetched = s.afterFetch := if_pos hr
    obtain ⟨err, herr, rfl⟩ | ⟨i, hi, hexec⟩ := hword
    · have hc : classify s.fetchRegister.instructionWord = none := by
        rw [hw, Option.eq_none_iff_forall_ne_some]
        intro k hk
        cases (decode_of_classify hk).symm.trans herr
      rw [← hfetched]
      exact ⟨.stop _ (decodeFault_of_unknown hin hc) (archMauEq_raise _ (fetched_pc s).symm),
        (raised_raise _ _).pipeline.trans (samePipeline_fetched s)⟩
    · obtain ⟨k, hk, rfl⟩ := decode_eq_ok_iff.1 hi
      rw [← hw] at hk hexec
      rw [← hfetched] at hexec
      by_cases hx : k.hasDest = true ∧ fieldRd s.fetchRegister.instructionWord = xzr
      · obtain ⟨hd, hrd⟩ := hx
        have hdest : (instrOf k s.fetchRegister.instructionWord).dest = some xzr := by
          rw [dest_instrOf, if_pos hd, hrd]
        obtain rfl := Host.Outcome.next.inj ((exec_of_dest_xzr hdest s.fetched).symm.trans hexec)
        exact ⟨.stop _ (decodeFault_of_dest_xzr hin hk hd hrd)
            (archMauEq_raise _ (fetched_pc s).symm),
          (raised_raise _ _).pipeline.trans (samePipeline_fetched s)⟩
      · have hnone : decodeFault s.fetchRegister = none :=
          (decodeFault_eq_none_iff _).2 ⟨hin, k, hk, hx⟩
        have hnext : s.fetchRegister.nextPC = s.fetched.pc + 1 := by simp [State.fetchRegister]
        obtain ⟨u, hu, hstate, hpipe⟩ := exec_finish (k := k) hnext fun hd hrd => hx ⟨hd, hrd⟩
        obtain rfl := Host.Outcome.next.inj (hu.symm.trans hexec)
        rw [executedAt_fetched] at hstate
        exact ⟨.finish k hnone hk hexec hstate, hpipe.trans (samePipeline_fetched s)⟩

/-- The word of a settled fetch is the one in memory. -/
theorem fetchRegister_word_of_settled {s : State} (hset : s.settledAt s.pc = true)
    (hr : inRange s.params s.pc.toNat = true) :
    s.fetchRegister.instructionWord = Memory.read s.mem s.pc.toNat := by
  rw [← fetchedWord_of_settled hset]
  exact if_pos hr

/-! ### The step of the core keeps the invariant -/

/-- Finishing a register that Execute could have produced keeps memory and registers good. -/
theorem finish_good {s : State} {e : ExecuteMemory} (hok : ExecutedOk s.params e)
    (hwf : Memory.wf s.mem = true) (hwithin : Memory.within s.params.memWords s.mem = true)
    (hregs : ∀ r, fitsX s.params (s.readReg r)) :
    Memory.wf (s.finish e).mem = true ∧
    Memory.within s.params.memWords (s.finish e).mem = true ∧
    ∀ r, fitsX s.params ((s.finish e).readReg r) := by
  cases hstops : e.stops s.params with
  | true =>
    rw [finish_of_stops hstops]
    exact ⟨hwf, hwithin, hregs⟩
  | false =>
    have hpassed : fitsX s.params (e.passedOn s.mem).aluOrAddressResult := by
      unfold ExecuteMemory.passedOn
      split
      · exact fitsX_zextWord _
      · exact hok.1
    have hmem : Memory.wf (s.access e).mem = true ∧
        Memory.within s.params.memWords (s.access e).mem = true := by
      cases hop : e.isMemoryOp with
      | false => simp [State.access, hop, hwf, hwithin]
      | true =>
        have hr : inRange s.params e.aluOrAddressResult.toNat = true := by
          simpa [ExecuteMemory.stops, hop] using hstops
        cases hl : e.destinationLockAdded with
        | true => simp [State.access, hop, hl, hwf, hwithin]
        | false =>
          simp only [State.access, hop, hl, if_true, Bool.false_eq_true, if_false]
          exact ⟨Memory.wf_write _ _ hwf,
            Memory.within_write _ ((inRange_iff _ _).1 (inRange_truncWord hr)) hwithin⟩
    rw [finish_of_not_stops hstops]
    refine ⟨hmem.1, hmem.2, fun r => ?_⟩
    change fitsX s.params ((s.commit (e.passedOn s.mem)).readReg r)
    rw [readReg_commit]
    split
    · exact hpassed
    · exact hregs r

/-- The record of recent stores holds two instructions at most (log 7). -/
theorem exec_recentStores {i : Instr} {s t : State} (h : exec i s = .next t)
    (hs : s.recentStores.length ≤ 2) : t.recentStores.length ≤ 2 := by
  obtain ⟨u, hu, hshape⟩ := exec_shape i s
  obtain rfl : u = t := Host.Outcome.next.inj (hu.symm.trans h)
  cases hshape with
  | writeDest rd v => obtain ⟨-, h⟩ | ⟨-, h⟩ := writeDest_cases rd v s <;> simp [h, hs]
  | load rt rn off => obtain ⟨-, h⟩ | ⟨-, -, h⟩ | ⟨-, -, h⟩ := load_cases rt rn off s <;> simp [h, hs]
  | store rt rn off => obtain ⟨-, h⟩ | ⟨-, h⟩ := store_cases rt rn off s <;> simp [h, hs]
  | branch taken off => simp

theorem instrStep_recentStores {s t : State} (h : s.instrStep = .next t)
    (hs : s.recentStores.length ≤ 2) : t.recentStores.length ≤ 2 := by
  obtain ⟨-, rfl⟩ | ⟨-, ⟨e, -, rfl⟩ | ⟨i, -, hi⟩⟩ := instrStep_cases h
  · exact hs
  · exact hs
  · exact exec_recentStores hi hs

theorem drained_of_samePipeline {s t : State} (hs : s.Drained) (h : SamePipeline t s) :
    t.Drained := by
  obtain ⟨hslots, hht, hbranch⟩ := hs
  exact {
    slots := by simpa [State.slotsEmpty, h.fd, h.din, h.de, h.em, h.mw] using hslots
    ht := h.ht.trans hht
    branchPending := h.branchPending.trans hbranch }

/-- R158 at the sequential level: registers and memory stay good, and nothing comes into flight. -/
theorem inv_instrStep {s t : State} (hs : Inv s) (hslots : s.slotsEmpty = true)
    (h : s.instrStep = .next t) : Inv t := by
  obtain ⟨houtcome, hpipe⟩ := instrStep_outcome h
  have hdrained := drained_of_samePipeline (drained_of_inv hs hslots) hpipe
  have hp := instrStep_params h
  suffices harch : Memory.wf t.mem = true ∧ Memory.within s.params.memWords t.mem = true ∧
      ∀ r, fitsX s.params (t.readReg r) by
    rw [← hp] at harch
    exact inv_of_drained hdrained (hp ▸ hs.params) harch.1 harch.2.1 harch.2.2
      (instrStep_recentStores h hs.recent)
  cases houtcome with
  | stop kind hfault hstate =>
    rw [← hstate.mem]
    refine ⟨?_, ?_, fun r => ?_⟩
    · simpa using hs.memWf
    · simpa using hs.memWithin
    · have hfit := hs.regsFit r
      rw [← readReg_fetched] at hfit
      rw [← readReg_congr hstate.x]
      exact hfit
  | finish k hfault hk hexec hstate =>
    have hok : ExecutedOk s.params (s.executedAt k s.fetchRegister) :=
      executedOk_executed (microOpOk_microOp hs.regsFit hfault hk) k
    have hgood := finish_good (s := s.fetched) (by simpa using hok) (by simpa using hs.memWf)
      (by simpa using hs.memWithin) (by simpa using hs.regsFit)
    rw [fetched_params] at hgood
    rw [← hstate.mem]
    exact ⟨hgood.1, hgood.2.1, fun r => readReg_congr hstate.x r ▸ hgood.2.2 r⟩

/-- Settles O55: a step of the core is an instruction of the sequential level with nothing in flight, or
a step of the pipeline. -/
theorem stepKeepsTheInvariant : Obligations.StepKeepsTheInvariant := by
  intro s t hs h
  obtain ⟨hslots, -, hi⟩ | ⟨-, k, hk⟩ := step_cases h
  · exact inv_instrStep hs hslots hi
  · exact inv_pipeStep hs hk

/-- Settles O18: the settled fetch reads memory and draws nothing; outside memory there is no fetch. -/
theorem stepRunsTheDecodedInstruction : Obligations.StepRunsTheDecodedInstruction := by
  refine ⟨fun s i hslots hfault hin hset hi => ?_, fun s hslots hfault hout => ?_⟩
  · rw [step_of_slotsEmpty hslots hfault, State.instrStep, if_pos ((inRange_iff _ _).2 hin),
      fetchedWord_of_settled hset, hi, afterFetch_of_settled hset]
  · refine ⟨_, ?_, raised_raise .memoryRange s⟩
    rw [step_of_slotsEmpty hslots hfault, State.instrStep, (inRange_eq_false_iff _ _).2 hout]
    rfl

end Sys2Proof.Machine
end

section
/-! PROOFS. One instruction through the empty pipeline is one step of the sequential level
(70_reset_and_hazards.md R167, R159). -/

namespace Sys2Proof.Machine

open Sys2Proof

/-- A run whose first step leads to `u` is a run from `u`. -/
theorem pipeRun_of_pipeStep (k : PipeStep) {s u : State} (h : pipeStep k s = some u)
    (ks : List PipeStep) : pipeRun (k :: ks) s = pipeRun ks u := by
  rw [pipeRun_cons, h, Option.bind_some]

/-! ### Agreement is an equivalence -/

theorem ArchEq.trans {s t u : State} (h : ArchEq s t) (h' : ArchEq t u) : ArchEq s u :=
  ⟨h.params.trans h'.params, h.x.trans h'.x, h.mem.trans h'.mem, h.fault.trans h'.fault,
    fun hf => (h.pc hf).trans (h'.pc (h.fault ▸ hf))⟩

theorem ArchEq.symm {s t : State} (h : ArchEq s t) : ArchEq t s :=
  ⟨h.params.symm, h.x.symm, h.mem.symm, h.fault.symm, fun hf => (h.pc (h.fault.trans hf)).symm⟩

theorem ArchMauEq.trans {s t u : State} (h : ArchMauEq s t) (h' : ArchMauEq t u) : ArchMauEq s u :=
  ⟨h.toArchEq.trans h'.toArchEq, h.mauAddr.trans h'.mauAddr, h.mauData.trans h'.mauData⟩

theorem ArchMauEq.symm {s t : State} (h : ArchMauEq s t) : ArchMauEq t s :=
  ⟨h.toArchEq.symm, h.mauAddr.symm, h.mauData.symm⟩

/-! ### The front of the pipeline -/

section Front

variable {s : State}

/-- `s` after its fetch, with the register of the fetch in FD. -/
def State.inFD (s : State) : State :=
  { s.fetched with pc := s.pc + 1, fd := some s.fetchRegister }

/-- A settled FETCH takes the sequential level's register. -/
theorem fetchStep_of_settled (hready : s.fetchReady = true) (hset : s.settledAt s.pc = true) :
    fetchStep s = some s.inFD := by
  have hword := fetchedWord_of_settled hset
  cases hr : inRange s.params s.pc.toNat with
  | true =>
    rw [fetchStep_of_inRange hready hr]
    simp [State.inFD, State.fetched, State.fetchRegister, hr, State.afterFetch, hword, hset]
  | false =>
    rw [fetchStep_of_not_inRange hready hr]
    simp [State.inFD, State.fetched, State.fetchRegister, hr]

/-- `s` after its fetch, with the register of the fetch alone in flight, in DIN. -/
def State.accepted (s : State) : State :=
  { s.fetched with pc := s.pc + 1, fd := none, din := some s.fetchRegister }

theorem pipeRun_fetch_decAccept (hd : s.Drained) (hfault : s.fault = none)
    (hset : s.settledAt s.pc = true) : pipeRun [.fetch, .decAccept] s = some s.accepted := by
  obtain ⟨hfd, hdin, hde, -, -⟩ := (slotsEmpty_iff s).1 hd.slots
  have hpipe := samePipeline_fetched s
  have hfetch := fetchStep_of_settled ((fetchReady_iff s).2 ⟨hfd, hfault⟩) hset
  have haccept : pipeStep .decAccept s.inFD = some s.accepted :=
    decAcceptStep_of_guard (s := s.inFD) rfl (hpipe.din.trans hdin) (hpipe.de.trans hde)
      (hpipe.branchPending.trans hd.branchPending) ((fetched_fault s).trans hfault)
  exact (pipeRun_of_pipeStep .fetch hfetch _).trans (pipeRun_of_pipeStep .decAccept haccept [])

end Front

/-! ### An instruction that is the last one issued, in EM -/

/-- `t` is `s` with the register `e` in EM and nothing else issued; the next instruction to issue is the
one that follows `e`. -/
structure LastInEM (s : State) (e : ExecuteMemory) (t : State) : Prop where
  params : t.params = s.params
  x : t.x = s.x
  mem : t.mem = s.mem
  mauAddr : t.mauAddr = s.mauAddr
  mauData : t.mauData = s.mauData
  fault : t.fault = s.fault
  din : t.din = none
  de : t.de = none
  em : t.em = some e
  mw : t.mw = none
  ht : t.ht = e.entry
  branchPending : t.branchPending = false
  next : t.nextToIssue = e.nextAddr

/-- `t` is `s` after the instruction that `e` stands for: nothing is issued, and the next instruction to
issue follows `e`, unless the core has stopped. -/
structure Finished (s : State) (e : ExecuteMemory) (t : State) : Prop where
  din : t.din = none
  de : t.de = none
  em : t.em = none
  mw : t.mw = none
  ht : t.ht = []
  branchPending : t.branchPending = false
  arch : ArchMauEq (s.finish e) { t with pc := t.nextToIssue }

/-- Only branches are taken. -/
@[simp] theorem isBranch_and_branchTaken (k : Mnemonic) (m : DecodeExecute) :
    (k.isBranch && branchTaken k m) = branchTaken k m := by
  cases hb : k.isBranch with
  | true => rfl
  | false => rw [branchTaken_of_not_isBranch hb, Bool.false_and]

/-- EXECUTE of an instruction just issued with nothing before it: a taken branch empties FD and goes to
its target, every other instruction is followed by the one behind DIN. -/
theorem executeStep_issue {s : State} {r : FetchDecode} {k : Mnemonic}
    (hem : s.em = none) (hmw : s.mw = none) (hht : s.ht = []) (hfence : s.branchPending = false)
    (hbehind : r.nextPC = s.behindDecode) (hk : classify r.instructionWord = some k) :
    ∃ u, executeStep (s.issue k r) = some u ∧ LastInEM s (s.executedAt k r) u ∧
      (s.fd = none → u.fd = none) := by
  refine ⟨_, executeStep_of_classify (issue_de k r s) hem hk, ?_, fun hfd => by simp [hfd]⟩
  exact {
    params := by simp
    x := by simp
    mem := by simp
    mauAddr := by simp
    mauData := by simp
    fault := by simp
    din := by simp
    de := rfl
    em := rfl
    mw := by simpa using hmw
    ht := by
      rw [resolveBranch_ht, issue_ht, hht]
      rfl
    branchPending := by cases hb : k.isBranch <;> simp [hb, hfence]
    next := by
      have hseq : instrAddrOf r.nextPC + 1 = s.behindDecode := by simp [instrAddrOf, hbehind]
      rw [State.executedAt, nextAddr_executed]
      simp only [State.nextToIssue, State.behindDecode, resolveBranch_din, resolveBranch_fd,
        resolveBranch_pc, isBranch_and_branchTaken, issue_din, issue_fd, issue_pc]
      cases branchTaken k (microOp (fun i => s.readReg i) k r) with
      | true => rfl
      | false => exact hseq.symm }

/-- MEMORY and WRITEBACK finish the instruction in EM, or MEMORY stops the core at it. -/
theorem LastInEM.finishes {s t : State} {e : ExecuteMemory} (h : LastInEM s e t) :
    ∃ u, Finished s e u ∧ (t.fd = none → u.fd = none) ∧
      ((e.stops s.params = true ∧ memoryStep t = some u) ∨
        (e.stops s.params = false ∧ ∃ w, memoryStep t = some w ∧ writebackStep w = some u)) := by
  have hfinish : ArchMauEq (s.finish e) (t.finish e) :=
    archMauEq_finish h.params.symm h.x.symm h.mem.symm h.fault.symm h.mauAddr.symm h.mauData.symm
  rw [← h.params]
  cases hstops : e.stops t.params with
  | true =>
    rw [finish_of_stops hstops] at hfinish
    refine ⟨_, ?_, fun _ => rfl, .inl ⟨rfl, memoryStep_of_stops h.em h.mw hstops⟩⟩
    exact {
      din := rfl, de := rfl, em := rfl, mw := h.mw, branchPending := rfl
      ht := by
        cases hl : e.destinationLockAdded <;>
          simp [discardedLocks, h.de, h.ht, hl, ExecuteMemory.entry, htDropYoungest]
      arch := ⟨⟨hfinish.params, hfinish.x, hfinish.mem, hfinish.fault,
        fun hf => nomatch hfinish.fault.symm.trans hf⟩, hfinish.mauAddr, hfinish.mauData⟩ }
  | false =>
    have hentry : t.ht = e.entry ++ [] := by rw [List.append_nil, h.ht]
    obtain ⟨w, hw, hu⟩ := memory_writeback_eq h.em h.mw hstops hentry
    rw [finish_of_not_stops hstops] at hfinish hu
    refine ⟨_, ?_, ?_, .inr ⟨rfl, w, hw, hu⟩⟩
    case refine_2 => exact id
    exact {
      din := h.din, de := h.de, em := rfl, mw := rfl, branchPending := h.branchPending
      ht := rfl
      arch := ⟨⟨hfinish.params, hfinish.x, hfinish.mem, hfinish.fault,
        fun hf => (hfinish.pc hf).trans h.next.symm⟩, hfinish.mauAddr, hfinish.mauData⟩ }

/-- DEC_ISSUE stops the core at a faulting instruction that is alone in DIN. -/
theorem drained_stopByDecode_accepted {s : State} (hd : s.Drained) (kind : FaultKind) (a : Word) :
    (s.accepted.stopByDecode kind a).Drained := by
  obtain ⟨-, -, hde, hem, hmw⟩ := (slotsEmpty_iff s).1 hd.slots
  have hpipe := samePipeline_fetched s
  refine ⟨(slotsEmpty_iff _).2 ⟨rfl, rfl, ?_, ?_, ?_⟩, ?_, ?_⟩
  · exact hpipe.de.trans hde
  · exact hpipe.em.trans hem
  · exact hpipe.mw.trans hmw
  · exact hpipe.ht.trans hd.ht
  · exact hpipe.branchPending.trans hd.branchPending

/-- Settles O56: Decode finds the fault of the sequential level, or the six steps finish the register
that has the effect of the meaning. -/
theorem sixStepsAreOneInstruction : Obligations.SixStepsAreOneInstruction := by
  intro s t hd hfault hset h
  rw [step_of_slotsEmpty hd.slots hfault] at h
  obtain ⟨houtcome, hpipe⟩ := instrStep_outcome h
  have htd := drained_of_samePipeline hd hpipe
  have hfront (ks : List PipeStep) :
      pipeRun ([.fetch, .decAccept] ++ ks) s = pipeRun ks s.accepted := by
    rw [pipeRun_append, pipeRun_fetch_decAccept hd hfault hset, Option.bind_some]
  cases houtcome with
  | stop kind hkind hstate =>
    have hne : t.fault ≠ none := fun hf => nomatch hstate.fault.trans hf
    have haddr : instrAddrOf s.fetchRegister.nextPC = s.pc := by simp [State.fetchRegister]
    have hissue : pipeStep .decIssue s.accepted = some (s.accepted.stopByDecode kind s.pc) :=
      haddr ▸ decIssueStep_of_decodeFault (s := s.accepted) rfl hkind
    exact ⟨3, s.accepted.stopByDecode kind s.pc, by omega, fun hf => absurd hf hne,
      (hfront [.decIssue]).trans (pipeRun_of_pipeStep .decIssue hissue []),
      ⟨hstate.params, hstate.x, hstate.mem, hstate.fault, nofun⟩,
      drained_stopByDecode_accepted hd kind s.pc, htd, hstate.mauAddr, hstate.mauData⟩
  | finish k hnone hk hexec hstate =>
    obtain ⟨hfd, hdin, hde, hem, hmw⟩ := (slotsEmpty_iff s).1 hd.slots
    have hempty := samePipeline_fetched s
    have hht : s.accepted.ht = [] := hempty.ht.trans hd.ht
    have hissue : pipeStep .decIssue s.accepted = some (s.accepted.issue k s.fetchRegister) := by
      rw [pipeStep, decIssueStep_of_classify rfl hnone hk, if_neg]
      simp [hht]
    obtain ⟨u, hu, hlast, hufd⟩ := executeStep_issue (s := s.accepted) (r := s.fetchRegister)
      (hempty.em.trans hem) (hempty.mw.trans hmw) hht
      (hempty.branchPending.trans hd.branchPending) rfl hk
    obtain ⟨v, hv, hvfd, hrun⟩ := hlast.finishes
    have hmiddle (ks : List PipeStep) :
        pipeRun ([.fetch, .decAccept] ++ .decIssue :: .execute :: ks) s = pipeRun ks u := by
      rw [hfront, pipeRun_of_pipeStep .decIssue hissue]
      exact pipeRun_of_pipeStep .execute (s := s.accepted.issue k s.fetchRegister) hu ks
    have hvfd := hvfd (hufd rfl)
    have hvd : v.Drained :=
      ⟨(slotsEmpty_iff v).2 ⟨hvfd, hv.din, hv.de, hv.em, hv.mw⟩, hv.ht, hv.branchPending⟩
    have harch : ArchMauEq v t := by
      have hnext : v.nextToIssue = v.pc := by
        simp [State.nextToIssue, State.behindDecode, hv.din, hvfd]
      have hvarch := hv.arch
      rw [hnext] at hvarch
      have hsame : ArchMauEq (s.accepted.finish (s.executedAt k s.fetchRegister))
          (s.fetched.finish (s.executedAt k s.fetchRegister)) :=
        archMauEq_finish rfl rfl rfl rfl rfl rfl
      rw [← executedAt_fetched k s.fetchRegister s] at hsame
      exact hvarch.symm.trans (hsame.trans (executedAt_fetched k s.fetchRegister s ▸ hstate))
    obtain ⟨hstops, hw⟩ | ⟨hstops, w, hw, hu⟩ := hrun
    · have hne : t.fault ≠ none := by
        have hrecord := hv.arch.fault
        rw [finish_of_stops hstops] at hrecord
        exact fun hf => nomatch hrecord.trans (harch.fault.trans hf)
      exact ⟨5, v, by omega, fun hf => absurd hf hne,
        (hmiddle _).trans (pipeRun_of_pipeStep .memory hw []), harch.toArchEq, hvd, htd,
        harch.mauAddr, harch.mauData⟩
    · exact ⟨6, v, le_rfl, fun _ => rfl,
        (hmiddle _).trans ((pipeRun_of_pipeStep .memory hw [.writeback]).trans
          (pipeRun_of_pipeStep .writeback hu [])), harch.toArchEq, hvd, htd,
        harch.mauAddr, harch.mauData⟩

end Sys2Proof.Machine
end

section
/-! PROOFS. The pipeline refines the sequential semantics, step by step, under any schedule
(70_reset_and_hazards.md R159). Every step but DEC_ISSUE commutes with the completion of the issued
instructions. -/

namespace Sys2Proof.Machine

open Sys2Proof

/-! ### Steps taken when they are enabled -/

section TryStep

variable {s t : State}

theorem tryStep_of_some {k : PipeStep} (h : pipeStep k s = some t) : s.tryStep k = t := by
  rw [State.tryStep, h, Option.getD_some]

theorem tryStep_of_none {k : PipeStep} (h : pipeStep k s = none) : s.tryStep k = s := by
  rw [State.tryStep, h, Option.getD_none]

theorem inv_tryStep (hs : Inv s) (k : PipeStep) : Inv (s.tryStep k) := by
  cases h : pipeStep k s with
  | none => rwa [tryStep_of_none h]
  | some t => rw [tryStep_of_some h]; exact inv_pipeStep hs h

/-- A fault that is recorded stays recorded (R33). -/
theorem tryStep_fault_ne_none (hs : Inv s) (hf : s.fault ≠ none) (k : PipeStep) :
    (s.tryStep k).fault ≠ none := by
  cases h : pipeStep k s with
  | none => rwa [tryStep_of_none h]
  | some t => rw [tryStep_of_some h]; exact (faultRecordStays k s t hs h hf).1

theorem tryStep_writeback_of_empty (hmw : s.mw = none) : s.tryStep .writeback = s :=
  tryStep_of_none (by simp [pipeStep, writebackStep, hmw])

theorem tryStep_memory_of_empty (hem : s.em = none) : s.tryStep .memory = s :=
  tryStep_of_none (by simp [pipeStep, memoryStep, hem])

theorem tryStep_execute_of_empty (hde : s.de = none) : s.tryStep .execute = s :=
  tryStep_of_none (by simp [pipeStep, executeStep, hde])

/-- The register file after WRITEBACK, if there is anything to write back. -/
def State.writtenBack (s : State) : Vector XVal 31 :=
  match s.mw with
  | some w => (s.commit w).x
  | none => s.x

theorem writtenBack_congr (hx : s.x = t.x) (hmw : s.mw = t.mw) :
    s.writtenBack = t.writtenBack := by
  unfold State.writtenBack
  rw [hmw]
  cases t.mw with
  | none => exact hx
  | some w => exact commit_x_congr hx w

/-- WRITEBACK of a good state, whether or not there is anything to write back. -/
theorem tryStep_writeback_eq (hs : Inv s) :
    s.tryStep .writeback = { s with x := s.writtenBack, ht := s.youngDests, mw := none } := by
  cases hmw : s.mw with
  | some w =>
    rw [tryStep_of_some (k := .writeback) (writebackStep_of_inv hs hmw), commit_eq,
      State.writtenBack, hmw]
  | none =>
    have hht : s.ht = s.youngDests := by
      rw [hs.tracker, lockedDests_eq_append_youngDests, hmw]
      rfl
    have hx : s.writtenBack = s.x := by simp [State.writtenBack, hmw]
    rw [tryStep_writeback_of_empty hmw, hx, ← hht, ← hmw]

/-- MEMORY with MW empty: it stops the core, or passes the register on, or EM is empty. -/
theorem tryStep_memory_cases (hmw : s.mw = none) :
    (∃ e, s.em = some e ∧ e.stops s.params = true ∧ s.tryStep .memory = s.stopByMemory e) ∨
    (∃ e, s.em = some e ∧ e.stops s.params = false ∧
      s.tryStep .memory = { s.access e with mw := some (e.passedOn s.mem), em := none }) ∨
    (s.em = none ∧ s.tryStep .memory = s) := by
  cases hem : s.em with
  | none => exact .inr (.inr ⟨rfl, tryStep_memory_of_empty hem⟩)
  | some e =>
    cases hstops : e.stops s.params with
    | true => exact .inl ⟨e, rfl, hstops, tryStep_of_some (memoryStep_of_stops hem hmw hstops)⟩
    | false =>
      exact .inr (.inl ⟨e, rfl, hstops, tryStep_of_some (memoryStep_of_not_stops hem hmw hstops)⟩)

theorem tryStep_memory_em (hmw : s.mw = none) : (s.tryStep .memory).em = none := by
  obtain ⟨e, -, -, h⟩ | ⟨e, -, -, h⟩ | ⟨hem, h⟩ := tryStep_memory_cases hmw
  · rw [h]; rfl
  · rw [h]
  · rw [h, hem]

theorem tryStep_memory_de (hmw : s.mw = none) (hde : s.de = none) :
    (s.tryStep .memory).de = none := by
  obtain ⟨e, -, -, h⟩ | ⟨e, -, -, h⟩ | ⟨-, h⟩ := tryStep_memory_cases hmw
  · rw [h]; rfl
  · rw [h, access_eq]; exact hde
  · rw [h, hde]

/-- EXECUTE of a good state with EM empty: every word in DE is known (R122). -/
theorem tryStep_execute_cases (hs : Inv s) (hem : s.em = none) :
    (s.de = none ∧ s.tryStep .execute = s) ∨
    ∃ m k, s.de = some m ∧ classify m.instructionWord = some k ∧
      s.tryStep .execute =
        { s.resolveBranch k m with em := some (executed s.params k m), de := none } := by
  cases hde : s.de with
  | none => exact .inl ⟨rfl, tryStep_execute_of_empty hde⟩
  | some m =>
    obtain ⟨-, -, k, hk, -⟩ := hs.deOk m hde
    exact .inr ⟨m, k, rfl, hk, tryStep_of_some (executeStep_of_classify hde hem hk)⟩

theorem tryStep_execute_mw (hs : Inv s) (hem : s.em = none) :
    (s.tryStep .execute).mw = s.mw ∧ (s.tryStep .execute).de = none := by
  obtain ⟨hde, h⟩ | ⟨m, k, -, -, h⟩ := tryStep_execute_cases hs hem
  · rw [h]; exact ⟨rfl, hde⟩
  · rw [h]; exact ⟨resolveBranch_mw k m s, rfl⟩

end TryStep

/-! ### The completion of the issued instructions -/

section Complete

variable {s t : State}

/-- Letting the instructions in MW and EM complete. -/
def State.completeOld (s : State) : State :=
  ((s.tryStep .writeback).tryStep .memory).tryStep .writeback

theorem completeIssued_eq (s : State) :
    s.completeIssued = ((s.completeOld.tryStep .execute).tryStep .memory).tryStep .writeback := rfl

theorem inv_completeOld (hs : Inv s) : Inv s.completeOld :=
  inv_tryStep (inv_tryStep (inv_tryStep hs _) _) _

theorem mw_tryStep_writeback (hs : Inv s) : (s.tryStep .writeback).mw = none := by
  rw [tryStep_writeback_eq hs]

/-- After the completion of MW and EM both are empty. -/
theorem completeOld_empty (hs : Inv s) : s.completeOld.em = none ∧ s.completeOld.mw = none := by
  have h1 := inv_tryStep hs .writeback
  have h2 := inv_tryStep h1 .memory
  have hem := tryStep_memory_em (mw_tryStep_writeback hs)
  refine ⟨?_, mw_tryStep_writeback h2⟩
  rw [State.completeOld, tryStep_writeback_eq h2]
  exact hem

theorem completeOld_de (hs : Inv s) (hde : s.de = none) : s.completeOld.de = none := by
  have h2 := inv_tryStep (inv_tryStep hs .writeback) .memory
  rw [State.completeOld, tryStep_writeback_eq h2]
  refine tryStep_memory_de (mw_tryStep_writeback hs) ?_
  rw [tryStep_writeback_eq hs]
  exact hde

/-- With DE empty nothing younger than EM is issued. -/
theorem completeIssued_of_de_none (hs : Inv s) (hde : s.de = none) :
    s.completeIssued = s.completeOld := by
  obtain ⟨hem, hmw⟩ := completeOld_empty hs
  rw [completeIssued_eq, tryStep_execute_of_empty (completeOld_de hs hde),
    tryStep_memory_of_empty hem, tryStep_writeback_of_empty hmw]

/-- After the completion nothing is issued. -/
theorem completeIssued_empty (hs : Inv s) :
    s.completeIssued.de = none ∧ s.completeIssued.em = none ∧ s.completeIssued.mw = none := by
  obtain ⟨hem, hmw⟩ := completeOld_empty hs
  have h3 := inv_completeOld hs
  obtain ⟨hmw4, hde4⟩ := tryStep_execute_mw h3 hem
  have h5 := inv_tryStep (inv_tryStep h3 .execute) .memory
  rw [completeIssued_eq, tryStep_writeback_eq h5]
  exact ⟨tryStep_memory_de (hmw4.trans hmw) hde4, tryStep_memory_em (hmw4.trans hmw), rfl⟩

theorem sequential_congr (h : s.completeIssued = t.completeIssued) :
    s.sequential = t.sequential := by
  rw [State.sequential, State.sequential, h]

/-! ### The steps of the two oldest stages and EXECUTE -/

/-- WRITEBACK is the first step of the completion. -/
theorem completeIssued_writeback (hs : Inv s) (h : pipeStep .writeback s = some t) :
    s.completeIssued = t.completeIssued := by
  have hst := tryStep_of_some h
  have hmw : t.mw = none := hst ▸ mw_tryStep_writeback hs
  rw [completeIssued_eq, completeIssued_eq, State.completeOld, State.completeOld, hst,
    tryStep_writeback_of_empty hmw]

/-- MEMORY is the first step of the completion when MW is empty. -/
theorem completeIssued_memory (hs : Inv s) (h : pipeStep .memory s = some t) :
    s.completeIssued = t.completeIssued := by
  obtain ⟨e, -, hmw, -⟩ := memoryStep_cases h
  have ht := inv_pipeStep hs h
  have hst := tryStep_of_some h
  have hem : t.em = none := hst ▸ tryStep_memory_em hmw
  have hem' : (t.tryStep .writeback).em = none := by rw [tryStep_writeback_eq ht]; exact hem
  rw [completeIssued_eq, completeIssued_eq, State.completeOld, State.completeOld,
    tryStep_writeback_of_empty hmw, hst, tryStep_memory_of_empty hem',
    tryStep_writeback_of_empty (mw_tryStep_writeback ht)]

/-- WRITEBACK and EXECUTE touch different parts of the state. -/
theorem tryStep_execute_writeback (hs : Inv s) (hem : s.em = none) :
    (s.tryStep .execute).tryStep .writeback = (s.tryStep .writeback).tryStep .execute := by
  have hs1 := inv_tryStep hs .writeback
  have hs2 := inv_tryStep hs .execute
  rw [tryStep_writeback_eq hs2]
  obtain ⟨hde, h⟩ | ⟨m, k, hde, hk, h⟩ := tryStep_execute_cases hs hem
  · have hde' : (s.tryStep .writeback).de = none := by rw [tryStep_writeback_eq hs]; exact hde
    rw [h, ← tryStep_writeback_eq hs, tryStep_execute_of_empty hde']
  · have hexecute : (s.tryStep .writeback).tryStep .execute = _ :=
      tryStep_of_some (executeStep_of_classify
        (s := s.tryStep .writeback) (m := m) (by rw [tryStep_writeback_eq hs]; exact hde)
        (by rw [tryStep_writeback_eq hs]; exact hem) hk)
    have hyoung : (s.tryStep .execute).youngDests = s.youngDests := by
      rw [h, State.youngDests, State.youngDests, hem, hde]
      simp [slotDests, executed]
    have hx : (s.tryStep .execute).writtenBack = s.writtenBack := by
      rw [h]
      exact writtenBack_congr (resolveBranch_x k m s) (resolveBranch_mw k m s)
    rw [hexecute, hyoung, hx, h, tryStep_writeback_eq hs]
    unfold State.resolveBranch
    split <;> rfl

/-- EXECUTE with EM empty can be taken before the completion of MW. -/
theorem completeIssued_execute (hs : Inv s) (h : pipeStep .execute s = some t) :
    s.completeIssued = t.completeIssued := by
  obtain ⟨m, k, -, hem, -, -⟩ := executeStep_cases h
  have ht := inv_pipeStep hs h
  have hst := tryStep_of_some h
  have hde : t.de = none := hst ▸ (tryStep_execute_mw hs hem).2
  have hem1 : (s.tryStep .writeback).em = none := by rw [tryStep_writeback_eq hs]; exact hem
  rw [completeIssued_of_de_none ht hde, completeIssued_eq, State.completeOld, State.completeOld,
    tryStep_memory_of_empty hem1, tryStep_writeback_of_empty (mw_tryStep_writeback hs),
    ← tryStep_execute_writeback hs hem, hst]

end Complete

end Sys2Proof.Machine
end

section
/-! PROOFS. The refinement, continued (70_reset_and_hazards.md R159): the steps of Fetch and Decode, and
the statement. -/

namespace Sys2Proof.Machine

open Sys2Proof

/-! ### States that differ in the front of the pipeline alone -/

section Front

variable {s t : State}

/-- The branch in DE is going to be taken, so that what is behind it is going to be discarded. -/
def State.takenInDE (s : State) : Bool :=
  match s.de with
  | some m =>
    match classify m.instructionWord with
    | some k => branchTaken k m
    | none => false
  | none => false

/-- The two states have issued the same instructions, and go on issuing at the same address where the
issued instructions leave that open. -/
structure SameBack (s t : State) : Prop where
  params : s.params = t.params
  x : s.x = t.x
  mem : s.mem = t.mem
  fault : s.fault = t.fault
  ht : s.ht = t.ht
  de : s.de = t.de
  em : s.em = t.em
  mw : s.mw = t.mw
  next : s.fault = none → s.takenInDE = false → s.nextToIssue = t.nextToIssue

theorem SameBack.writeback (hs : Inv s) (ht : Inv t) (h : SameBack s t) :
    SameBack (s.tryStep .writeback) (t.tryStep .writeback) := by
  have hyoung : s.youngDests = t.youngDests := by
    rw [State.youngDests, State.youngDests, h.em, h.de]
  rw [tryStep_writeback_eq hs, tryStep_writeback_eq ht]
  exact ⟨h.params, writtenBack_congr h.x h.mw, h.mem, h.fault, hyoung, h.de, h.em, rfl, h.next⟩

theorem SameBack.memory (hmw : s.mw = none) (h : SameBack s t) :
    SameBack (s.tryStep .memory) (t.tryStep .memory) := by
  have hmwt : t.mw = none := h.mw.symm.trans hmw
  obtain ⟨e, hem, hstops, hst⟩ | ⟨e, hem, hstops, hst⟩ | ⟨hem, hst⟩ := tryStep_memory_cases hmw
  · have htt : t.tryStep .memory = _ := tryStep_of_some
      (memoryStep_of_stops (h.em.symm.trans hem) hmwt (h.params ▸ hstops))
    have hht : htDropYoungest (discardedLocks e s.de) s.ht =
        htDropYoungest (discardedLocks e t.de) t.ht := by rw [h.de, h.ht]
    rw [hst, htt]
    exact ⟨h.params, h.x, h.mem, rfl, hht, rfl, rfl, h.mw, nofun⟩
  · have htt : t.tryStep .memory = _ := tryStep_of_some
      (memoryStep_of_not_stops (h.em.symm.trans hem) hmwt (h.params ▸ hstops))
    have hpassed : some (e.passedOn s.mem) = some (e.passedOn t.mem) := by rw [h.mem]
    have hmem := access_mem_congr h.mem e
    rw [hst, htt, access_eq e s, access_eq e t]
    exact ⟨h.params, h.x, hmem, h.fault, h.ht, h.de, rfl, hpassed, h.next⟩
  · rwa [hst, tryStep_memory_of_empty (h.em.symm.trans hem)]

theorem SameBack.execute (hs : Inv s) (ht : Inv t) (hem : s.em = none) (h : SameBack s t) :
    SameBack (s.tryStep .execute) (t.tryStep .execute) := by
  have hemt : t.em = none := h.em.symm.trans hem
  obtain ⟨hde, hst⟩ | ⟨m, k, hde, hk, hst⟩ := tryStep_execute_cases hs hem
  · rwa [hst, tryStep_execute_of_empty (h.de.symm.trans hde)]
  · have hdet : t.de = some m := h.de.symm.trans hde
    have htt : t.tryStep .execute = _ := tryStep_of_some (executeStep_of_classify hdet hemt hk)
    have hdin : s.din = none := by
      by_contra hne
      cases (hs.oneInDecode hne).symm.trans hde
    have hdint : t.din = none := by
      by_contra hne
      cases (ht.oneInDecode hne).symm.trans hdet
    have htaken : s.takenInDE = branchTaken k m := by simp [State.takenInDE, hde, hk]
    rw [hst, htt]
    refine ⟨?_, ?_, ?_, ?_, ?_, rfl, by rw [h.params], ?_, fun hf _ => ?_⟩
    · simpa using h.params
    · simpa using h.x
    · simpa using h.mem
    · simpa using h.fault
    · simpa using h.ht
    · simpa using h.mw
    · have hnext := h.next (by simpa using hf)
      rw [htaken] at hnext
      simp only [State.nextToIssue, State.behindDecode, resolveBranch_din, resolveBranch_fd,
        resolveBranch_pc, isBranch_and_branchTaken, hdin, hdint] at hnext ⊢
      cases hb : branchTaken k m with
      | true => rfl
      | false => exact hnext hb

/-- The completion of the issued instructions goes the same way in both. -/
theorem SameBack.completeOld (hs : Inv s) (ht : Inv t) (h : SameBack s t) :
    SameBack s.completeOld t.completeOld :=
  ((h.writeback hs ht).memory (mw_tryStep_writeback hs)).writeback
    (inv_tryStep (inv_tryStep hs _) _) (inv_tryStep (inv_tryStep ht _) _)

theorem SameBack.completeRest (hs : Inv s) (ht : Inv t) (hem : s.em = none) (hmw : s.mw = none)
    (h : SameBack s t) :
    SameBack (((s.tryStep .execute).tryStep .memory).tryStep .writeback)
      (((t.tryStep .execute).tryStep .memory).tryStep .writeback) :=
  ((h.execute hs ht hem).memory ((tryStep_execute_mw hs hem).1.trans hmw)).writeback
    (inv_tryStep (inv_tryStep hs _) _) (inv_tryStep (inv_tryStep ht _) _)

theorem SameBack.archEq_sequential_of_completeOld (hs : Inv s) (ht : Inv t)
    (h : SameBack s.completeOld t.completeOld) : ArchEq s.sequential t.sequential := by
  obtain ⟨hem, hmw⟩ := completeOld_empty hs
  have hback : SameBack s.completeIssued t.completeIssued :=
    h.completeRest (inv_completeOld hs) (inv_completeOld ht) hem hmw
  have hde := (completeIssued_empty hs).1
  have htaken : s.completeIssued.takenInDE = false := by simp [State.takenInDE, hde]
  exact ⟨hback.params, hback.x, hback.mem, hback.fault, fun hf => hback.next hf htaken⟩

theorem SameBack.archEq_sequential (hs : Inv s) (ht : Inv t) (h : SameBack s t) :
    ArchEq s.sequential t.sequential :=
  archEq_sequential_of_completeOld hs ht (h.completeOld hs ht)

/-- What FETCH puts into FD is the next instruction to issue, if FD is not discarded. -/
theorem sameBack_fetch (h : pipeStep .fetch s = some t) : SameBack s t := by
  obtain ⟨hfd, -, ⟨-, rfl⟩ | ⟨-, rfl⟩⟩ := fetchStep_cases h <;>
  · refine ⟨rfl, rfl, rfl, rfl, rfl, rfl, rfl, rfl, fun _ _ => ?_⟩
    simp [State.nextToIssue, State.behindDecode, hfd]

theorem sameBack_decAccept (h : pipeStep .decAccept s = some t) : SameBack s t := by
  obtain ⟨r, hfd, hdin, -, -, -, rfl⟩ := decAcceptStep_cases h
  refine ⟨rfl, rfl, rfl, rfl, rfl, rfl, rfl, rfl, fun _ _ => ?_⟩
  simp [State.nextToIssue, State.behindDecode, hfd, hdin]

/-! ### DEC_ISSUE behind an instruction that is going to stop the core -/

/-- The parts that the two oldest stages work on. -/
structure SameOld (s t : State) : Prop where
  params : s.params = t.params
  x : s.x = t.x
  mem : s.mem = t.mem
  em : s.em = t.em
  mw : s.mw = t.mw

/-- The completion of MW and EM of a state with no fault: the core stops at EM, or no fault comes. -/
theorem completeOld_fault (hs : Inv s) (hfault : s.fault = none) :
    s.completeOld.fault = none ∨
    ∃ e, (s.tryStep .writeback).em = some e ∧ e.stops s.params = true ∧
      (s.tryStep .writeback).tryStep .memory = (s.tryStep .writeback).stopByMemory e := by
  have h2 := inv_tryStep (inv_tryStep hs .writeback) .memory
  have hmw := mw_tryStep_writeback hs
  rw [State.completeOld, tryStep_writeback_eq h2]
  obtain ⟨e, hem, hstops, h⟩ | ⟨e, -, -, h⟩ | ⟨-, h⟩ := tryStep_memory_cases hmw
  · rw [tryStep_writeback_eq hs] at hstops
    exact .inr ⟨e, hem, hstops, h⟩
  · left
    rw [h, access_eq, tryStep_writeback_eq hs]
    exact hfault
  · left
    rw [h, tryStep_writeback_eq hs]
    exact hfault

/-- When the core stops at EM, nothing younger leaves a trace (R143). -/
theorem sameBack_of_stop (hs : Inv s) (ht : Inv t) (h : SameOld s t) {e : ExecuteMemory}
    (hem : (s.tryStep .writeback).em = some e) (hstops : e.stops s.params = true)
    (hst : (s.tryStep .writeback).tryStep .memory = (s.tryStep .writeback).stopByMemory e) :
    SameBack ((s.tryStep .writeback).tryStep .memory) ((t.tryStep .writeback).tryStep .memory) := by
  have hs1 := inv_tryStep hs .writeback
  have ht1 := inv_tryStep ht .writeback
  have hemt : (t.tryStep .writeback).em = some e := by
    rw [← hem, tryStep_writeback_eq ht, tryStep_writeback_eq hs]
    exact h.em.symm
  have hstopst : e.stops (t.tryStep .writeback).params = true := by
    rw [tryStep_writeback_eq ht]
    exact h.params ▸ hstops
  have htt : (t.tryStep .writeback).tryStep .memory = _ :=
    tryStep_of_some (memoryStep_of_stops hemt (mw_tryStep_writeback ht) hstopst)
  have hht : ((s.tryStep .writeback).stopByMemory e).ht =
      ((t.tryStep .writeback).stopByMemory e).ht := by
    rw [stopByMemory_ht_of_inv hs1 hem, stopByMemory_ht_of_inv ht1 hemt, mw_tryStep_writeback hs,
      mw_tryStep_writeback ht]
  rw [hst, htt]
  refine ⟨?_, ?_, ?_, rfl, hht, rfl, rfl, ?_, nofun⟩
  · simpa [tryStep_writeback_eq hs, tryStep_writeback_eq ht] using h.params
  · simpa [tryStep_writeback_eq hs, tryStep_writeback_eq ht] using writtenBack_congr h.x h.mw
  · simpa [tryStep_writeback_eq hs, tryStep_writeback_eq ht] using h.mem
  · simp [mw_tryStep_writeback hs, mw_tryStep_writeback ht]

theorem sameOld_decIssue (h : pipeStep .decIssue s = some t) : SameOld s t := by
  obtain ⟨r, -, ⟨kind, -, rfl⟩ | ⟨k, -, -, -, rfl⟩⟩ := decIssueStep_cases h <;>
    exact ⟨rfl, rfl, rfl, rfl, rfl⟩

/-- In a good state a full DIN has no fault behind it and no instruction before it in DE. -/
theorem front_of_din {r : FetchDecode} (hs : Inv s) (hdin : s.din = some r) :
    s.fault = none ∧ s.de = none := by
  refine ⟨?_, hs.oneInDecode (by simp [hdin])⟩
  by_contra hf
  cases (hs.stopped hf).2.1.symm.trans hdin

theorem archEq_sequential_decIssue_of_stop (hs : Inv s) (h : pipeStep .decIssue s = some t)
    (hstop : s.sequential.fault ≠ none) : ArchEq s.sequential t.sequential := by
  obtain ⟨r, hdin, -⟩ := decIssueStep_cases h
  obtain ⟨hfault, hde⟩ := front_of_din hs hdin
  have ht := inv_pipeStep hs h
  obtain hnone | ⟨e, hem, hstops, hst⟩ := completeOld_fault hs hfault
  · rw [← completeIssued_of_de_none hs hde] at hnone
    exact absurd hnone hstop
  · exact SameBack.archEq_sequential_of_completeOld hs ht
      ((sameBack_of_stop hs ht (sameOld_decIssue h) hem hstops hst).writeback
        (inv_tryStep (inv_tryStep hs _) _) (inv_tryStep (inv_tryStep ht _) _))

end Front

end Sys2Proof.Machine
end

section
/-! PROOFS. The refinement, concluded (70_reset_and_hazards.md R159): DEC_ISSUE of an instruction that
no instruction before it stops is the next instruction of the sequential run. -/

namespace Sys2Proof.Machine

open Sys2Proof

/-! ### DEC_ISSUE commutes with the completion of the older instructions -/

/-- What DEC_ISSUE puts into the front of the pipeline. -/
structure FrontPart where
  fault : Option FaultRecord
  branchPending : Bool
  de : Option DecodeExecute
  fd : Option FetchDecode

/-- The state with a new front, the tracker entry of DE at the young end. -/
def State.putFront (f : FrontPart) (s : State) : State :=
  { s with
    ht := s.ht ++ slotDests DecodeExecute.destinationLockAdded (fun m => fieldRd m.instructionWord) f.de
    fault := f.fault, branchPending := f.branchPending, de := f.de, din := none, fd := f.fd }

section Issue

variable {s t : State} {f : FrontPart}

theorem stopByDecode_eq_putFront (kind : FaultKind) (a : Word) (hde : s.de = none) :
    s.stopByDecode kind a =
      s.putFront ⟨some { kind := kind, addr := a }, s.branchPending, none, none⟩ := by
  rw [State.putFront, slotDests, List.append_nil, ← hde]
  rfl

theorem issue_eq_putFront (k : Mnemonic) (r : FetchDecode) :
    s.issue k r =
      s.putFront ⟨s.fault, if k.isBranch then true else s.branchPending,
        some (microOp (fun i => s.readReg i) k r), s.fd⟩ := by
  cases hd : k.hasDest <;> simp [State.putFront, State.issue, slotDests, microOp, htEnqueue, hd]

theorem tryStep_writeback_putFront (hs : Inv s) (hde : s.de = none) (hf : Inv (s.putFront f)) :
    (s.putFront f).tryStep .writeback = (s.tryStep .writeback).putFront f := by
  have hyoung : (s.putFront f).youngDests = s.youngDests ++
      slotDests DecodeExecute.destinationLockAdded (fun m => fieldRd m.instructionWord) f.de := by
    rw [State.youngDests, State.youngDests, hde, slotDests.eq_def _ _ none, List.append_nil]
    rfl
  have hx : (s.putFront f).writtenBack = s.writtenBack := writtenBack_congr rfl rfl
  rw [tryStep_writeback_eq hf, tryStep_writeback_eq hs, hyoung, hx]
  rfl

/-- MEMORY with MW empty, when it does not stop the core, leaves everything but EM, MW, memory and the
latches alone. -/
theorem tryStep_memory_eq (hmw : s.mw = none) (hf : (s.tryStep .memory).fault = none) :
    s.tryStep .memory = { s with
      mauAddr := (s.tryStep .memory).mauAddr
      mauData := (s.tryStep .memory).mauData
      mem := (s.tryStep .memory).mem
      mw := (s.tryStep .memory).mw
      em := none } := by
  obtain ⟨e, -, -, h⟩ | ⟨e, -, -, h⟩ | ⟨hem, h⟩ := tryStep_memory_cases hmw
  · rw [h] at hf
    cases hf
  · rw [h, access_eq]
  · rw [h, ← hem]

theorem tryStep_memory_putFront (hmw : s.mw = none) (hf : (s.tryStep .memory).fault = none) :
    (s.putFront f).tryStep .memory = (s.tryStep .memory).putFront f := by
  obtain ⟨e, -, -, h⟩ | ⟨e, hem, hstops, h⟩ | ⟨hem, h⟩ := tryStep_memory_cases hmw
  · rw [h] at hf
    cases hf
  · have hfront : (s.putFront f).tryStep .memory = _ :=
      tryStep_of_some (memoryStep_of_not_stops (s := s.putFront f) hem hmw hstops)
    rw [hfront, h]
    unfold State.access
    split <;> rfl
  · rw [h, tryStep_memory_of_empty (s := s.putFront f) hem]

/-- What the completion of MW and EM leaves alone, when it does not stop the core. -/
theorem completeOld_frame (hs : Inv s) (hf : s.completeOld.fault = none) :
    ((s.tryStep .writeback).tryStep .memory).fault = none ∧
    s.completeOld.params = s.params ∧ s.completeOld.fault = s.fault ∧
    s.completeOld.branchPending = s.branchPending ∧ s.completeOld.fd = s.fd ∧
    s.completeOld.din = s.din ∧ s.completeOld.pc = s.pc := by
  have h2 := inv_tryStep (inv_tryStep hs .writeback) .memory
  rw [State.completeOld, tryStep_writeback_eq h2] at hf ⊢
  have hmem := tryStep_memory_eq (mw_tryStep_writeback hs) hf
  refine ⟨hf, ?_⟩
  rw [hmem, tryStep_writeback_eq hs]
  exact ⟨rfl, rfl, rfl, rfl, rfl, rfl⟩

theorem completeOld_putFront (hs : Inv s) (hde : s.de = none) (hf : s.completeOld.fault = none)
    (hfront : Inv (s.putFront f)) : (s.putFront f).completeOld = s.completeOld.putFront f := by
  have hs1 := inv_tryStep hs .writeback
  have hmw1 := mw_tryStep_writeback hs
  have hfault := (completeOld_frame hs hf).1
  have hde1 : (s.tryStep .writeback).de = none := by rw [tryStep_writeback_eq hs]; exact hde
  have hf1 := inv_tryStep hfront .writeback
  rw [tryStep_writeback_putFront hs hde hfront] at hf1
  have hf2 := inv_tryStep hf1 .memory
  rw [tryStep_memory_putFront hmw1 hfault] at hf2
  rw [State.completeOld, tryStep_writeback_putFront hs hde hfront,
    tryStep_memory_putFront hmw1 hfault,
    tryStep_writeback_putFront (inv_tryStep hs1 _) (tryStep_memory_de hmw1 hde1) hf2]
  rfl

/-- A register that is not in the tracker has its value already (R113). -/
theorem readReg_tryStep_writeback (hs : Inv s) {q : RegIx} (hq : q ∉ s.ht) :
    (s.tryStep .writeback).readReg q = s.readReg q ∧ q ∉ (s.tryStep .writeback).ht := by
  have hht := hs.tracker
  rw [lockedDests_eq_append_youngDests] at hht
  rw [hht, List.mem_append, not_or] at hq
  rw [tryStep_writeback_eq hs]
  refine ⟨?_, hq.2⟩
  cases hmw : s.mw with
  | none => exact readReg_congr (by simp [State.writtenBack, hmw]) q
  | some w =>
    have hx : s.writtenBack = (s.commit w).x := by simp [State.writtenBack, hmw]
    rw [readReg_congr (t := s.commit w) hx, readReg_commit, if_neg]
    rintro ⟨hl, rfl, -⟩
    exact hq.1 ((mem_slotDests_iff ..).2 ⟨w, hmw, hl, rfl⟩)

theorem readReg_completeOld (hs : Inv s) (hf : s.completeOld.fault = none) {q : RegIx}
    (hq : q ∉ s.ht) : s.completeOld.readReg q = s.readReg q := by
  obtain ⟨hread1, hq1⟩ := readReg_tryStep_writeback hs hq
  have hs2 := inv_tryStep (inv_tryStep hs .writeback) .memory
  have hmem := tryStep_memory_eq (mw_tryStep_writeback hs) (completeOld_frame hs hf).1
  have hread2 : ((s.tryStep .writeback).tryStep .memory).readReg q = s.readReg q := by
    rw [hmem, ← hread1]
    rfl
  have hq2 : q ∉ ((s.tryStep .writeback).tryStep .memory).ht := by rw [hmem]; exact hq1
  exact (readReg_tryStep_writeback hs2 hq2).1.trans hread2

/-- The operands of a micro-op depend on the registers that are its sources. -/
theorem microOp_congr {rf rg : RegIx → XVal} {k : Mnemonic} {r : FetchDecode}
    (h : ∀ q ∈ sourceFields k r.instructionWord, rf q = rg q) : microOp rf k r = microOp rg k r := by
  have hvalues : operandValues rf k r.instructionWord = operandValues rg k r.instructionWord := by
    cases k <;> simp_all [operandValues, sourceFields]
  rw [microOp, microOp, hvalues]

/-- R113: an instruction that does not wait reads what it would read after the older ones. -/
theorem microOp_completeOld (hs : Inv s) (hf : s.completeOld.fault = none) {k : Mnemonic}
    {r : FetchDecode} (hfree : ∀ q ∈ sources k r.instructionWord, htContains q s.ht = false) :
    microOp (fun i => s.completeOld.readReg i) k r = microOp (fun i => s.readReg i) k r := by
  refine microOp_congr fun q hq => ?_
  by_cases hx : q = xzr
  · simp [hx]
  · have hnot := hfree q ((mem_sources_iff ..).2 ⟨hq, hx⟩)
    rw [← Bool.not_eq_true, htContains_iff] at hnot
    exact readReg_completeOld hs hf hnot

theorem completeOld_issue (hs : Inv s) {r : FetchDecode} {k : Mnemonic} (hde : s.de = none)
    (hf : s.completeOld.fault = none) (hissue : Inv (s.issue k r))
    (hfree : ∀ q ∈ sources k r.instructionWord, htContains q s.ht = false) :
    (s.issue k r).completeOld = s.completeOld.issue k r := by
  obtain ⟨-, -, hfault, hfence, hfd, -, -⟩ := completeOld_frame hs hf
  rw [issue_eq_putFront] at hissue ⊢
  rw [completeOld_putFront hs hde hf hissue, issue_eq_putFront, hfault, hfence, hfd,
    microOp_completeOld hs hf hfree]

theorem completeOld_stopByDecode (hs : Inv s) (kind : FaultKind) (a : Word) (hde : s.de = none)
    (hf : s.completeOld.fault = none) (hstop : Inv (s.stopByDecode kind a)) :
    (s.stopByDecode kind a).completeOld = s.completeOld.stopByDecode kind a := by
  obtain ⟨-, -, -, hfence, -, -, -⟩ := completeOld_frame hs hf
  rw [stopByDecode_eq_putFront _ _ hde] at hstop ⊢
  rw [completeOld_putFront hs hde hf hstop, stopByDecode_eq_putFront _ _ (completeOld_de hs hde),
    hfence]

/-! ### The instruction that is issued is the next of the sequential run -/

/-- The register in DIN decodes like the one that the sequential level fetches at its address. -/
theorem decodeFault_congr {r q : FetchDecode} (hfault : q.fetchFault = r.fetchFault)
    (hword : r.fetchFault = false → q.instructionWord = r.instructionWord) :
    decodeFault q = decodeFault r := by
  unfold decodeFault
  rw [hfault]
  cases hr : r.fetchFault with
  | true => rfl
  | false => rw [hword hr]

/-- The sequential state at an issue: the older instructions have completed, and the program counter is
the address of the register in DIN. -/
theorem sequential_of_din (hs : Inv s) {r : FetchDecode} (hdin : s.din = some r)
    (hf : s.sequential.fault = none) :
    s.completeOld.fault = none ∧ s.completeOld.din = some r ∧
    s.sequential = { s.completeOld with
      pc := instrAddrOf r.nextPC, fd := none, din := none, recentStores := [] } := by
  obtain ⟨-, hde⟩ := front_of_din hs hdin
  have hc := completeIssued_of_de_none hs hde
  have hfault : s.completeOld.fault = none := hc ▸ hf
  have hcdin : s.completeOld.din = some r := by
    obtain ⟨-, -, -, -, -, h, -⟩ := completeOld_frame hs hfault
    exact h.trans hdin
  refine ⟨hfault, hcdin, ?_⟩
  rw [State.sequential, hc, State.nextToIssue, hcdin]

theorem slotsEmpty_sequential (hs : Inv s) : s.sequential.slotsEmpty = true := by
  obtain ⟨hde, hem, hmw⟩ := completeIssued_empty hs
  exact (slotsEmpty_iff _).2 ⟨rfl, rfl, hde, hem, hmw⟩

theorem fetchDecode_eq {r q : FetchDecode} (hword : q.instructionWord = r.instructionWord)
    (hnext : q.nextPC = r.nextPC) (hfault : q.fetchFault = r.fetchFault) : q = r := by
  cases q
  cases r
  simp_all only

/-- The sequential level fetches a register with the same fault; with the same word, if the issue is
coherent. -/
theorem fetchRegister_sequential (hs : Inv s) {r : FetchDecode} (hdin : s.din = some r)
    (hf : s.sequential.fault = none) (hcoh : s.IssueCoherent) :
    decodeFault s.sequential.fetchRegister = decodeFault r ∧
    (decodeFault r = none → s.sequential.fetchRegister = r) := by
  obtain ⟨hfault, -, hseq⟩ := sequential_of_din hs hdin hf
  obtain ⟨-, hp, -⟩ := completeOld_frame hs hfault
  have hpc : s.sequential.pc = instrAddrOf r.nextPC := by rw [hseq]
  have hparams : s.sequential.params = s.params := by rw [hseq]; exact hp
  have hok : r.fetchFault = !inRange s.params (instrAddrOf r.nextPC).toNat := hs.dinOk r hdin
  have hfetch : s.sequential.fetchRegister.fetchFault = r.fetchFault := by
    rw [hok, ← hpc, ← hparams]
    rfl
  have hword (hr : r.fetchFault = false) :
      s.sequential.fetchRegister.instructionWord = r.instructionWord := by
    rw [fetchRegister_word_of_settled (settledAt_of_recent_nil rfl _), hpc, hcoh r hdin hr]
    rw [hparams, hpc]
    simpa [hr] using hok.symm
  refine ⟨decodeFault_congr hfetch hword, fun hnone => ?_⟩
  obtain ⟨hr, -⟩ := (decodeFault_eq_none_iff r).1 hnone
  have hnext : s.sequential.fetchRegister.nextPC = r.nextPC := by
    simp [State.fetchRegister, hpc, instrAddrOf]
  exact fetchDecode_eq (hword hr) hnext hfetch

/-- DEC_ISSUE of a faulting register records the fault in the sequential state. -/
theorem sequential_stopByDecode (hs : Inv s) {r : FetchDecode} (kind : FaultKind)
    (hdin : s.din = some r) (hf : s.sequential.fault = none)
    (ht : Inv (s.stopByDecode kind (instrAddrOf r.nextPC))) :
    ArchEq { s.sequential with fault := some { kind := kind, addr := s.sequential.pc } }
      (s.stopByDecode kind (instrAddrOf r.nextPC)).sequential := by
  obtain ⟨-, hde⟩ := front_of_din hs hdin
  obtain ⟨hfault, -, hseq⟩ := sequential_of_din hs hdin hf
  have hdone := completeOld_stopByDecode hs kind (instrAddrOf r.nextPC) hde hfault ht
  rw [hseq, State.sequential, completeIssued_of_de_none ht hde, hdone]
  exact ⟨rfl, rfl, rfl, rfl, nofun⟩

/-- DEC_ISSUE of any other register finishes it in the sequential state. -/
theorem sequential_issue (hs : Inv s) {r : FetchDecode} {k : Mnemonic} (hdin : s.din = some r)
    (hk : classify r.instructionWord = some k) (hf : s.sequential.fault = none)
    (ht : Inv (s.issue k r))
    (hfree : ∀ q ∈ sources k r.instructionWord, htContains q s.ht = false) :
    ArchEq (s.sequential.finish (s.sequential.executedAt k r)) (s.issue k r).sequential := by
  obtain ⟨-, hde⟩ := front_of_din hs hdin
  obtain ⟨hfault, hcdin, hseq⟩ := sequential_of_din hs hdin hf
  have hc := inv_completeOld hs
  obtain ⟨hem, hmw⟩ := completeOld_empty hs
  have hcde := completeOld_de hs hde
  have hht : s.completeOld.ht = [] := by
    rw [hc.tracker]
    simp [State.lockedDests, hcde, hem, hmw]
  have hfence : s.completeOld.branchPending = false := by
    rw [hc.fence]
    simp [State.branchInDE, hcde]
  obtain ⟨u, hu, hlast, -⟩ := executeStep_issue hem hmw hht hfence (hc.dinNext r hcdin) hk
  obtain ⟨v, hv, -, hrun⟩ := hlast.finishes
  have hdone : (s.issue k r).completeIssued = v := by
    have hexecute : (s.completeOld.issue k r).tryStep .execute = u := tryStep_of_some hu
    rw [completeIssued_eq, completeOld_issue hs hde hfault ht hfree, hexecute]
    obtain ⟨-, hw⟩ | ⟨-, w, hw, hx⟩ := hrun
    · rw [tryStep_of_some (k := .memory) hw, tryStep_writeback_of_empty hv.mw]
    · rw [tryStep_of_some (k := .memory) hw, tryStep_of_some (k := .writeback) hx]
  have harch : ArchEq (s.completeOld.finish (s.completeOld.executedAt k r))
      (s.issue k r).sequential := by
    rw [State.sequential, hdone]
    exact ⟨hv.arch.params, hv.arch.x, hv.arch.mem, hv.arch.fault, hv.arch.pc⟩
  have hsame : ArchEq (s.sequential.finish (s.sequential.executedAt k r))
      (s.completeOld.finish (s.sequential.executedAt k r)) := by
    rw [hseq]
    exact archEq_finish rfl rfl rfl rfl
  have hexecuted : s.sequential.executedAt k r = s.completeOld.executedAt k r := by
    rw [hseq]
    rfl
  exact hsame.trans (hexecuted ▸ harch)

theorem step_sequential_decIssue (hs : Inv s) (h : pipeStep .decIssue s = some t)
    (hf : s.sequential.fault = none) (hcoh : s.IssueCoherent) :
    ∃ u, step s.sequential = .next u ∧ ArchEq u t.sequential := by
  obtain ⟨r, hdin, hcases⟩ := decIssueStep_cases h
  have ht := inv_pipeStep hs h
  obtain ⟨hkind, hregister⟩ := fetchRegister_sequential hs hdin hf hcoh
  obtain ⟨u, hu⟩ := exists_instrStep s.sequential
  refine ⟨u, (step_of_slotsEmpty (slotsEmpty_sequential hs) hf).trans hu, ?_⟩
  obtain ⟨houtcome, -⟩ := instrStep_outcome hu
  obtain ⟨kind, hfault, rfl⟩ | ⟨k, hnone, hk, hfree, rfl⟩ := hcases
  · cases houtcome with
    | finish j hnone => cases hnone.symm.trans (hkind.trans hfault)
    | stop kind' hfault' hstate =>
      obtain rfl := Option.some.inj (hfault'.symm.trans (hkind.trans hfault))
      have hstop : ArchEq u { s.sequential with
          fault := some { kind := kind', addr := s.sequential.pc } } :=
        ⟨by simp [← hstate.params], by simp [← hstate.x], by simp [← hstate.mem],
          by rw [← hstate.fault], fun h => nomatch hstate.fault.trans h⟩
      exact hstop.trans (sequential_stopByDecode hs kind' hdin hf ht)
  · rw [hnone] at hkind
    cases houtcome with
    | stop kind hfault => cases hfault.symm.trans hkind
    | finish j _ hj _ hstate =>
      have hr := hregister hnone
      rw [hr] at hj hstate
      obtain rfl : k = j := Option.some.inj (hk.symm.trans hj)
      have hsame : ArchEq (s.sequential.fetched.finish (s.sequential.executedAt k r))
          (s.sequential.finish (s.sequential.executedAt k r)) :=
        archEq_finish (by simp) (by simp) (by simp) (by simp)
      exact hstate.toArchEq.symm.trans (hsame.trans (sequential_issue hs hdin hk hf ht hfree))

end Issue

theorem ArchEq.refl (s : State) : ArchEq s s := ⟨rfl, rfl, rfl, rfl, fun _ => rfl⟩

/-- A step other than DEC_ISSUE leaves the sequential state alone. -/
theorem archEq_sequential_of_ne_decIssue {k : PipeStep} {s t : State} (hs : Inv s)
    (h : pipeStep k s = some t) (hk : k ≠ .decIssue) : ArchEq s.sequential t.sequential := by
  have ht := inv_pipeStep hs h
  cases k with
  | decIssue => exact absurd rfl hk
  | fetch => exact (sameBack_fetch h).archEq_sequential hs ht
  | decAccept => exact (sameBack_decAccept h).archEq_sequential hs ht
  | execute => rw [sequential_congr (completeIssued_execute hs h)]; exact .refl _
  | memory => rw [sequential_congr (completeIssued_memory hs h)]; exact .refl _
  | writeback => rw [sequential_congr (completeIssued_writeback hs h)]; exact .refl _

/-- Settles O57: DEC_ISSUE is the next instruction of the sequential run or, behind an instruction that is
going to stop the core, nothing; so is every other step. -/
theorem pipelineRefinesTheSequentialSemantics :
    Obligations.PipelineRefinesTheSequentialSemantics := by
  refine fun k s t hs h => ⟨archEq_sequential_of_ne_decIssue hs h, ?_, ?_⟩
  · rintro rfl hstop
    exact archEq_sequential_decIssue_of_stop hs h hstop
  · rintro rfl hf hcoh
    exact step_sequential_decIssue hs h hf hcoh

end Sys2Proof.Machine
end

section
/-! PROOFS. The sequential run of a program (70_reset_and_hazards.md R156, R159) as a function of the
architectural state, and the end of a coherent pipeline run (R145). -/

namespace Sys2Proof.Machine

open Sys2Proof

/-! ### One instruction of the sequential run -/

section Next

variable {s t v : State}

/-- The state after the next instruction of the sequential run; the state itself when there is none. -/
def State.seqNext (v : State) : State :=
  match step v.inOrder with
  | .next t => t
  | _ => v

theorem step_inOrder (hslots : v.slotsEmpty = true) (hfault : v.fault = none) :
    step v.inOrder = .next v.seqNext := by
  obtain ⟨t, ht⟩ := exists_instrStep v.inOrder
  have hstep : step v.inOrder = .next t :=
    (step_of_slotsEmpty (s := v.inOrder) hslots hfault).trans ht
  rw [State.seqNext, hstep]

theorem instrStep_inOrder (hslots : v.slotsEmpty = true) (hfault : v.fault = none) :
    v.inOrder.instrStep = .next v.seqNext :=
  (step_of_slotsEmpty (s := v.inOrder) hslots hfault).symm.trans (step_inOrder hslots hfault)

/-- The sequential run ends when the core stops (R144). -/
theorem seqNext_of_fault (hslots : v.slotsEmpty = true) (hfault : v.fault ≠ none) :
    v.seqNext = v := by
  obtain ⟨f, hf⟩ := Option.ne_none_iff_exists'.1 hfault
  have hstep := (haltedCoreTakesNoStep v.inOrder f hslots hf).1
  rw [State.seqNext, hstep]

theorem slotsEmpty_of_samePipeline (h : SamePipeline t s) (hs : s.slotsEmpty = true) :
    t.slotsEmpty = true := by
  simpa [State.slotsEmpty, h.fd, h.din, h.de, h.em, h.mw] using hs

theorem slotsEmpty_seqNext (hslots : v.slotsEmpty = true) : v.seqNext.slotsEmpty = true := by
  by_cases hfault : v.fault = none
  · exact slotsEmpty_of_samePipeline (s := v.inOrder)
      (instrStep_outcome (instrStep_inOrder hslots hfault)).2 hslots
  · rwa [seqNext_of_fault hslots hfault]

theorem seqNext_params (v : State) : v.seqNext.params = v.params := by
  unfold State.seqNext
  split
  · next t ht => exact step_params (s := v.inOrder) ht
  · rfl

/-- What an in-order fetch hands to Decode. -/
theorem fetchRegister_inOrder (v : State) :
    v.inOrder.fetchRegister =
      { instructionWord := if inRange v.params v.pc.toNat then Memory.read v.mem v.pc.toNat else 0
        nextPC := v.pc + 1
        fetchFault := !inRange v.params v.pc.toNat } := by
  have hword : v.inOrder.fetchedWord = Memory.read v.mem v.pc.toNat :=
    fetchedWord_of_settled (settledAt_of_recent_nil rfl _)
  rw [State.fetchRegister, hword]
  rfl

theorem fetchRegister_inOrder_congr (h : ArchEq s t) (hfault : s.fault = none) :
    s.inOrder.fetchRegister = t.inOrder.fetchRegister := by
  rw [fetchRegister_inOrder, fetchRegister_inOrder, h.params, h.mem, h.pc hfault]

theorem executedAt_congr (hp : s.params = t.params) (hx : s.x = t.x) (k : Mnemonic)
    (r : FetchDecode) : s.executedAt k r = t.executedAt k r := by
  have hread : (fun i => s.readReg i) = fun i => t.readReg i := funext (readReg_congr hx)
  rw [State.executedAt, State.executedAt, hp, hread]

/-- The next instruction of the sequential run depends on the architectural state alone. -/
theorem archEq_seqNext (h : ArchEq s t) (hs : s.slotsEmpty = true) (ht : t.slotsEmpty = true) :
    ArchEq s.seqNext t.seqNext := by
  by_cases hfault : s.fault = none
  · have hfaultt : t.fault = none := h.fault.symm.trans hfault
    have hpc := h.pc hfault
    have hregister := fetchRegister_inOrder_congr h hfault
    obtain ⟨houts, -⟩ := instrStep_outcome (instrStep_inOrder hs hfault)
    obtain ⟨houtt, -⟩ := instrStep_outcome (instrStep_inOrder ht hfaultt)
    cases houts with
    | stop kind hkind hstate =>
      cases houtt with
      | finish k hnone => cases (hregister ▸ hkind).symm.trans hnone
      | stop kind' hkind' hstate' =>
        obtain rfl := Option.some.inj ((hregister ▸ hkind).symm.trans hkind')
        have hstop : ArchEq
            { s.inOrder.fetched with fault := some { kind := kind, addr := s.inOrder.pc } }
            { t.inOrder.fetched with fault := some { kind := kind, addr := t.inOrder.pc } } :=
          ⟨by simpa [State.inOrder] using h.params, by simpa [State.inOrder] using h.x,
            by simpa [State.inOrder] using h.mem, by simp [State.inOrder, hpc], nofun⟩
        exact hstate.toArchEq.symm.trans (hstop.trans hstate'.toArchEq)
    | finish k hnone hk _ hstate =>
      cases houtt with
      | stop kind hkind => cases (hregister ▸ hnone).symm.trans hkind
      | finish j _ hj _ hstate' =>
        obtain rfl := Option.some.inj ((hregister ▸ hk).symm.trans hj)
        rw [← hregister,
          ← executedAt_congr (s := s.inOrder) (t := t.inOrder) h.params h.x] at hstate'
        have hfinish := archEq_finish (s := s.inOrder.fetched) (t := t.inOrder.fetched)
          (e := s.inOrder.executedAt k s.inOrder.fetchRegister)
          (by simpa [State.inOrder] using h.params) (by simpa [State.inOrder] using h.x)
          (by simpa [State.inOrder] using h.mem) (by simpa [State.inOrder] using h.fault)
        exact hstate.toArchEq.symm.trans (hfinish.trans hstate'.toArchEq)
  · have hfaultt : t.fault ≠ none := h.fault ▸ hfault
    rwa [seqNext_of_fault hs hfault, seqNext_of_fault ht hfaultt]

end Next

/-! ### The states of a sequential run -/

/-- `v` is a good state of the sequential run from `s0`, with nothing in flight. -/
structure Reached (s0 v : State) : Prop where
  inv : Inv v
  slots : v.slotsEmpty = true
  run : ∃ n, RunsTo n s0 v

theorem reached_refl {s : State} (hs : Inv s) (hslots : s.slotsEmpty = true) : Reached s s :=
  ⟨hs, hslots, 0, rfl⟩

theorem runsTo_seqNext {n : Nat} {s v : State} (h : RunsTo n s v) (hslots : v.slotsEmpty = true)
    (hfault : v.fault = none) : RunsTo (n + 1) s v.seqNext :=
  (runsTo_add n 1 s _).2 ⟨v, h, v.seqNext, step_inOrder hslots hfault, rfl⟩

/-- What the sequential level fetches does not matter for the invariant. -/
theorem inv_inOrder {s : State} (hs : Inv s) : Inv s.inOrder := { hs with recent := Nat.zero_le 2 }

theorem Reached.seqNext {s0 v : State} (h : Reached s0 v) : Reached s0 v.seqNext := by
  obtain ⟨hinv, hslots, n, hn⟩ := h
  by_cases hfault : v.fault = none
  · have hnext := inv_instrStep (inv_inOrder hinv) hslots (instrStep_inOrder hslots hfault)
    exact ⟨hnext, slotsEmpty_seqNext hslots, n + 1, runsTo_seqNext hn hslots hfault⟩
  · rw [seqNext_of_fault hslots hfault]
    exact ⟨hinv, hslots, n, hn⟩

/-- With nothing in flight a state is its own sequential state. -/
theorem archEq_sequential_of_slotsEmpty {s : State} (hs : Inv s) (hslots : s.slotsEmpty = true) :
    ArchEq s s.sequential := by
  obtain ⟨hfd, hdin, hde, hem, hmw⟩ := (slotsEmpty_iff s).1 hslots
  have hdone : s.completeIssued = s := by
    rw [completeIssued_of_de_none hs hde, State.completeOld, tryStep_writeback_of_empty hmw,
      tryStep_memory_of_empty hem, tryStep_writeback_of_empty hmw]
  rw [State.sequential, hdone]
  exact ⟨rfl, rfl, rfl, rfl, fun _ => by simp [State.nextToIssue, State.behindDecode, hdin, hfd]⟩

/-! ### The sequential run that a coherent pipeline run follows -/

/-- DEC_ISSUE of a coherent register goes to the next state of the sequential run, and to the same one
when that run has ended. -/
theorem archEq_seqNext_decIssue {s t u : State} (hs : Inv s) (hu : u.slotsEmpty = true)
    (h : ArchEq u s.sequential) (hstep : pipeStep .decIssue s = some t)
    (hcoh : s.sequential.fault = none → s.IssueCoherent) : ArchEq u.seqNext t.sequential := by
  have hseqs := slotsEmpty_sequential hs
  have hnext : ArchEq u.seqNext s.sequential.seqNext := archEq_seqNext h hu hseqs
  by_cases hf : s.sequential.fault = none
  · obtain ⟨w, hw, hwt⟩ := step_sequential_decIssue hs hstep hf (hcoh hf)
    obtain rfl := Host.Outcome.next.inj ((step_inOrder hseqs hf).symm.trans hw)
    exact hnext.trans hwt
  · rw [seqNext_of_fault hseqs hf] at hnext
    exact hnext.trans (archEq_sequential_decIssue_of_stop hs hstep hf)

/-- Along a coherent pipeline run the sequential state is one of the sequential run. -/
theorem reached_of_coherentRun {s0 : State} {ks : List PipeStep} {s t u : State} (hs : Inv s)
    (hu : Reached s0 u) (hus : ArchEq u s.sequential) (hrun : pipeRun ks s = some t)
    (hcoh : CoherentRun ks s) : ∃ w, Reached s0 w ∧ ArchEq w t.sequential := by
  induction ks generalizing s u with
  | nil =>
    obtain rfl := Option.some.inj hrun
    exact ⟨u, hu, hus⟩
  | cons k ks ih =>
    rw [pipeRun_cons, Option.bind_eq_some_iff] at hrun
    obtain ⟨a, ha, hrest⟩ := hrun
    obtain ⟨hissue, hcoh⟩ := hcoh
    rw [ha] at hcoh
    have hinv := inv_pipeStep hs ha
    by_cases hk : k = .decIssue
    · subst hk
      exact ih hinv hu.seqNext (archEq_seqNext_decIssue hs hu.slots hus ha (hissue rfl)) hrest hcoh
    · exact ih hinv hu (hus.trans (archEq_sequential_of_ne_decIssue hs ha hk)) hrest hcoh

/-- R145: a coherent run that ends halted ends as the sequential run does. -/
theorem halted_agrees {s t : State} {ks : List PipeStep} (hs : Inv s)
    (hslots : s.slotsEmpty = true) (hrun : pipeRun ks s = some t) (hcoh : CoherentRun ks s)
    (hh : t.halted = true) : ∃ n u, RunsTo n s u ∧ ArchEq u t ∧ u.halted = true := by
  have ht : Inv t := pipeRun_induction (fun _ _ _ h hi => inv_pipeStep hi h) hrun hs
  obtain ⟨u, ⟨-, hu, n, hn⟩, hut⟩ := reached_of_coherentRun hs (reached_refl hs hslots)
    (archEq_sequential_of_slotsEmpty hs hslots) hrun hcoh
  obtain ⟨⟨f, hf⟩, htslots⟩ := (halted_iff t).1 hh
  have harch := hut.trans (archEq_sequential_of_slotsEmpty ht htslots).symm
  exact ⟨n, u, hn, harch, (halted_iff u).2 ⟨⟨f, harch.fault.trans hf⟩, hu⟩⟩

end Sys2Proof.Machine
end

section
/-! PROOFS. What a register in flight says of the instruction of the sequential run that it stands for:
its retirement, its store and its effect (70_reset_and_hazards.md R159), and that no store reaches the
word of one of the next two instructions (R164). -/

namespace Sys2Proof.Machine

open Sys2Proof

/-! ### The instruction of the sequential run -/

section Instr

variable {v : State}

theorem nextCompletes_eq (hslots : v.slotsEmpty = true) (hfault : v.fault = none) :
    v.nextCompletes = if v.seqNext.fault.isNone then some v.seqNext else none := by
  rw [State.nextCompletes, step_inOrder hslots hfault]

/-- What the sequential level decodes is what Decode finds. -/
theorem nextInstr_of_classify {k : Mnemonic} (hfault : v.fault = none)
    (hnone : decodeFault v.inOrder.fetchRegister = none)
    (hk : classify v.inOrder.fetchRegister.instructionWord = some k) :
    v.nextInstr = some (instrOf k v.inOrder.fetchRegister.instructionWord) := by
  obtain ⟨hr, -⟩ := (decodeFault_eq_none_iff _).1 hnone
  rw [fetchRegister_inOrder] at hr hk ⊢
  have hin : inRange v.params v.pc.toNat = true := by simpa using hr
  rw [if_pos hin] at hk ⊢
  simp [State.nextInstr, hfault, hin, decode_of_classify hk]

/-- An instruction that completes has decoded, and its meaning led to the next state. -/
theorem nextInstr_of_completes (hslots : v.slotsEmpty = true) (hfault : v.fault = none)
    (hnext : v.seqNext.fault = none) :
    ∃ i, v.nextInstr = some i ∧ exec i v.inOrder.fetched = .next v.seqNext := by
  obtain ⟨houtcome, -⟩ := instrStep_outcome (instrStep_inOrder hslots hfault)
  cases houtcome with
  | stop kind _ hstate => cases hstate.fault.trans hnext
  | finish k hnone hk hexec _ => exact ⟨_, nextInstr_of_classify hfault hnone hk, hexec⟩

theorem storeAddress_congr {s t : State} (hp : s.params = t.params) (hx : s.x = t.x) (i : Instr) :
    storeAddress s i = storeAddress t i := by
  cases i with
  | stur | sturb | sturh | sturw => simp only [storeAddress, hp, readReg_congr hx]
  | _ => rfl

/-- Memory after an instruction that completes differs at the word that it stores to, at most. -/
theorem read_seqNext (hv : Inv v) (hslots : v.slotsEmpty = true) (hnext : v.seqNext.fault = none)
    (a : Word) (ha : ∀ ea, v.nextStore = some ea → ea.toNat ≠ a.toNat) :
    Memory.read v.seqNext.mem a.toNat = Memory.read v.mem a.toNat := by
  by_cases hfault : v.fault = none
  · obtain ⟨i, hi, hexec⟩ := nextInstr_of_completes hslots hfault hnext
    have hparams : v.inOrder.fetched.params = v.params := fetched_params _
    have hx : v.inOrder.fetched.x = v.x := fetched_x _
    have hmem : v.inOrder.fetched.mem = v.mem := fetched_mem _
    have haddr (ea : XVal) (h : storeAddress v.inOrder.fetched i = some ea) :
        ea.toNat ≠ a.toNat := by
      refine ha ea ?_
      rw [State.nextStore, hi, Option.bind_some, ← h, storeAddress_congr hparams hx]
    rw [(exec_retiredBeside (hparams ▸ hv.params) hexec hnext haddr).read, hmem]
  · rw [seqNext_of_fault hslots hfault]

end Instr

/-! ### The register that stands for an instruction -/

/-- `e` is the register that Execute makes of the instruction that the sequential run runs at `v`. -/
structure StandsFor (v : State) (e : ExecuteMemory) : Prop where
  addr : e.instrAddr = v.pc
  instr : ∃ i, v.nextInstr = some i ∧
    i.dest = (if e.destinationLockAdded then some e.destinationRegister else none) ∧
    storeAddress v i = if e.isStore then some e.aluOrAddressResult else none
  finish : ArchEq (v.finish e) v.seqNext

/-- The address in EM of a store is the one that the instruction stores to. -/
theorem storeAddress_instrOf (v : State) (k : Mnemonic) (r : FetchDecode) :
    storeAddress v (instrOf k r.instructionWord) =
      if (v.executedAt k r).isStore then some (v.executedAt k r).aluOrAddressResult else none := by
  have hoff9 := sextX_signExtend v.params (by decide) (fieldOff9 r.instructionWord)
  cases k with
  | stur | sturb | sturh | sturw =>
    refine congrArg some ?_
    rw [effectiveAddress, ← hoff9]
    rfl
  | _ => rfl

/-- What Execute makes of an instruction that Decode issues stands for it. -/
theorem standsFor_executedAt {v : State} {k : Mnemonic} (hslots : v.slotsEmpty = true)
    (hfault : v.fault = none) (hnone : decodeFault v.inOrder.fetchRegister = none)
    (hk : classify v.inOrder.fetchRegister.instructionWord = some k) :
    StandsFor v (v.executedAt k v.inOrder.fetchRegister) := by
  obtain ⟨houtcome, -⟩ := instrStep_outcome (instrStep_inOrder hslots hfault)
  cases houtcome with
  | stop kind hkind => cases hnone.symm.trans hkind
  | finish j _ hj _ hstate =>
    obtain rfl : k = j := Option.some.inj (hk.symm.trans hj)
    have hsame : ArchEq (v.finish (v.executedAt k v.inOrder.fetchRegister))
        (v.inOrder.fetched.finish (v.executedAt k v.inOrder.fetchRegister)) :=
      archEq_finish (fetched_params v.inOrder).symm (fetched_x v.inOrder).symm
        (fetched_mem v.inOrder).symm (fetched_fault v.inOrder).symm
    exact {
      addr := instrAddrOf_add_one v.pc
      instr := ⟨_, nextInstr_of_classify hfault hnone hk, dest_instrOf k _,
        storeAddress_instrOf v k _⟩
      finish := hsame.trans hstate.toArchEq }

/-- What WRITEBACK retires with `w` in MW. -/
def MemoryWriteback.retired (w : MemoryWriteback) : Retired where
  addr := w.instrAddr
  write := if w.destinationLockAdded then some (w.destinationRegister, w.aluOrAddressResult) else none

/-- What MEMORY writes with `e` in EM, when it does not stop the core. -/
def ExecuteMemory.stored (e : ExecuteMemory) : Option WordCell :=
  if e.isStore then some (e.aluOrAddressResult.toNat, truncWord e.storeData) else none

/-- MEMORY changes the result alone. -/
theorem passedOn_fields (e : ExecuteMemory) (m : Memory) :
    (e.passedOn m).destinationRegister = e.destinationRegister ∧
    (e.passedOn m).destinationLockAdded = e.destinationLockAdded ∧
    (e.passedOn m).instrAddr = e.instrAddr := by
  unfold ExecuteMemory.passedOn
  split <;> exact ⟨rfl, rfl, rfl⟩

section StandsFor

variable {v : State} {e : ExecuteMemory}

theorem StandsFor.fault_of_stops (h : StandsFor v e) (hstops : e.stops v.params = true) :
    v.seqNext.fault ≠ none := by
  rw [← h.finish.fault, finish_of_stops hstops]
  exact nofun

/-- When the core does not stop at the instruction, its effect is a memory access and a register
write. -/
theorem StandsFor.of_not_stops (h : StandsFor v e) (hstops : e.stops v.params = false) :
    v.seqNext.fault = v.fault ∧ v.seqNext.x = (v.commit (e.passedOn v.mem)).x ∧
    v.seqNext.mem = (v.access e).mem := by
  have hfinish := h.finish
  rw [finish_of_not_stops hstops] at hfinish
  exact ⟨hfinish.fault.symm, hfinish.x.symm, hfinish.mem.symm⟩

theorem StandsFor.seqRetired (h : StandsFor v e) (hstops : e.stops v.params = false)
    (hslots : v.slotsEmpty = true) (hfault : v.fault = none)
    (hok : ExecutedOk v.params (e.passedOn v.mem)) :
    seqRetired v = some (e.passedOn v.mem).retired := by
  obtain ⟨hnext, hx, -⟩ := h.of_not_stops hstops
  obtain ⟨i, hi, hd, -⟩ := h.instr
  obtain ⟨-, -, hdest⟩ := hok
  obtain ⟨hreg, hlock, haddr⟩ := passedOn_fields e v.mem
  have hcompletes : v.nextCompletes = some v.seqNext := by
    rw [nextCompletes_eq hslots hfault, hnext, hfault]
    rfl
  simp only [Machine.seqRetired, hi, hcompletes, hd, MemoryWriteback.retired, hreg, hlock, haddr,
    h.addr]
  cases hl : e.destinationLockAdded with
  | false => rfl
  | true =>
    have hread : v.seqNext.readReg e.destinationRegister =
        (e.passedOn v.mem).aluOrAddressResult := by
      have hlocked := hlock.trans hl
      rw [readReg_congr hx, readReg_commit, if_pos ⟨hlocked, hreg.symm, hdest hlocked⟩]
    simp [hread]

theorem StandsFor.seqStored (h : StandsFor v e) (hstops : e.stops v.params = false) (hv : Inv v)
    (hslots : v.slotsEmpty = true) (hfault : v.fault = none) : seqStored v = e.stored := by
  obtain ⟨hnext, -, hmem⟩ := h.of_not_stops hstops
  obtain ⟨i, hi, -, hstore⟩ := h.instr
  have hcompletes : v.nextCompletes = some v.seqNext := by
    rw [nextCompletes_eq hslots hfault, hnext, hfault]
    rfl
  simp only [Machine.seqStored, State.nextStore, hi, Option.bind_some, hstore, hcompletes,
    ExecuteMemory.stored]
  cases hs : e.isStore with
  | false => rfl
  | true =>
    obtain ⟨hop, hl⟩ : e.isMemoryOp = true ∧ e.destinationLockAdded = false := by
      simpa [ExecuteMemory.isStore] using hs
    have hr : inRange v.params e.aluOrAddressResult.toNat = true := by
      simpa [ExecuteMemory.stops, hop] using hstops
    have hwrite : v.seqNext.mem =
        Memory.write v.mem e.aluOrAddressResult.toNat (truncWord e.storeData) := by
      rw [hmem, State.access, if_pos hop, ← truncWord_toNat_of_inRange hv.params hr]
      simp [hl]
    simp only [if_true, hwrite, Memory.read_write_of_wf hv.memWf]

end StandsFor

/-! ### Within R164 no store reaches the words of the next two instructions -/

section Distance

variable {s0 u w : State}

theorem read_mem_of_distance (hkept : StoreDistanceKept s0) (hu : Reached s0 u)
    (hnext : u.seqNext.fault = none) {m : Nat} (hm : m = 1 ∨ m = 2) (hw : RunsTo m u w)
    (hfault : w.fault = none) :
    Memory.read u.seqNext.mem w.pc.toNat = Memory.read u.mem w.pc.toNat := by
  obtain ⟨n, hn⟩ := hu.run
  exact read_seqNext hu.inv hu.slots hnext w.pc fun ea hea =>
    (hkept n m u w ea hn hea hm hw hfault).symm

theorem seqNext_fault_none (hslots : u.slotsEmpty = true) (h : u.seqNext.fault = none) :
    u.fault = none := by
  by_contra hf
  exact hf (seqNext_of_fault hslots hf ▸ h)

/-- The next instruction's word is as the instruction before it found it. -/
theorem read_seqNext_next (hkept : StoreDistanceKept s0) (hu : Reached s0 u)
    (hnext : u.seqNext.fault = none) :
    Memory.read u.seqNext.mem u.seqNext.pc.toNat = Memory.read u.mem u.seqNext.pc.toNat :=
  read_mem_of_distance hkept hu hnext (.inl rfl)
    (runsTo_seqNext rfl hu.slots (seqNext_fault_none hu.slots hnext)) hnext

/-- The word of the instruction after the next one is as the instruction before both found it. -/
theorem read_seqNext_next_next (hkept : StoreDistanceKept s0) (hu : Reached s0 u)
    (hnext : u.seqNext.seqNext.fault = none) :
    Memory.read u.seqNext.mem u.seqNext.seqNext.pc.toNat =
      Memory.read u.mem u.seqNext.seqNext.pc.toNat := by
  have hslots := hu.seqNext.slots
  have hone := seqNext_fault_none hslots hnext
  exact read_mem_of_distance hkept hu hone (.inr rfl)
    (runsTo_seqNext (runsTo_seqNext rfl hu.slots (seqNext_fault_none hu.slots hone)) hslots hone)
    hnext

end Distance

end Sys2Proof.Machine
end

section
/-! PROOFS. The simulation between a pipeline run within R164 and the sequential run
(70_reset_and_hazards.md R159, R164): the instructions in MW, EM and DE, the one in DIN and the one in FD
are consecutive ones of the sequential run. -/

namespace Sys2Proof.Machine

open Sys2Proof

/-! ### The sequential run past the slots -/

/-- `v`, or the state after its next instruction if `slot` is full. -/
def State.past {α : Type} (v : State) (slot : Option α) : State :=
  if slot.isSome then v.seqNext else v

@[simp] theorem past_none {α : Type} (v : State) : v.past (none : Option α) = v := rfl
@[simp] theorem past_some {α : Type} (v : State) (a : α) : v.past (some a) = v.seqNext := rfl

theorem Reached.past {α : Type} {s0 v : State} (h : Reached s0 v) (slot : Option α) :
    Reached s0 (v.past slot) := by
  cases slot with
  | none => exact h
  | some _ => exact h.seqNext

/-- The sequential run does not go on from where it has ended. -/
theorem past_of_fault {α : Type} {v : State} (hslots : v.slotsEmpty = true) (hfault : v.fault ≠ none)
    (slot : Option α) : v.past slot = v := by
  cases slot with
  | none => rfl
  | some _ => exact seqNext_of_fault hslots hfault

theorem past_params {α : Type} (v : State) (slot : Option α) : (v.past slot).params = v.params := by
  cases slot with
  | none => rfl
  | some _ => exact seqNext_params v

/-- Before the instruction in EM. -/
def State.beforeEM (s v : State) : State := v.past s.mw

/-- Before the instruction in DE. -/
def State.beforeDE (s v : State) : State := (s.beforeEM v).past s.em

/-- Before the instruction in DIN: the issued instructions have completed. -/
def State.beforeDIN (s v : State) : State := (s.beforeDE v).past s.de

/-- Before the instruction in FD. -/
def State.beforeFD (s v : State) : State := (s.beforeDIN v).past s.din

/-- The word in `r` is the one that the sequential run reads at `v`, if `r` is fetched from there. -/
def FetchedAt (v : State) (r : FetchDecode) : Prop :=
  r.fetchFault = false → v.fault = none → v.pc = instrAddrOf r.nextPC →
    r.instructionWord = Memory.read v.mem v.pc.toNat

/-- The pipeline at `s` has retired the first `n` instructions of the sequential run from `s0`, which
lead to `v`; those in its slots are the next ones. -/
structure Sim (s0 : State) (n : Nat) (v s : State) : Prop where
  inv : Inv s
  reached : Reached s0 v
  run : RunsTo n s0 v
  fault : v.fault = none
  params : s.params = v.params
  x : s.x = v.x
  mem : s.mem = (s.beforeEM v).mem
  mwOk : ∀ w, s.mw = some w →
    ∃ e, StandsFor v e ∧ e.stops v.params = false ∧ w = e.passedOn v.mem
  emOk : ∀ e, s.em = some e → StandsFor (s.beforeEM v) e
  deOk : ∀ m, s.de = some m → (s.beforeDE v).fault = none →
    ∃ k, classify m.instructionWord = some k ∧
      StandsFor (s.beforeDE v) (executed s.params k m)
  dinOk : ∀ r, s.din = some r → FetchedAt (s.beforeDIN v) r
  fdOk : ∀ r, s.fd = some r → FetchedAt (s.beforeFD v) r
  sequential : ArchEq ((s.beforeDIN v).past s.fault) s.sequential

section Sim

variable {s0 v s t : State} {n : Nat}

/-- With nothing in flight the sequential run has done the same. -/
theorem sim_refl (hs : Inv s) (hslots : s.slotsEmpty = true) (hfault : s.fault = none) :
    Sim s 0 s s := by
  obtain ⟨hfd, hdin, hde, hem, hmw⟩ := (slotsEmpty_iff s).1 hslots
  have hchain : s.beforeDIN s = s := by
    simp [State.beforeDIN, State.beforeDE, State.beforeEM, hde, hem, hmw]
  exact {
    inv := hs, reached := reached_refl hs hslots, run := rfl, fault := hfault
    params := rfl, x := rfl
    mem := by simp [State.beforeEM, hmw]
    mwOk := by simp [hmw]
    emOk := by simp [hem]
    deOk := by simp [hde]
    dinOk := by simp [hdin]
    fdOk := by simp [hfd]
    sequential := by simpa [hchain, hfault] using archEq_sequential_of_slotsEmpty hs hslots }

/-! ### The states before the slots -/

theorem Sim.reached_beforeEM (h : Sim s0 n v s) : Reached s0 (s.beforeEM v) := h.reached.past _
theorem Sim.reached_beforeDE (h : Sim s0 n v s) : Reached s0 (s.beforeDE v) :=
  h.reached_beforeEM.past _
theorem Sim.reached_beforeDIN (h : Sim s0 n v s) : Reached s0 (s.beforeDIN v) :=
  h.reached_beforeDE.past _

/-- The instruction in MW has not stopped the core. -/
theorem Sim.fault_beforeEM (h : Sim s0 n v s) : (s.beforeEM v).fault = none := by
  cases hmw : s.mw with
  | none => simpa [State.beforeEM, hmw] using h.fault
  | some w =>
    obtain ⟨e, hfor, hstops, -⟩ := h.mwOk w hmw
    obtain ⟨hfault, -, -⟩ := hfor.of_not_stops hstops
    simpa [State.beforeEM, hmw] using hfault.trans h.fault

/-- The register in DIN carries the word that the sequential semantics reads. -/
theorem Sim.issueCoherent (h : Sim s0 n v s) (hf : s.sequential.fault = none) :
    s.IssueCoherent := by
  intro r hdin hr
  obtain ⟨hfault, -⟩ := front_of_din h.inv hdin
  obtain ⟨-, -, hseq⟩ := sequential_of_din h.inv hdin hf
  have hpc : s.sequential.pc = instrAddrOf r.nextPC := by rw [hseq]
  have harch := h.sequential
  rw [hfault, past_none] at harch
  have hv := harch.fault.trans hf
  have haddr := (harch.pc hv).trans hpc
  rw [h.dinOk r hdin hr hv haddr, harch.mem, haddr]

/-! ### FETCH: within R164 no store in flight reaches the word -/

/-- The word at the address behind DIN is the same in the pipeline's memory and before FD. -/
theorem Sim.read_beforeFD (h : Sim s0 n v s) (hkept : StoreDistanceKept s0)
    (hfault : (s.beforeFD v).fault = none) :
    Memory.read (s.beforeFD v).mem (s.beforeFD v).pc.toNat =
      Memory.read s.mem (s.beforeFD v).pc.toNat := by
  have hem := h.reached_beforeEM
  rw [h.mem]
  have hlast : s.beforeFD v = s.beforeDE v ∨ s.beforeFD v = (s.beforeDE v).seqNext := by
    cases hde : s.de with
    | none =>
      cases hdin : s.din with
      | none => left; simp [State.beforeFD, State.beforeDIN, hde, hdin]
      | some r => right; simp [State.beforeFD, State.beforeDIN, hde, hdin]
    | some m =>
      have hdin : s.din = none := by
        by_contra hne
        cases (h.inv.oneInDecode hne).symm.trans hde
      right
      simp [State.beforeFD, State.beforeDIN, hde, hdin]
  obtain hlast | hlast := hlast
  · rw [hlast] at hfault ⊢
    cases hs : s.em with
    | none => simp [State.beforeDE, hs]
    | some e =>
      simp only [State.beforeDE, hs, past_some] at hfault ⊢
      exact read_seqNext_next hkept hem hfault
  · rw [hlast] at hfault ⊢
    rw [read_seqNext_next hkept h.reached_beforeDE hfault]
    cases hs : s.em with
    | none => simp [State.beforeDE, hs]
    | some e =>
      simp only [State.beforeDE, hs, past_some] at hfault ⊢
      exact read_seqNext_next_next hkept hem hfault

/-- A step that leaves the issued instructions, registers and memory alone, and puts the right words into
DIN and FD. -/
theorem Sim.of_front (h : Sim s0 n v s) (hs : Inv t) (hparams : t.params = s.params)
    (hx : t.x = s.x) (hmem : t.mem = s.mem) (hmw : t.mw = s.mw) (hem : t.em = s.em)
    (hde : t.de = s.de) (hfault : t.fault = s.fault)
    (hdin : ∀ r, t.din = some r → FetchedAt (t.beforeDIN v) r)
    (hfd : ∀ r, t.fd = some r → FetchedAt (t.beforeFD v) r)
    (hseq : ArchEq s.sequential t.sequential) : Sim s0 n v t := by
  have hbeforeEM : t.beforeEM v = s.beforeEM v := by rw [State.beforeEM, hmw, State.beforeEM]
  have hbeforeDE : t.beforeDE v = s.beforeDE v := by
    rw [State.beforeDE, hbeforeEM, hem, State.beforeDE]
  have hbeforeDIN : t.beforeDIN v = s.beforeDIN v := by
    rw [State.beforeDIN, hbeforeDE, hde, State.beforeDIN]
  exact {
    inv := hs, reached := h.reached, run := h.run, fault := h.fault
    params := hparams.trans h.params
    x := hx.trans h.x
    mem := by rw [hmem, h.mem, hbeforeEM]
    mwOk := by rw [hmw]; exact h.mwOk
    emOk := by rw [hem, hbeforeEM]; exact h.emOk
    deOk := by rw [hde, hbeforeDE, hparams]; exact h.deOk
    dinOk := hdin
    fdOk := hfd
    sequential := by rw [hbeforeDIN, hfault]; exact h.sequential.trans hseq }

theorem Sim.fetch (h : Sim s0 n v s) (hkept : StoreDistanceKept s0)
    (hstep : pipeStep .fetch s = some t) : Sim s0 n v t := by
  have ht := inv_pipeStep h.inv hstep
  have hseq := archEq_sequential_of_ne_decIssue h.inv hstep nofun
  obtain ⟨-, -, ⟨-, rfl⟩ | ⟨-, rfl⟩⟩ := fetchStep_cases hstep
  · refine h.of_front ht rfl rfl rfl rfl rfl rfl rfl h.dinOk ?_ hseq
    rintro r ⟨rfl⟩ - hfault hpc
    have haddr : (s.beforeFD v).pc = s.pc := hpc.trans (instrAddrOf_add_one s.pc)
    have hread := h.read_beforeFD hkept hfault
    rw [haddr] at hread
    exact hread.symm.trans (haddr ▸ rfl)
  · refine h.of_front ht rfl rfl rfl rfl rfl rfl rfl h.dinOk ?_ hseq
    rintro r ⟨rfl⟩ hr
    cases hr

theorem Sim.decAccept (h : Sim s0 n v s) (hstep : pipeStep .decAccept s = some t) :
    Sim s0 n v t := by
  have ht := inv_pipeStep h.inv hstep
  have hseq := archEq_sequential_of_ne_decIssue h.inv hstep nofun
  obtain ⟨r, hfd, hdin, -, -, -, rfl⟩ := decAcceptStep_cases hstep
  refine h.of_front ht rfl rfl rfl rfl rfl rfl rfl ?_ nofun hseq
  rintro q ⟨rfl⟩
  have hword := h.fdOk r hfd
  rwa [State.beforeFD, hdin] at hword

/-! ### DEC_ISSUE -/

/-- The micro-op that DEC_ISSUE puts into DE stands for the next instruction of the sequential run. -/
theorem Sim.standsFor_issue (h : Sim s0 n v s) {r : FetchDecode} {k : Mnemonic}
    (hdin : s.din = some r) (hnone : decodeFault r = none)
    (hk : classify r.instructionWord = some k)
    (hfree : ∀ q ∈ sources k r.instructionWord, htContains q s.ht = false)
    (hfault : (s.beforeDIN v).fault = none) :
    StandsFor (s.beforeDIN v) (executed s.params k (microOp (fun i => s.readReg i) k r)) := by
  obtain ⟨hsfault, hde⟩ := front_of_din h.inv hdin
  have harch := h.sequential
  rw [hsfault, past_none] at harch
  have hf := harch.fault.symm.trans hfault
  obtain ⟨hcfault, -, hseq⟩ := sequential_of_din h.inv hdin hf
  obtain ⟨-, hcparams, -⟩ := completeOld_frame h.inv hcfault
  obtain ⟨-, hregister⟩ := fetchRegister_sequential h.inv hdin hf (h.issueCoherent hf)
  have hfetch : (s.beforeDIN v).inOrder.fetchRegister = r :=
    (fetchRegister_inOrder_congr harch hfault).trans (hregister hnone)
  have hexecuted : (s.beforeDIN v).executedAt k r =
      executed s.params k (microOp (fun i => s.readReg i) k r) := by
    rw [executedAt_congr harch.params harch.x, hseq, ← microOp_completeOld h.inv hcfault hfree,
      ← hcparams]
    rfl
  have hfor := standsFor_executedAt (v := s.beforeDIN v) (k := k) h.reached_beforeDIN.slots hfault
    (hfetch.symm ▸ hnone) (hfetch.symm ▸ hk)
  rwa [hfetch, hexecuted] at hfor

theorem Sim.decIssue (h : Sim s0 n v s) (hstep : pipeStep .decIssue s = some t) :
    Sim s0 n v t := by
  have ht := inv_pipeStep h.inv hstep
  obtain ⟨r, hdin, hcases⟩ := decIssueStep_cases hstep
  obtain ⟨hfault, hde⟩ := front_of_din h.inv hdin
  have harch := h.sequential
  rw [hfault, past_none] at harch
  have hseq : ArchEq (s.beforeDIN v).seqNext t.sequential :=
    archEq_seqNext_decIssue h.inv h.reached_beforeDIN.slots harch hstep h.issueCoherent
  have hbefore : s.beforeDIN v = s.beforeDE v := by rw [State.beforeDIN, hde, past_none]
  obtain ⟨kind, -, rfl⟩ | ⟨k, hnone, hk, hfree, rfl⟩ := hcases
  · exact { h with
      inv := ht
      dinOk := nofun
      fdOk := nofun
      sequential := hseq }
  · have hfor := h.standsFor_issue hdin hnone hk hfree
    exact { h with
      inv := ht
      deOk := by
        rintro m ⟨rfl⟩ hf
        exact ⟨k, hk, hbefore ▸ hfor (hbefore ▸ hf)⟩
      dinOk := nofun
      fdOk := by
        have hword := h.fdOk
        rw [State.beforeFD, hdin, hbefore] at hword
        exact hword
      sequential := by
        rw [hbefore] at hseq
        rw [issue_fault, hfault]
        exact hseq }

/-! ### EXECUTE, MEMORY and WRITEBACK -/

theorem Sim.execute (h : Sim s0 n v s) (hstep : pipeStep .execute s = some t) : Sim s0 n v t := by
  have ht := inv_pipeStep h.inv hstep
  have hseq := archEq_sequential_of_ne_decIssue h.inv hstep nofun
  obtain ⟨m, k, hde, hem, hk, hstate⟩ := executeStep_cases hstep
  have hdin : s.din = none := by
    by_contra hne
    cases (h.inv.oneInDecode hne).symm.trans hde
  have htem : t.em = some (executed s.params k m) := by rw [hstate]
  have htde : t.de = none := by rw [hstate]
  have htdin : t.din = none := by simpa [hstate] using hdin
  have hbefore : s.beforeDE v = s.beforeEM v := by rw [State.beforeDE, hem, past_none]
  have hbeforeEM : t.beforeEM v = s.beforeEM v := by simp [State.beforeEM, hstate]
  have hbeforeDIN : t.beforeDIN v = s.beforeDIN v := by
    rw [State.beforeDIN, htde, past_none, State.beforeDE, htem, past_some, hbeforeEM,
      State.beforeDIN, hde, past_some, hbefore]
  exact {
    inv := ht, reached := h.reached, run := h.run, fault := h.fault
    params := by simpa [hstate] using h.params
    x := by simpa [hstate] using h.x
    mem := by rw [hbeforeEM, ← h.mem]; simp [hstate]
    mwOk := by simpa [hstate] using h.mwOk
    emOk := by
      rw [htem]
      rintro e ⟨rfl⟩
      obtain ⟨j, hj, hfor⟩ := h.deOk m hde (hbefore ▸ h.fault_beforeEM)
      obtain rfl : k = j := Option.some.inj (hk.symm.trans hj)
      rwa [hbeforeEM, ← hbefore]
    deOk := by simp [htde]
    dinOk := by simp [htdin]
    fdOk := by
      intro r hfd
      have hkept : s.fd = some r := by
        rw [hstate, resolveBranch_fd] at hfd
        split at hfd
        · cases hfd
        · exact hfd
      have hword := h.fdOk r hkept
      rw [State.beforeFD, hdin] at hword
      rwa [State.beforeFD, htdin, hbeforeDIN]
    sequential := by
      have hfault : t.fault = s.fault := by simp [hstate]
      rw [hbeforeDIN, hfault]
      exact h.sequential.trans hseq }

/-- The core stops at the instruction in EM: what is behind it was never part of the sequential run. -/
theorem Sim.memory_stop (h : Sim s0 n v s) {e : ExecuteMemory} (hem : s.em = some e)
    (hmw : s.mw = none) (hstops : e.stops s.params = true)
    (hstep : pipeStep .memory s = some (s.stopByMemory e)) : Sim s0 n v (s.stopByMemory e) := by
  have hseq := archEq_sequential_of_ne_decIssue h.inv hstep nofun
  have hbefore : s.beforeEM v = v := by rw [State.beforeEM, hmw, past_none]
  have hstopped : v.seqNext.fault ≠ none :=
    (hbefore ▸ h.emOk e hem).fault_of_stops (h.params ▸ hstops)
  have hslots := h.reached.seqNext.slots
  have hchain : (s.beforeDIN v).past s.fault = v.seqNext := by
    rw [State.beforeDIN, State.beforeDE, hbefore, hem, past_some,
      past_of_fault hslots hstopped, past_of_fault hslots hstopped]
  have harch := h.sequential
  rw [hchain] at harch
  have hmw' : (s.stopByMemory e).beforeEM v = v := hbefore
  exact { h with
    inv := inv_pipeStep h.inv hstep
    mem := by rw [hmw', ← hbefore]; exact h.mem
    mwOk := h.mwOk
    emOk := nofun
    deOk := nofun
    dinOk := nofun
    fdOk := nofun
    sequential := by
      have hlast : ((s.stopByMemory e).beforeDIN v).past (s.stopByMemory e).fault = v.seqNext :=
        congrArg State.seqNext hmw'
      rw [hlast]
      exact harch.trans hseq }

/-- A step of the two oldest stages that leaves DE and the front alone. -/
theorem Sim.of_back {n' : Nat} {v' : State} (h : Sim s0 n v s) (inv : Inv t)
    (params : t.params = s.params) (reached : Reached s0 v') (run : RunsTo n' s0 v')
    (fault : v'.fault = none) (x : t.x = v'.x) (mem : t.mem = (t.beforeEM v').mem)
    (mwOk : ∀ w, t.mw = some w →
      ∃ e, StandsFor v' e ∧ e.stops v'.params = false ∧ w = e.passedOn v'.mem)
    (emOk : ∀ e, t.em = some e → StandsFor (t.beforeEM v') e)
    (before : t.beforeDE v' = s.beforeDE v) (de : t.de = s.de) (din : t.din = s.din)
    (fd : t.fd = s.fd) (record : t.fault = s.fault)
    (hseq : ArchEq s.sequential t.sequential) : Sim s0 n' v' t := by
  have hbeforeDIN : t.beforeDIN v' = s.beforeDIN v := by
    rw [State.beforeDIN, before, de, State.beforeDIN]
  have hbeforeFD : t.beforeFD v' = s.beforeFD v := by
    rw [State.beforeFD, hbeforeDIN, din, State.beforeFD]
  have hparams : (t.beforeDE v').params = v'.params :=
    (past_params _ _).trans (past_params _ _)
  have hparams' : (s.beforeDE v).params = v.params := (past_params _ _).trans (past_params _ _)
  exact {
    inv, reached, run, fault, x, mem, mwOk, emOk
    params := by rw [params, h.params, ← hparams, before, hparams']
    deOk := by rw [de, before, params]; exact h.deOk
    dinOk := by rw [din, hbeforeDIN]; exact h.dinOk
    fdOk := by rw [fd, hbeforeFD]; exact h.fdOk
    sequential := by rw [hbeforeDIN, record]; exact h.sequential.trans hseq }

theorem Sim.memory (h : Sim s0 n v s) (hstep : pipeStep .memory s = some t) : Sim s0 n v t := by
  have ht := inv_pipeStep h.inv hstep
  have hseq := archEq_sequential_of_ne_decIssue h.inv hstep nofun
  obtain ⟨e, hem, hmw, -⟩ := memoryStep_cases hstep
  cases hstops : e.stops s.params with
  | true =>
    obtain rfl := Option.some.inj ((memoryStep_of_stops hem hmw hstops).symm.trans hstep)
    exact h.memory_stop hem hmw hstops hstep
  | false =>
    obtain rfl := Option.some.inj ((memoryStep_of_not_stops hem hmw hstops).symm.trans hstep)
    have hbefore : s.beforeEM v = v := by rw [State.beforeEM, hmw, past_none]
    have hfor : StandsFor v e := hbefore ▸ h.emOk e hem
    have hmem : s.mem = v.mem := by rw [h.mem, hbefore]
    have hgo : e.stops v.params = false := h.params ▸ hstops
    obtain ⟨-, -, hnext⟩ := hfor.of_not_stops hgo
    have hbeforeDE : s.beforeDE v = v.seqNext := by rw [State.beforeDE, hem, past_some, hbefore]
    have hparams : (s.access e).params = s.params := by rw [access_eq]
    have hx : (s.access e).x = s.x := by rw [access_eq]
    refine h.of_back ht ?_ h.reached h.run h.fault (hx.trans h.x) ?_ ?_ nofun hbeforeDE.symm
      ?_ ?_ ?_ ?_ hseq
    · exact hparams
    · exact (access_mem_congr hmem e).trans hnext.symm
    · rintro w ⟨rfl⟩
      exact ⟨e, hfor, hgo, by rw [hmem]⟩
    all_goals rw [access_eq]

theorem Sim.writeback (h : Sim s0 n v s) (hstep : pipeStep .writeback s = some t) :
    Sim s0 (n + 1) v.seqNext t := by
  have ht := inv_pipeStep h.inv hstep
  have hseq := archEq_sequential_of_ne_decIssue h.inv hstep nofun
  obtain ⟨w, hmw, -⟩ := writebackStep_cases hstep
  obtain ⟨e, hfor, hstops, rfl⟩ := h.mwOk w hmw
  obtain ⟨hfault, hx, -⟩ := hfor.of_not_stops hstops
  obtain rfl := Option.some.inj ((writebackStep_of_inv h.inv hmw).symm.trans hstep)
  have hbefore : s.beforeEM v = v.seqNext := by rw [State.beforeEM, hmw, past_some]
  have hcommit := commit_eq (e.passedOn v.mem) s
  refine h.of_back ht ?_ h.reached.seqNext (runsTo_seqNext h.run h.reached.slots h.fault)
    (hfault.trans h.fault) ?_ ?_ nofun ?_ ?_ ?_ ?_ ?_ ?_ hseq
  · rw [hcommit]
  · exact (commit_x_congr h.x _).trans hx.symm
  · rw [hcommit]
    exact h.mem.trans (congrArg State.mem hbefore)
  · rw [hcommit]
    exact fun e' hem => hbefore ▸ h.emOk e' hem
  · rw [State.beforeDE, State.beforeDE, hbefore, hcommit]
    rfl
  all_goals rw [hcommit]

end Sim

end Sys2Proof.Machine
end

section
/-! PROOFS. What a pipeline run within R164 shows (70_reset_and_hazards.md R159, R164): its register
writes and stores are those of the sequential run, and so is its end. -/

namespace Sys2Proof.Machine

open Sys2Proof

/-! ### Registers and stores -/

theorem collectSeq_succ {α : Type} (f : State → Option α) {n : Nat} {s v : State}
    (h : RunsTo n s v) : collectSeq f (n + 1) s = collectSeq f n s ++ (f v).toList := by
  rw [collectSeq_add f h 1]
  simp only [collectSeq]
  split <;> simp

/-- A simulation with what the pipeline run has shown: the retired instructions, and the stores, among
them that of the instruction in MW. -/
structure SimLog (s0 : State) (n : Nat) (v s : State) (retired : List Retired)
    (stored : List WordCell) : Prop extends Sim s0 n v s where
  retired_eq : retired = collectSeq seqRetired n s0
  stored_eq : stored = collectSeq seqStored (n + s.mw.toList.length) s0

section Log

variable {s0 v s t : State} {n : Nat} {retired : List Retired} {stored : List WordCell}

/-- A step that shows nothing and leaves MW alone. -/
theorem SimLog.of_silent (h : SimLog s0 n v s retired stored) (ht : Sim s0 n v t)
    (hmw : t.mw = s.mw) {k : PipeStep} (hr : retiredBy k s = none) (hs : storedBy k s = none) :
    SimLog s0 n v t (retired ++ (retiredBy k s).toList) (stored ++ (storedBy k s).toList) := by
  rw [hr, hs, Option.toList_none, Option.toList_none, List.append_nil, List.append_nil]
  exact { ht with retired_eq := h.retired_eq, stored_eq := by rw [hmw]; exact h.stored_eq }

/-- What MEMORY shows of the register in EM. -/
theorem storedBy_memory {e : ExecuteMemory} (hem : s.em = some e) :
    storedBy .memory s = if e.stops s.params then none else e.stored := by
  cases hop : e.isMemoryOp with
  | false =>
    simp [storedBy, hem, ExecuteMemory.stops, ExecuteMemory.stored, ExecuteMemory.isStore, hop]
  | true =>
    cases hr : inRange s.params e.aluOrAddressResult.toNat <;>
      simp [storedBy, hem, ExecuteMemory.stops, ExecuteMemory.stored, ExecuteMemory.isStore, hop, hr]

theorem SimLog.memory (h : SimLog s0 n v s retired stored) (hstep : pipeStep .memory s = some t) :
    SimLog s0 n v t (retired ++ (retiredBy .memory s).toList)
      (stored ++ (storedBy .memory s).toList) := by
  have ht := h.toSim.memory hstep
  obtain ⟨e, hem, hmw, -⟩ := memoryStep_cases hstep
  have hr : retiredBy .memory s = none := by simp [retiredBy]
  cases hstops : e.stops s.params with
  | true =>
    obtain rfl := Option.some.inj ((memoryStep_of_stops hem hmw hstops).symm.trans hstep)
    exact h.of_silent ht rfl hr (by rw [storedBy_memory hem, if_pos hstops])
  | false =>
    obtain rfl := Option.some.inj ((memoryStep_of_not_stops hem hmw hstops).symm.trans hstep)
    have hfor : StandsFor v e := by
      have hem' := h.emOk e hem
      rwa [State.beforeEM, hmw] at hem'
    have hstored : seqStored v = e.stored :=
      hfor.seqStored (h.params ▸ hstops) h.reached.inv h.reached.slots h.fault
    refine { ht with retired_eq := ?_, stored_eq := ?_ }
    · rw [hr, h.retired_eq, Option.toList_none, List.append_nil]
    · rw [storedBy_memory hem, hstops, h.stored_eq, hmw]
      exact hstored ▸ (collectSeq_succ seqStored h.run).symm

theorem SimLog.writeback (h : SimLog s0 n v s retired stored)
    (hstep : pipeStep .writeback s = some t) :
    SimLog s0 (n + 1) v.seqNext t (retired ++ (retiredBy .writeback s).toList)
      (stored ++ (storedBy .writeback s).toList) := by
  have ht := h.toSim.writeback hstep
  obtain ⟨w, hmw, -⟩ := writebackStep_cases hstep
  obtain ⟨e, hfor, hstops, rfl⟩ := h.mwOk w hmw
  obtain rfl := Option.some.inj ((writebackStep_of_inv h.inv hmw).symm.trans hstep)
  have hret : seqRetired v = some (e.passedOn v.mem).retired :=
    hfor.seqRetired hstops h.reached.slots h.fault (h.params ▸ h.inv.mwOk _ hmw)
  have hr : retiredBy .writeback s = some (e.passedOn v.mem).retired := by
    simp [retiredBy, hmw, MemoryWriteback.retired]
  have hs : storedBy .writeback s = none := by simp [storedBy]
  refine { ht with retired_eq := ?_, stored_eq := ?_ }
  · rw [hr, h.retired_eq, collectSeq_succ seqRetired h.run, hret]
  · rw [hs, h.stored_eq, hmw, Option.toList_none, List.append_nil]
    rfl

theorem SimLog.step (h : SimLog s0 n v s retired stored) (hkept : StoreDistanceKept s0)
    {k : PipeStep} (hstep : pipeStep k s = some t) :
    ∃ n' v', SimLog s0 n' v' t (retired ++ (retiredBy k s).toList)
      (stored ++ (storedBy k s).toList) := by
  cases k with
  | fetch =>
    refine ⟨n, v, h.of_silent (h.toSim.fetch hkept hstep) ?_ (by simp [retiredBy]) rfl⟩
    obtain ⟨-, -, ⟨-, rfl⟩ | ⟨-, rfl⟩⟩ := fetchStep_cases hstep <;> rfl
  | decAccept =>
    refine ⟨n, v, h.of_silent (h.toSim.decAccept hstep) ?_ (by simp [retiredBy]) rfl⟩
    obtain ⟨r, -, -, -, -, -, rfl⟩ := decAcceptStep_cases hstep
    rfl
  | decIssue =>
    refine ⟨n, v, h.of_silent (h.toSim.decIssue hstep) ?_ (by simp [retiredBy]) rfl⟩
    exact (sameOld_decIssue hstep).mw.symm
  | execute =>
    refine ⟨n, v, h.of_silent (h.toSim.execute hstep) ?_ (by simp [retiredBy]) rfl⟩
    obtain ⟨m, k, -, -, -, rfl⟩ := executeStep_cases hstep
    exact resolveBranch_mw k m s
  | memory => exact ⟨n, v, h.memory hstep⟩
  | writeback => exact ⟨n + 1, v.seqNext, h.writeback hstep⟩

theorem SimLog.pipeRun (h : SimLog s0 n v s retired stored) (hkept : StoreDistanceKept s0)
    {ks : List PipeStep} (hrun : pipeRun ks s = some t) :
    ∃ n' v', SimLog s0 n' v' t (retired ++ collect retiredBy ks s)
      (stored ++ collect storedBy ks s) := by
  induction ks generalizing s n v retired stored with
  | nil =>
    obtain rfl := Option.some.inj hrun
    exact ⟨n, v, by simpa [collect] using h⟩
  | cons k ks ih =>
    rw [pipeRun_cons, Option.bind_eq_some_iff] at hrun
    obtain ⟨u, hu, hrest⟩ := hrun
    obtain ⟨n', v', h'⟩ := h.step hkept hu
    simpa [collect, hu] using ih h' hrest

end Log

/-- With nothing in flight nothing has been shown. -/
theorem simLog_refl {s : State} (hs : Inv s) (hslots : s.slotsEmpty = true)
    (hfault : s.fault = none) : SimLog s 0 s s [] [] where
  toSim := sim_refl hs hslots hfault
  retired_eq := rfl
  stored_eq := by
    obtain ⟨-, -, -, -, hmw⟩ := (slotsEmpty_iff s).1 hslots
    simp [hmw, collectSeq]

/-- The simulation of a run that starts with nothing in flight. -/
theorem simLog_of_pipeRun {s t : State} {ks : List PipeStep} (hs : Inv s)
    (hslots : s.slotsEmpty = true) (hfault : s.fault = none) (hkept : StoreDistanceKept s)
    (hrun : pipeRun ks s = some t) :
    ∃ n v, SimLog s n v t (collect retiredBy ks s) (collect storedBy ks s) := by
  simpa using (simLog_refl hs hslots hfault).pipeRun hkept hrun

end Sys2Proof.Machine
end

section
/-! PROOFS. The statements about whole runs from reset (70_reset_and_hazards.md R145, R159, R160,
R164). -/

namespace Sys2Proof.Machine

open Sys2Proof

/-! ### Precise fatal errors -/

/-- Within R164 every instruction is issued with the word that the sequential semantics reads. -/
theorem coherentRun_of_sim {s0 v s t : State} {n : Nat} {ks : List PipeStep}
    {retired : List Retired} {stored : List WordCell} (h : SimLog s0 n v s retired stored)
    (hkept : StoreDistanceKept s0) (hrun : pipeRun ks s = some t) : CoherentRun ks s := by
  induction ks generalizing s n v retired stored with
  | nil => trivial
  | cons k ks ih =>
    rw [pipeRun_cons, Option.bind_eq_some_iff] at hrun
    obtain ⟨u, hu, hrest⟩ := hrun
    obtain ⟨n', v', h'⟩ := h.step hkept hu
    refine ⟨fun _ => h.toSim.issueCoherent, ?_⟩
    rw [hu]
    exact ih h' hrest

/-- Settles O58: a coherent run follows the sequential run, and within R164 every run is coherent. -/
theorem haltedPipelineAgreesWithSequentialRun :
    Obligations.HaltedPipelineAgreesWithSequentialRun := by
  refine ⟨fun p image regs s t ks hreset hrun hcoh hh => ?_,
    fun p image regs s t ks hreset hkept hrun => ?_⟩
  · obtain ⟨hd, -⟩ := drained_of_resetWith hreset
    exact halted_agrees (inv_of_resetWith hreset) hd.slots hrun hcoh hh
  · obtain ⟨hd, hfault⟩ := drained_of_resetWith hreset
    exact coherentRun_of_sim (simLog_refl (inv_of_resetWith hreset) hd.slots hfault) hkept hrun

/-! ### The beginning of the sequential run -/

/-- A store in MW has written memory but has not retired; all else in MW has done nothing yet. -/
theorem SimLog.exists_runsTo {s0 v t : State} {n : Nat} {retired : List Retired} {stored : List WordCell}
    (h : SimLog s0 n v t retired stored) :
    ∃ n u, RunsTo n s0 u ∧ u.fault = none ∧ t.x = u.x ∧ t.mem = u.mem ∧
      stored = collectSeq seqStored n s0 ∧
      (retired = collectSeq seqRetired n s0 ∨
        ∃ m w, n = m + 1 ∧ t.mw = some w ∧ w.isMemoryOp = true ∧ w.destinationLockAdded = false ∧
          retired = collectSeq seqRetired m s0) := by
  have hmem := h.mem
  have hstored := h.stored_eq
  cases hmw : t.mw with
  | none =>
    rw [State.beforeEM, hmw, past_none] at hmem
    rw [hmw] at hstored
    exact ⟨n, v, h.run, h.fault, h.x, hmem, hstored, .inl h.retired_eq⟩
  | some w =>
    rw [State.beforeEM, hmw, past_some] at hmem
    rw [hmw] at hstored
    obtain ⟨e, hfor, hstops, rfl⟩ := h.mwOk w hmw
    obtain ⟨hnfault, hx, hnmem⟩ := hfor.of_not_stops hstops
    cases hs : e.isStore with
    | true =>
      obtain ⟨hop, hl⟩ : e.isMemoryOp = true ∧ e.destinationLockAdded = false := by
        simpa [ExecuteMemory.isStore] using hs
      have hpassed : e.passedOn v.mem = e := by simp [ExecuteMemory.passedOn, hl]
      have hnx : v.seqNext.x = v.x := by simp [hx, hpassed, State.commit, hl]
      refine ⟨n + 1, v.seqNext, runsTo_seqNext h.run h.reached.slots h.fault,
        hnfault.trans h.fault, h.x.trans hnx.symm, hmem, hstored,
        .inr ⟨n, e, rfl, congrArg some hpassed, hop, hl, h.retired_eq⟩⟩
    | false =>
      have hnone : seqStored v = none := by
        rw [hfor.seqStored hstops h.reached.inv h.reached.slots h.fault, ExecuteMemory.stored, hs]
        rfl
      have hsame : v.seqNext.mem = v.mem := by
        rw [hnmem, State.access]
        cases hop : e.isMemoryOp <;> simp_all [ExecuteMemory.isStore]
      refine ⟨n, v, h.run, h.fault, h.x, hmem.trans hsame, ?_, .inl h.retired_eq⟩
      simpa [collectSeq_succ seqStored h.run, hnone] using hstored

/-- Settles O59: what a run has shown is what the sequential run has done past the retired instructions,
and past the store in MW. -/
theorem pipelineRunIsAPrefixOfTheSequentialRun :
    Obligations.PipelineRunIsAPrefixOfTheSequentialRun := by
  intro p image regs s t ks hreset hkept hrun
  obtain ⟨hd, hfault⟩ := drained_of_resetWith hreset
  obtain ⟨n, v, h⟩ := simLog_of_pipeRun (inv_of_resetWith hreset) hd.slots hfault hkept hrun
  exact h.exists_runsTo

end Sys2Proof.Machine
end

section
/-! PROOFS. The length of pipeline runs and their end (70_reset_and_hazards.md R144, R159, R160). -/

namespace Sys2Proof.Machine

open Sys2Proof

/-! ### Every step brings the pipeline on -/

/-- The way that the instructions in the slots have come; after a fault, that no more than three steps
remain (R144). -/
def State.progress (s : State) : Nat :=
  if s.fault.isSome then 21 - s.draining
  else s.fd.toList.length + 2 * s.din.toList.length + 3 * s.de.toList.length +
    5 * s.em.toList.length + 6 * s.mw.toList.length

theorem length_toList_le {α : Type} (o : Option α) : o.toList.length ≤ 1 := by
  cases o <;> simp

section Progress

variable {s t : State} {k : PipeStep}

theorem progress_of_fault_none (h : s.fault = none) :
    s.progress = s.fd.toList.length + 2 * s.din.toList.length + 3 * s.de.toList.length +
      5 * s.em.toList.length + 6 * s.mw.toList.length := by
  simp [State.progress, h]

theorem progress_of_fault_ne_none (h : s.fault ≠ none) : s.progress = 21 - s.draining := by
  obtain ⟨f, hf⟩ := Option.ne_none_iff_exists'.1 h
  simp [State.progress, hf]

/-- An instruction is in DIN or in DE, not in both. -/
theorem progress_le_of_fault_none (hs : Inv s) (h : s.fault = none) : s.progress ≤ 15 := by
  have hfd := length_toList_le s.fd
  have hdin := length_toList_le s.din
  have hde := length_toList_le s.de
  have hem := length_toList_le s.em
  have hmw := length_toList_le s.mw
  rw [progress_of_fault_none h]
  cases hd : s.din with
  | none =>
    simp only [Option.toList_none, List.length_nil]
    omega
  | some r =>
    rw [hs.oneInDecode (by simp [hd])]
    simp only [Option.toList_none, Option.toList_some, List.length_nil, List.length_singleton]
    omega

theorem progress_le (hs : Inv s) : s.progress ≤ 21 := by
  by_cases h : s.fault = none
  · exact (progress_le_of_fault_none hs h).trans (by omega)
  · rw [progress_of_fault_ne_none h]
    omega

/-- Without a fault each step takes an instruction one slot on, or out of MW. -/
theorem progress_pipeStep_of_fault_none (hinv : Inv s) (hstep : pipeStep k s = some t)
    (hs : s.fault = none) (ht : t.fault = none) :
    s.progress + 1 ≤ t.progress + 7 * (retiredBy k s).toList.length := by
  rw [progress_of_fault_none hs, progress_of_fault_none ht]
  cases k with
  | fetch =>
    obtain ⟨hfd, -, ⟨-, rfl⟩ | ⟨-, rfl⟩⟩ := fetchStep_cases hstep <;>
    · simp only [hfd, Option.toList_none, Option.toList_some, List.length_nil,
        List.length_singleton]
      omega
  | decAccept =>
    obtain ⟨r, hfd, hdin, -, -, -, rfl⟩ := decAcceptStep_cases hstep
    simp only [hfd, hdin, Option.toList_none, Option.toList_some, List.length_nil,
      List.length_singleton]
    omega
  | decIssue =>
    obtain ⟨r, hdin, ⟨kind, -, rfl⟩ | ⟨j, -, -, -, rfl⟩⟩ := decIssueStep_cases hstep
    · cases ht
    · obtain ⟨-, hde⟩ := front_of_din hinv hdin
      simp only [hdin, hde, issue_fd, issue_din, issue_de, issue_em, issue_mw, Option.toList_none,
        Option.toList_some, List.length_nil, List.length_singleton]
      omega
  | execute =>
    obtain ⟨m, j, hde, hem, -, rfl⟩ := executeStep_cases hstep
    have hfd := length_toList_le s.fd
    simp only [hde, hem, resolveBranch_din, resolveBranch_mw, Option.toList_none,
      Option.toList_some, List.length_nil, List.length_singleton]
    omega
  | memory =>
    obtain ⟨e, hem, hmw, -⟩ := memoryStep_cases hstep
    cases hstops : e.stops s.params with
    | true =>
      obtain rfl := Option.some.inj ((memoryStep_of_stops hem hmw hstops).symm.trans hstep)
      cases ht
    | false =>
      obtain rfl := Option.some.inj ((memoryStep_of_not_stops hem hmw hstops).symm.trans hstep)
      rw [access_eq]
      simp [hem, hmw]
  | writeback =>
    obtain ⟨w, hmw, ⟨-, rfl⟩ | ⟨-, ht', -, rfl⟩⟩ := writebackStep_cases hstep
    · simp [hmw, retiredBy]
    · simp [hmw, retiredBy]

/-- R144, R160: no step is in vain. -/
theorem progress_pipeStep (hs : Inv s) (hstep : pipeStep k s = some t) :
    s.progress + 1 ≤ t.progress + 7 * (retiredBy k s).toList.length := by
  have hsdrain := draining_le s
  have htdrain := draining_le t
  by_cases hsf : s.fault = none
  · by_cases htf : t.fault = none
    · exact progress_pipeStep_of_fault_none hs hstep hsf htf
    · have hle := progress_le_of_fault_none hs hsf
      rw [progress_of_fault_ne_none htf]
      omega
  · have hdrain := draining_pipeStep hs hstep hsf
    rw [progress_of_fault_ne_none hsf,
      progress_of_fault_ne_none (faultRecordStays k s t hs hstep hsf).1]
    omega

theorem length_le_progress {ks : List PipeStep} (hs : Inv s) (hrun : pipeRun ks s = some t) :
    ks.length + s.progress ≤ t.progress + 7 * (collect retiredBy ks s).length := by
  induction ks generalizing s with
  | nil =>
    obtain rfl := Option.some.inj hrun
    simp
  | cons k ks ih =>
    rw [pipeRun_cons, Option.bind_eq_some_iff] at hrun
    obtain ⟨u, hu, hrest⟩ := hrun
    have hone := progress_pipeStep hs hu
    have hmore := ih (inv_pipeStep hs hu) hrest
    simp only [collect, hu, List.length_cons, List.length_append]
    omega

/-- A run is about seven times as long as what it has retired, at most. -/
theorem length_le_retired {ks : List PipeStep} (hs : Inv s) (hrun : pipeRun ks s = some t) :
    ks.length ≤ 7 * (collect retiredBy ks s).length + 21 := by
  have ht : Inv t := pipeRun_induction (fun _ _ _ h hi => inv_pipeStep hi h) hrun hs
  have hrun := length_le_progress hs hrun
  have hle := progress_le ht
  omega

end Progress

/-! ### The end of the sequential run -/

section End

variable {s0 u v t : State} {n N : Nat} {retired : List Retired} {stored : List WordCell}

theorem halted_of_fault (hslots : v.slotsEmpty = true) (hfault : v.fault ≠ none) :
    v.halted = true :=
  (halted_iff v).2 ⟨Option.ne_none_iff_exists'.1 hfault, hslots⟩

/-- No sequential run is longer than one that has ended. -/
theorem le_of_runsTo_halted (hu : RunsTo N s0 u) (hh : u.halted = true) (hv : RunsTo n s0 v) :
    n ≤ N := by
  by_contra hlt
  obtain ⟨m, rfl⟩ : ∃ m, n = N + (m + 1) := ⟨n - N - 1, by omega⟩
  obtain ⟨w, hw, hrest⟩ := (runsTo_add N (m + 1) s0 v).1 hv
  obtain rfl := runsTo_unique hu hw
  exact not_runsTo_succ_of_halted hh hrest

theorem length_collectSeq_le {α : Type} (f : State → Option α) (n : Nat) (s : State) :
    (collectSeq f n s).length ≤ n := by
  induction n generalizing s with
  | zero => exact le_rfl
  | succ n ih =>
    have hone := length_toList_le (f s)
    rw [collectSeq, List.length_append]
    cases h : step s.inOrder with
    | next w =>
      have hrest := ih w
      dsimp only
      omega
    | _ =>
      simp only [List.length_nil]
      omega

/-- A fault that is recorded stays recorded while the issued instructions complete. -/
theorem sequential_fault_ne_none (ht : Inv t) (hf : t.fault ≠ none) :
    t.sequential.fault ≠ none := by
  have htry {s : State} (h : Inv s ∧ s.fault ≠ none) (k : PipeStep) :
      Inv (s.tryStep k) ∧ (s.tryStep k).fault ≠ none :=
    ⟨inv_tryStep h.1 k, tryStep_fault_ne_none h.1 h.2 k⟩
  exact (htry (htry (htry (htry (htry (htry ⟨ht, hf⟩ _) _) _) _) _) _).2

/-- When the pipeline has recorded a fault, the sequential run ends. -/
theorem Sim.exists_halted (h : Sim s0 n v t) (hfault : t.fault ≠ none) :
    ∃ N u, RunsTo N s0 u ∧ u.halted = true := by
  obtain ⟨-, hslots, N, hN⟩ := h.reached_beforeDIN.past t.fault
  refine ⟨N, _, hN, halted_of_fault hslots ?_⟩
  rw [h.sequential.fault]
  exact sequential_fault_ne_none h.inv hfault

/-- A halted pipeline has come to the end of the sequential run, whose last instruction does not
complete. -/
theorem SimLog.of_halted (h : SimLog s0 n v t retired stored) (hh : t.halted = true) :
    RunsTo (n + 1) s0 v.seqNext ∧ v.seqNext.halted = true ∧ ArchEq v.seqNext t ∧
    retired = collectSeq seqRetired (n + 1) s0 ∧ stored = collectSeq seqStored (n + 1) s0 := by
  obtain ⟨⟨f, hf⟩, hslots⟩ := (halted_iff t).1 hh
  obtain ⟨-, -, hde, hem, hmw⟩ := (slotsEmpty_iff t).1 hslots
  have harch : ArchEq v.seqNext t := by
    have hseq := h.sequential
    rw [State.beforeDIN, hde, past_none, State.beforeDE, hem, past_none, State.beforeEM, hmw,
      past_none, hf, past_some] at hseq
    exact hseq.trans (archEq_sequential_of_slotsEmpty h.inv hslots).symm
  have hstopped : v.seqNext.fault = some f := harch.fault.trans hf
  have hnone : v.nextCompletes = none := by
    rw [nextCompletes_eq h.reached.slots h.fault, hstopped]
    rfl
  have hret : seqRetired v = none := by
    unfold seqRetired
    rw [hnone]
    cases v.nextInstr <;> rfl
  have hsto : seqStored v = none := by
    unfold seqStored
    rw [hnone]
    cases v.nextStore <;> rfl
  refine ⟨runsTo_seqNext h.run h.reached.slots h.fault,
    halted_of_fault h.reached.seqNext.slots (by simp [hstopped]), harch, ?_, ?_⟩
  · rw [h.retired_eq, collectSeq_succ seqRetired h.run, hret, Option.toList_none, List.append_nil]
  · rw [h.stored_eq, hmw, collectSeq_succ seqStored h.run, hsto]
    simp

end End

/-- Settles O60: a run is no longer than its retired instructions allow, and one that can go no further
has come to the end of the sequential run. -/
theorem pipelineEndsExactlyWhenTheSequentialRunEnds :
    Obligations.PipelineEndsExactlyWhenTheSequentialRunEnds := by
  intro p image regs s hreset hkept
  obtain ⟨hd, hfault⟩ := drained_of_resetWith hreset
  have hs := inv_of_resetWith hreset
  have hsim {ks : List PipeStep} {t : State} (hrun : pipeRun ks s = some t) :=
    simLog_of_pipeRun hs hd.slots hfault hkept hrun
  refine ⟨fun N u hu hh => ⟨⟨7 * N + 21, fun ks t hrun => ?_⟩, fun ks t hrun hstuck => ?_⟩,
    fun hgoes => ⟨fun ks t hrun => ?_, fun m => ⟨7 * m + 21, fun ks t hrun hlong => ?_⟩⟩⟩
  · obtain ⟨n, v, h⟩ := hsim hrun
    have hn := le_of_runsTo_halted hu hh h.run
    have hretired := length_collectSeq_le seqRetired n s
    have hlength := length_le_retired hs hrun
    rw [h.retired_eq] at hlength
    omega
  · obtain ⟨n, v, h⟩ := hsim hrun
    have hht := (halted_iff_not_enabled h.inv).2 hstuck
    obtain ⟨hlast, hend, harch, hretired, hstored⟩ := h.of_halted hht
    obtain rfl : N = n + 1 :=
      (le_of_runsTo_halted hlast hend hu).antisymm (le_of_runsTo_halted hu hh hlast)
    obtain rfl := runsTo_unique hu hlast
    exact ⟨hht, harch, hretired, hstored⟩
  · obtain ⟨n, v, h⟩ := hsim hrun
    have hnone : t.fault = none := by
      by_contra hf
      obtain ⟨N, u, hu, hh⟩ := h.exists_halted hf
      obtain ⟨w, hw⟩ := hgoes (N + 1)
      have := le_of_runsTo_halted hu hh hw
      omega
    exact ⟨hnone, exists_enabled h.inv hnone⟩
  · have hlength := length_le_retired hs hrun
    omega

end Sys2Proof.Machine
end
